-- ==== Sys2Proof/Word.lean ====
section
/-! DEFINITION. The word types: a register is 32 bits (R18), a datagram byte 8 (R31). -/

namespace Sys2Proof

/-- A register of SWU: unsigned 32 bits, `+32` and `-32` are the `+` and `-` of `BitVec 32` (R18). -/
abbrev Word := BitVec 32

/-- One byte of a datagram buffer (R31). -/
abbrev Byte := BitVec 8

end Sys2Proof
end

