-- ==== Sys2Proof/Syntax.lean ====
section
/-! DEFINITION. The commands of the opcode map (30_encoding.md R73), one constructor per row, with the fields the
row's operand class uses (R72). -/

namespace Sys2Proof

/-- A command. `port`, `pin`, `mode` and `axis` are the word's fields as they stand (R65, R77); whether PORT names a
port and MODE a mode is the value check of WellFormed.lean (R73 step 2). -/
inductive Instr where
  /-- NOP (R86). -/
  | nop
  /-- INIT (R87). -/
  | init
  /-- NOW (R88). -/
  | now
  /-- ELAPSED, t0 in ARG (R89). -/
  | elapsed
  /-- WAIT, the cycle count in ARG (R90). -/
  | wait
  /-- SETMODE (R96). -/
  | setmode (port : BitVec 3) (pin : BitVec 4) (mode : BitVec 4)
  /-- SETLVL (R97). -/
  | setlvl (port : BitVec 3) (pin : BitVec 4) (lvl : Bool)
  /-- GETLVL (R98). -/
  | getlvl (port : BitVec 3) (pin : BitVec 4)
  /-- SENDB, the byte in ARG[7:0] (R106). -/
  | sendb (port : BitVec 3) (pin : BitVec 4)
  /-- RECVB (R117). -/
  | recvb (port : BitVec 3) (pin : BitVec 4)
  /-- FRAMEW (R124). -/
  | framew
  /-- FRAMER (R125). -/
  | framer
  /-- WRTXN (R137). -/
  | wrtxn (axis : BitVec 4)
  /-- RDTXN (R138). -/
  | rdtxn (axis : BitVec 4)
  deriving DecidableEq, Repr

end Sys2Proof
end

