-- ==== Sys2Proof/WellFormed.lean ====
section
/-! DEFINITION. The value checks of a decoded command (30_encoding.md R73 step 2): PORT < N_PORTS for class P (R67)
and MODE in {0x3, 0x4} for SETMODE (R69). -/

namespace Sys2Proof

/-- MODE code 0x3, push-pull output (R94). -/
def modeOutPp : BitVec 4 := 0x3

/-- MODE code 0x4, floating input (R94). -/
def modeInFloat : BitVec 4 := 0x4

/-- The two mode codes that are not reserved (R69, R94). -/
def legalMode (m : BitVec 4) : Bool := m == modeOutPp || m == modeInFloat

/-- PORT names a port (R67). -/
def legalPort (nPorts : Nat) (port : BitVec 3) : Bool := decide (port.toNat < nPorts)

/-- The value checks of R73 step 2, given N_PORTS. AXIS has none: an unmapped axis is UNSUPPORTED_AXIS, no illegal
encoding (R68). -/
def Instr.wellFormed (nPorts : Nat) : Instr → Bool
  | .nop | .init | .now | .elapsed | .wait | .framew | .framer => true
  | .setmode port _ mode => legalPort nPorts port && legalMode mode
  | .setlvl port _ _ => legalPort nPorts port
  | .getlvl port _ => legalPort nPorts port
  | .sendb port _ => legalPort nPorts port
  | .recvb port _ => legalPort nPorts port
  | .wrtxn _ | .rdtxn _ => true

end Sys2Proof
end

