-- ==== Sys2Proof/Decode.lean ====
section
/-! DEFINITION. The decoder of a command word (30_encoding.md R65-R76) and the encoder, both from the table of R73. -/

namespace Sys2Proof

/-- Why no row of R73 matches a word (R74 items 1 and 2). -/
inductive IllegalWord where
  /-- OPC is not in the opcode map (R74.1). -/
  | reservedOpcode
  /-- OPC is in the map and a bit reserved for it is 1 (R71, R74.2). -/
  | reservedBits
  deriving DecidableEq, Repr

/-- Field OPC, bits 7:0 (R65). -/
def opcField (w : Word) : BitVec 8 := w.extractLsb' 0 8

/-- Field PIN, bits 11:8 (R65). -/
def pinField (w : Word) : BitVec 4 := w.extractLsb' 8 4

/-- Field PORT, bits 14:12 (R65). -/
def portField (w : Word) : BitVec 3 := w.extractLsb' 12 3

/-- Field AXIS, bits 19:16 (R65). -/
def axisField (w : Word) : BitVec 4 := w.extractLsb' 16 4

/-- Field MODE, bits 23:20 (R65). -/
def modeField (w : Word) : BitVec 4 := w.extractLsb' 20 4

/-- Field LVL, bit 24 (R65). -/
def lvlField (w : Word) : Bool := w.getLsbD 24

/-- The mask of an operand-free row, class N (R73). -/
def maskN : Word := 0xFFFFFFFF

/-- The mask of a row with PORT and PIN, class P (R73). -/
def maskP : Word := 0xFFFF80FF

/-- SETMODE's mask: PORT, PIN and MODE vary (R73). -/
def maskSetmode : Word := 0xFF0F80FF

/-- SETLVL's mask: PORT, PIN and LVL vary (R73). -/
def maskSetlvl : Word := 0xFEFF80FF

/-- The mask of a row with AXIS, class A (R73). -/
def maskA : Word := 0xFFF0FFFF

/-- The opcodes of the map (R73). -/
def knownOpcode (o : BitVec 8) : Bool :=
  [0x00, 0x01, 0x02, 0x03, 0x04, 0x10, 0x11, 0x12, 0x20, 0x21, 0x30, 0x31, 0x40, 0x41].contains o

/-- The command a word decodes to: the row of R73 with `(w & mask) = match`, or by name why there is none. -/
def decode (w : Word) : Except IllegalWord Instr :=
  if w &&& maskN = 0x00000000 then .ok .nop
  else if w &&& maskN = 0x00000001 then .ok .init
  else if w &&& maskN = 0x00000002 then .ok .now
  else if w &&& maskN = 0x00000003 then .ok .elapsed
  else if w &&& maskN = 0x00000004 then .ok .wait
  else if w &&& maskSetmode = 0x00000010 then .ok (.setmode (portField w) (pinField w) (modeField w))
  else if w &&& maskSetlvl = 0x00000011 then .ok (.setlvl (portField w) (pinField w) (lvlField w))
  else if w &&& maskP = 0x00000012 then .ok (.getlvl (portField w) (pinField w))
  else if w &&& maskP = 0x00000020 then .ok (.sendb (portField w) (pinField w))
  else if w &&& maskP = 0x00000021 then .ok (.recvb (portField w) (pinField w))
  else if w &&& maskN = 0x00000030 then .ok .framew
  else if w &&& maskN = 0x00000031 then .ok .framer
  else if w &&& maskA = 0x00000040 then .ok (.wrtxn (axisField w))
  else if w &&& maskA = 0x00000041 then .ok (.rdtxn (axisField w))
  else if knownOpcode (opcField w) then .error .reservedBits
  else .error .reservedOpcode

/-- The host's question: the command of a word whose bits are `w`. A command is one 32-bit word (R76), so the bits
above `nbits` are 0. -/
def decodeTableWord (nbits w : Nat) : Option Instr :=
  match decode (BitVec.ofNat 32 (w % 2 ^ nbits)) with
  | .ok i => some i
  | .error _ => none

/-- PORT and PIN in their places (R65). -/
def pinBits (port : BitVec 3) (pin : BitVec 4) : Word :=
  pin.setWidth 32 <<< 8 ||| port.setWidth 32 <<< 12

/-- AXIS in its place (R65). -/
def axisBits (axis : BitVec 4) : Word := axis.setWidth 32 <<< 16

/-- MODE in its place (R65). -/
def modeBits (mode : BitVec 4) : Word := mode.setWidth 32 <<< 20

/-- LVL in its place (R65). -/
def lvlBits (lvl : Bool) : Word := if lvl then 0x01000000 else 0

/-- enc of R79: the word of a command, its row's match with the fields in their places (R73). -/
def encode : Instr → Word
  | .nop => 0x00000000
  | .init => 0x00000001
  | .now => 0x00000002
  | .elapsed => 0x00000003
  | .wait => 0x00000004
  | .setmode port pin mode => 0x00000010 ||| pinBits port pin ||| modeBits mode
  | .setlvl port pin lvl => 0x00000011 ||| pinBits port pin ||| lvlBits lvl
  | .getlvl port pin => 0x00000012 ||| pinBits port pin
  | .sendb port pin => 0x00000020 ||| pinBits port pin
  | .recvb port pin => 0x00000021 ||| pinBits port pin
  | .framew => 0x00000030
  | .framer => 0x00000031
  | .wrtxn axis => 0x00000040 ||| axisBits axis
  | .rdtxn axis => 0x00000041 ||| axisBits axis

end Sys2Proof
end

