-- ==== Sys2Proof/Config.lean ====
section
/-! DEFINITION. The implementation parameters of 00_scope.md (R5-R17) and of R159, their constraints, and the
free values: what the spec leaves open has no body here. -/

namespace Sys2Proof

/-- One GPIO pin, written pP.I in the spec: the port (0..7) and the pin within it (0..15) (R16, R67). -/
structure PinRef where
  port : BitVec 3
  pin : BitVec 4
  deriving DecidableEq, Repr

/-- CHECK (R11) is a parameter: the test vectors' CRC8_TMC (R120), or a function the model knows nothing of. -/
inductive CheckFn where
  | crc8Tmc
  | external
  deriving DecidableEq, Repr

/-- The parameters of SWU: R6 (clockHz, baud), R9 (the datagram layout), R10, R11, R12, R13, R14, R15, R16, R17 and
the platform's NMI_MASKED (R159). -/
structure Params where
  clockHz : Nat
  baud : Nat
  writeLen : Nat
  reqLen : Nat
  replyLen : Nat
  slaveIdx : Nat
  slaveAddr : Byte
  check : CheckFn
  failOff : Nat
  failLen : Nat
  rxTimeout : Nat
  guardBits : Nat
  axisMap : Vector (Option PinRef) 16
  nPorts : Nat
  base : Nat
  nmiMasked : Bool
  deriving DecidableEq, Repr

/-- BP, the bit period in cycles, rounded to the nearest integer with an exact half up (R7, conflict C1). -/
def Params.bp (p : Params) : Nat := (2 * p.clockHz + p.baud) / (2 * p.baud)

/-- HALF = floor(BP/2) (R8). -/
def Params.half (p : Params) : Nat := p.bp / 2

/-- GUARD = GUARD_BITS * BP cycles (R14). -/
def Params.guard (p : Params) : Nat := p.guardBits * p.bp

/-- The constraints of R6, R7, R9, R12-R17. A configuration outside them is not admitted (93 section 1: "refuse"). -/
def Params.ok (p : Params) : Bool :=
  decide (1 ≤ p.clockHz) && decide (1 ≤ p.baud)
    && decide (1 ≤ p.bp) && decide (10 * p.bp < 2 ^ 31)
    && decide (2 ≤ p.writeLen) && decide (p.writeLen ≤ 8)
    && decide (2 ≤ p.reqLen) && decide (p.reqLen ≤ 8)
    && decide (1 ≤ p.replyLen) && decide (p.replyLen ≤ 8)
    && decide (p.slaveIdx + 2 ≤ min p.writeLen p.reqLen)
    && decide (1 ≤ p.failLen) && decide (p.failOff + p.failLen ≤ p.replyLen)
    && decide (1 ≤ p.rxTimeout) && decide (p.rxTimeout < 2 ^ 31)
    && decide (1 ≤ p.guardBits) && decide (p.guard < 2 ^ 31)
    && decide (1 ≤ p.nPorts) && decide (p.nPorts ≤ 8)
    && p.axisMap.toList.all (fun m => m.all (fun r => decide (r.port.toNat < p.nPorts)))
    && decide (p.base % 0x1000 = 0)

/-- A configuration the spec admits: parameters with the proof that they meet its constraints. No command or host
access changes it (R44). -/
structure Config where
  params : Params
  ok : params.ok = true
  deriving DecidableEq, Repr

/-- Configuration T of 95_test_vectors.md section 0 (CLOCK_HZ 4 and BAUD 1 give its BP = 4; BASE and NMI_MASKED are
not given there). DESIGN CHOICE, unsafe: log entry 1. -/
def Params.testT : Params where
  clockHz := 4
  baud := 1
  writeLen := 8
  reqLen := 4
  replyLen := 8
  slaveIdx := 1
  slaveAddr := 0x03
  check := .crc8Tmc
  failOff := 3
  failLen := 4
  rxTimeout := 10
  guardBits := 2
  axisMap := ((Vector.replicate 16 none).set 0 (some ⟨0, 5⟩)).set 1 (some ⟨0, 6⟩)
  nPorts := 2
  base := 0
  nmiMasked := false

/-- Configuration T as an admitted configuration. DESIGN CHOICE, unsafe: log entry 1. -/
def Config.testT : Config := ⟨Params.testT, by decide⟩

/-- FREE VALUE. ENV_n of every port in cycle n (bit i is pin i), where the input list says nothing (R100). Safe: log
entry 8. -/
opaque Config.freeEnv : Nat → Vector (BitVec 16) 8

/-- FREE VALUE. What CYCCNT holds after a RESET in cycle n (R32, R43, R161). Safe: log entry 4. -/
opaque Config.freeCyccnt : Nat → Word

/-- FREE VALUE. What a host read in cycle n returns for the unwritten buffer byte at an offset (R43). Safe: log
entry 5. -/
opaque Config.freeBufByte : Nat → Nat → Byte

/-- FREE VALUE. What a host read in a RESET cycle n returns (R160). Safe: log entry 12. -/
opaque Config.freeResetRead : Nat → Word

/-- FREE VALUE. The check routine of which only purity is known (R11). Safe: log entry 13. -/
opaque Config.externalCheck : List Byte → Byte

end Sys2Proof
end

