-- ==== Sys2Proof/Machine/State.lean ====
section
/-! DEFINITION. The state of SWU (10_state.md R42 and the hidden state of R30), its inputs (R21), the reasons a step
stops, and the reset state (70_reset_and_hazards.md R161). -/

namespace Sys2Proof.Machine

/-- The result codes of STATUS.ERR (R143). Codes 6-15 are never produced: no constructor. -/
inductive ErrCode where
  | ok
  | illegalCmd
  | notInit
  | badOperand
  | unsupportedAxis
  | rxTimeout
  deriving DecidableEq, Repr

/-- SUB, the current sub-operation (R30). A sub-operation that captures T0 in its entry cycle has one value for that
cycle and one for the cycles after it (R84). -/
inductive SubOp where
  /-- No command: BUSY = 0 (R25, R42). -/
  | idle
  /-- The command's entry cycle (R83): a one-cycle command, the entry of WAIT, SENDB or RECVB, or SETUP (R130). -/
  | entry
  /-- WAIT after its entry cycle (R90). -/
  | waiting
  /-- The entry cycle of a SEND inside a transaction (R131). -/
  | sendStart
  /-- SEND after its entry cycle (R106). -/
  | sending
  /-- RECV polling for the start bit (R112). -/
  | poll
  /-- RECV after detection (R117, DATA). -/
  | data
  /-- TURN (R133). -/
  | turn
  /-- RESTORE (R136). -/
  | restore
  /-- The entry cycle of GUARD_HOLD (R132). -/
  | guardStart
  /-- GUARD_HOLD after its entry cycle (R132). -/
  | guarding
  deriving DecidableEq, Repr

/-- The stored registers of one GPIO port (R36, R37). IDR holds no state (R38). -/
structure Port where
  cfgl : Word
  cfgh : Word
  odr : BitVec 16
  deriving DecidableEq, Repr

/-- One host access on the bus: the bus address, the width in bytes and, for a write, the value (R45, R47). -/
inductive HostAccess where
  | read (addr width : Nat)
  | write (addr width : Nat) (value : Word)
  deriving DecidableEq, Repr

/-- What comes from outside in one cycle: RESET (R160), at most one host access (R21) and ENV of every port (R100). -/
structure CycleInput where
  reset : Bool
  access : Option HostAccess
  env : Vector (BitVec 16) 8
  deriving DecidableEq, Repr

/-- The state `S_n`. -/
structure State where
  /-- The configuration; nothing changes it (R44). -/
  cfg : Config
  /-- CMD, and ECMD, which is equal to it (R30, R35). -/
  cmd : Word
  /-- ARG (R23). -/
  arg : Word
  /-- RESULT (R24). -/
  result : Word
  /-- STATUS.OVR (R28). -/
  ovr : Bool
  /-- STATUS.ERR (R27). -/
  err : ErrCode
  /-- CYCCNT (R32). -/
  cyccnt : Word
  /-- CYC_EN (R33). -/
  cycEn : Bool
  /-- IRQ_SUPPRESS (R39). -/
  irqSuppress : Bool
  /-- TXBUF and RXBUF: TX[k] is the cell at offset 0x020 + k, RX[k] at 0x028 + k (R31, R53). A cell not listed is an
  unwritten byte (R43). -/
  mem : List Host.Cell
  /-- The GPIO ports; those at N_PORTS and above do not exist (R36, R46). -/
  ports : Vector Port 8
  /-- SUB (R30). BUSY is `sub ≠ idle`. -/
  sub : SubOp
  /-- T0 (R30). -/
  t0 : Word
  /-- The byte of the character being sent, read in SEND's entry cycle (R56, R106). -/
  txb : Byte
  /-- K (R30). -/
  k : Nat
  /-- J (R30). -/
  j : Nat
  /-- SH (R30). -/
  sh : Byte
  /-- TOUT (R30). -/
  tout : Bool
  /-- What the host's read of the previous cycle returned, none if that cycle had no read (R50). -/
  rdata : Option Word
  /-- The inputs of this cycle and of the coming ones, this cycle's first. Beyond the list: no RESET, no access, ENV
  free. -/
  inputs : List CycleInput
  /-- n, the number of the cycle (R18). -/
  cycle : Nat
  deriving DecidableEq, Repr

/-- Why the machine stops. SWU itself has no trap (R146): each is a stop the spec asks of a model. -/
inductive Fault where
  /-- Raised by a host access that is not 4 bytes wide (R47: "A model treats it as a fault"). Safe. -/
  | busWidth
  /-- Raised by a host access at an offset that is no multiple of 4 (R47). Safe. -/
  | busUnaligned
  /-- Raised by a host access to an unmapped offset (R48). Safe. -/
  | busUnmapped
  /-- Raised by FIX over an unwritten TX byte (R126) and by SEND of one inside a transaction (R43). Safe. -/
  | unwrittenTx
  deriving DecidableEq, Repr

/-- Why an instruction has no meaning. -/
inductive Refusal where
  /-- Raised by exec's arm of an instruction without a meaning; no arm is left with it. Safe. -/
  | notModelled (mnemonic : String)
  deriving DecidableEq, Repr

/-- BUSY (R25): a command is running. -/
def State.busy (s : State) : Bool := s.sub != .idle

/-- A port right after reset: every pin IN_FLOAT, every ODR bit 0 (R36, R37, R42). -/
def Port.reset : Port := ⟨0x44444444, 0x44444444, 0x0000⟩

/-- The machine right after reset (R42, R161). The configuration, CYCCNT, the engine's hidden registers and the
model's own fields have no reset value in the spec: log entries 1, 3, 19 and 20. -/
def State.reset : State where
  cfg := Config.testT
  cmd := 0x00000000
  arg := 0x00000000
  result := 0x00000000
  ovr := false
  err := .ok
  cyccnt := 0x00001234
  cycEn := false
  irqSuppress := false
  mem := []
  ports := Vector.replicate 8 Port.reset
  sub := .idle
  t0 := 0
  txb := 0
  k := 0
  j := 0
  sh := 0
  tout := false
  rdata := none
  inputs := []
  cycle := 0

end Sys2Proof.Machine
end

