-- ==== Sys2Proof/Machine/Ops.lean ====
section
/-! DEFINITION. The named operations over the state: bit fields, the buffer memory, the timer compare, the pins, the
raising of an error and the retirement of a command, the sub-operations of 42-45, and what surrounds the engine in a
cycle (acceptance, reset, the end of the cycle). -/

namespace Sys2Proof.Machine

/-! ## Bits and fields -/

/-- `x` with bit `i` set to `b`. -/
def putBit {w : Nat} (x : BitVec w) (i : Nat) (b : Bool) : BitVec w :=
  if b then x ||| (1#w <<< i) else x &&& ~~~(1#w <<< i)

/-- The 4-bit field `i` of a CFG register, bits [4i+3 : 4i] (R36). -/
def getField (x : Word) (i : Nat) : BitVec 4 := x.extractLsb' (4 * i) 4

/-- `x` with its 4-bit field `i` set to `m` (R36). -/
def putField (x : Word) (i : Nat) (m : BitVec 4) : Word :=
  (x &&& ~~~(0xF#32 <<< (4 * i))) ||| (m.setWidth 32 <<< (4 * i))

/-- Write-any-read-legal: each of the eight fields of `new` that holds a legal mode replaces that field of `old`,
every other field keeps its value (R95). -/
def warl (old new : Word) : Word :=
  (List.range 8).foldl
    (fun acc i => if legalMode (getField new i) then putField acc i (getField new i) else acc) old

/-! ## The buffer memory -/

/-- The offset of TX[0] in the window (R53). -/
def txBase : Nat := 0x020

/-- The offset of RX[0] in the window (R53). -/
def rxBase : Nat := 0x028

/-- The byte at an offset; none is an unwritten byte (R43). -/
def Memory.read : List Host.Cell → Nat → Option Byte
  | [], _ => none
  | (x, v) :: rest, a => if x = a then some v else Memory.read rest a

/-- The memory with the byte at an offset written, offsets kept rising. -/
def Memory.write : List Host.Cell → Nat → Byte → List Host.Cell
  | [], a, b => [(a, b)]
  | (x, v) :: rest, a, b =>
    if a < x then (a, b) :: (x, v) :: rest
    else if a = x then (a, b) :: rest
    else (x, v) :: Memory.write rest a b

/-- Every offset of the list is above `lo` and the offsets strictly rise. -/
def Memory.risingFrom : Nat → List Host.Cell → Bool
  | _, [] => true
  | lo, (x, _) :: rest => decide (lo ≤ x) && Memory.risingFrom (x + 1) rest

/-- The canonical form: offsets strictly rising, each that of a buffer byte (0x020..0x02F, R46). An unlisted offset
has no value, so no entry repeats what an unlisted one reads as. -/
def Memory.wf (m : List Host.Cell) : Bool :=
  Memory.risingFrom txBase m && m.all (fun c => decide (c.1 < rxBase + 8))

/-- The state with one buffer byte written. -/
def State.setMem (s : State) (a : Nat) (b : Byte) : State := { s with mem := Memory.write s.mem a b }

/-- TX[k], none while it is unwritten (R31, R43). -/
def txByte (s : State) (k : Nat) : Option Byte := Memory.read s.mem (txBase + k)

/-- RX[k], none while it is unwritten (R31, R43). -/
def rxByte (s : State) (k : Nat) : Option Byte := Memory.read s.mem (rxBase + k)

/-- TX[k] <- b (R31). -/
def setTx (s : State) (k : Nat) (b : Byte) : State := s.setMem (txBase + k) b

/-- RX[k] <- b (R31). -/
def setRx (s : State) (k : Nat) (b : Byte) : State := s.setMem (rxBase + k) b

/-! ## The parameters as the engine uses them -/

/-- BP (R7). -/
def bp (s : State) : Nat := s.cfg.params.bp

/-- HALF (R8). -/
def half (s : State) : Nat := s.cfg.params.half

/-- GUARD (R14). -/
def guardCycles (s : State) : Nat := s.cfg.params.guard

/-- N_PORTS (R16). -/
def nPorts (s : State) : Nat := s.cfg.params.nPorts

/-- AXIS_MAP(axis) (R15, R127). -/
def axisPin (s : State) (axis : BitVec 4) : Option PinRef :=
  s.cfg.params.axisMap[axis.toNat]'(show axis.toNat < 16 from axis.isLt)

/-- One bit of CRC8_TMC: the bit of `c` under test against bit 7 of `crc` (R120). -/
def crc8Bit (crc : Byte) (bit : Bool) : Byte :=
  if crc.getLsbD 7 ^^ bit then (crc <<< 1) ^^^ 0x07 else crc <<< 1

/-- CRC8_TMC over one byte, LSB first (R120). -/
def crc8Byte (crc c : Byte) : Byte :=
  (List.range 8).foldl (fun acc j => crc8Bit acc (c.getLsbD j)) crc

/-- CRC8_TMC (R120). -/
def crc8Tmc (bytes : List Byte) : Byte := bytes.foldl crc8Byte 0x00

/-- CHECK (R11). -/
def checkByte (s : State) (bytes : List Byte) : Byte :=
  match s.cfg.params.check with
  | .crc8Tmc => crc8Tmc bytes
  | .external => Config.externalCheck bytes

/-! ## The inputs of the cycle -/

/-- What comes from outside in this cycle: the head of the input list, and beyond the list no RESET, no access and a
free ENV (R21, R100). -/
def currentInput (s : State) : CycleInput :=
  match s.inputs with
  | [] => { reset := false, access := none, env := Config.freeEnv s.cycle }
  | x :: _ => x

/-! ## The timer -/

/-- The deadline test, `sint32(now -32 t) >= 0` (R81). -/
def reached (now t : Word) : Bool := decide (0 ≤ (now - t).toInt)

/-- `elapsed(t0) = CYCCNT -32 t0` (R82). -/
def elapsed (s : State) (t0 : Word) : Word := s.cyccnt - t0

/-- The cycles since T0 was captured: an action at deadline `T0 +32 k` happens when this is `k` (R84). -/
def sinceT0 (s : State) : Nat := (elapsed s s.t0).toNat

/-- This is the last cycle of a sub-operation that ends at deadline `T0 +32 d`: the deadline is reached in the next
cycle (R84, R85). -/
def endsAt (s : State) (d : Word) : Bool := reached (s.cyccnt + 1) (s.t0 + d)

/-! ## The pins -/

/-- The registers of port `p`. -/
def State.port (s : State) (p : BitVec 3) : Port := s.ports[p.toNat]'(show p.toNat < 8 from p.isLt)

/-- The state with the registers of port `p` replaced. -/
def State.setPort (s : State) (p : BitVec 3) (x : Port) : State :=
  { s with ports := s.ports.set p.toNat x (show p.toNat < 8 from p.isLt) }

/-- ENV_n of port `p` (R100). -/
def envPort (s : State) (p : BitVec 3) : BitVec 16 :=
  (currentInput s).env[p.toNat]'(show p.toNat < 8 from p.isLt)

/-- The mode field of pin `i` in a port: CFGL for pins 0..7, CFGH for pins 8..15 (R36, R93). -/
def Port.mode (x : Port) (i : Nat) : BitVec 4 :=
  if i < 8 then getField x.cfgl i else getField x.cfgh (i - 8)

/-- The port with the mode field of pin `i` set (R36). -/
def Port.setMode (x : Port) (i : Nat) (m : BitVec 4) : Port :=
  if i < 8 then { x with cfgl := putField x.cfgl i m } else { x with cfgh := putField x.cfgh (i - 8) m }

/-- The port with one ODR bit set (R19 `drive`). -/
def Port.drive (x : Port) (i : Nat) (b : Bool) : Port := { x with odr := putBit x.odr i b }

/-- The level of pin `i` of a port whose floating pins are at `env` (R100). A field that holds neither code (no run
reaches one, R95) floats. -/
def Port.level (x : Port) (env : BitVec 16) (i : Nat) : Bool :=
  if x.mode i = modeOutPp then x.odr.getLsbD i else env.getLsbD i

/-- mode(p, i) (R93). -/
def pinMode (s : State) (r : PinRef) : BitVec 4 := (s.port r.port).mode r.pin.toNat

/-- line_n(p, i) (R100). -/
def line (s : State) (r : PinRef) : Bool := (s.port r.port).level (envPort s r.port) r.pin.toNat

/-- ODR[p][i]. -/
def odrBit (s : State) (r : PinRef) : Bool := (s.port r.port).odr.getLsbD r.pin.toNat

/-- `drive(p, i, b)`: ODR[p][i] <- b (R19). -/
def drive (s : State) (r : PinRef) (b : Bool) : State :=
  s.setPort r.port ((s.port r.port).drive r.pin.toNat b)

/-- mode(p, i) <- m (R96). -/
def setMode (s : State) (r : PinRef) (m : BitVec 4) : State :=
  s.setPort r.port ((s.port r.port).setMode r.pin.toNat m)

/-- To output, idle-high: ODR[p][i] <- 1 and mode(p, i) <- OUT_PP at one cycle boundary (R96, R99, R130, R136). -/
def makeOutHigh (s : State) (r : PinRef) : State := setMode (drive s r true) r modeOutPp

/-- To floating input: only the mode changes (R96, R99, R133). -/
def makeInFloat (s : State) (r : PinRef) : State := setMode s r modeInFloat

/-! ## Raising an error and retiring -/

/-- The command's last cycle: ERR takes its result code and the engine is idle from the next cycle (R25, R27, R29). -/
def retire (e : ErrCode) (s : State) : State := { s with sub := .idle, err := e }

/-- `raise e`: the command ends in this cycle with the effects already in `s` and no other (R19, R146). SWU has no
trap: nothing is saved and nothing is vectored. -/
def raise (e : ErrCode) (s : State) : Host.Outcome State Fault Refusal := .next (retire e s)

/-! ## SEND (42_uart_tx.md) -/

/-- frame(b)[m]: the start bit 0, the eight data bits LSB first, the stop bit 1 (R105). -/
def frameBit (b : Byte) (m : Nat) : Bool :=
  if m = 0 then false else if m ≤ 8 then b.getLsbD (m - 1) else true

/-- SEND's entry cycle: T0 is captured, the byte is read, the start bit is written (R106). -/
def sendEnter (s : State) (r : PinRef) (b : Byte) : State :=
  drive { s with t0 := s.cyccnt, txb := b, sub := .sending } r false

/-- A later cycle of SEND: at deadline `T0 +32 m*BP` bit `m` of the frame is written (R106). -/
def sendEdge (s : State) (r : PinRef) : State :=
  if sinceT0 s % bp s = 0 then drive s r (frameBit s.txb (sinceT0 s / bp s)) else s

/-- SEND's last cycle: it ends at deadline `T0 +32 10*BP` (R106). -/
def sendEnds (s : State) : Bool := endsAt s (BitVec.ofNat 32 (10 * bp s))

/-! ## RECV (43_uart_rx.md) -/

/-- What a RECV delivers in a cycle: nothing yet, or its outcome (R117). -/
inductive RecvOutcome where
  | running
  | byte (b : Byte)
  | timeout
  deriving DecidableEq, Repr

/-- A poll: the level 0 is the start bit and captures T0 (R111, R113); the last of RX_TIMEOUT polls that reads 1 is
the timeout (R112). -/
def recvPoll (s : State) (r : PinRef) : State × RecvOutcome :=
  if line s r = false then ({ s with t0 := s.cyccnt, sub := .data }, .running)
  else if s.j + 1 < s.cfg.params.rxTimeout then ({ s with j := s.j + 1 }, .running)
  else (s, .timeout)

/-- At deadline `T0 +32 (BP + HALF + q*BP)`, q = 0..7, the line is sampled into SH[q] (R114). -/
def recvSample (s : State) (r : PinRef) : State :=
  if bp s + half s ≤ sinceT0 s ∧ (sinceT0 s - (bp s + half s)) % bp s = 0
      ∧ (sinceT0 s - (bp s + half s)) / bp s < 8 then
    { s with sh := putBit s.sh ((sinceT0 s - (bp s + half s)) / bp s) (line s r) }
  else s

/-- RECV's last cycle after a detection: it ends at deadline `T0 +32 (9*BP + 2*HALF)` (R115). -/
def recvEnds (s : State) : Bool := endsAt s (BitVec.ofNat 32 (9 * bp s + 2 * half s))

/-- A cycle after detection: the sample due in it, and in the last cycle the byte, that cycle's sample included
(R116). -/
def recvData (s : State) (r : PinRef) : State × RecvOutcome :=
  if recvEnds s then (recvSample s r, .byte (recvSample s r).sh) else (recvSample s r, .running)

/-- RECV's entry: J <- 0, the next cycle polls (R112). -/
def recvEnter (s : State) : State := { s with j := 0, sub := .poll }

/-- One cycle of RECV (R117). -/
def recvCycle (s : State) (r : PinRef) : State × RecvOutcome :=
  match s.sub with
  | .data => recvData s r
  | _ => recvPoll s r

/-! ## FIX (44_framer.md) -/

/-- t[k] of R121: TX[k], with SLAVE_ADDR in its place at SLAVE_IDX. None where TX[k] is unwritten, the slave byte
included (R126). -/
def fixedByte (s : State) (k : Nat) : Option Byte :=
  (txByte s k).map fun b => if k = s.cfg.params.slaveIdx then s.cfg.params.slaveAddr else b

/-- t[0..n-1] of R121, none where a byte of it is unwritten. -/
def fixedBytes (s : State) (n : Nat) : Option (List Byte) := (List.range n).mapM (fixedByte s)

/-- FIX(L): TX[SLAVE_IDX] <- SLAVE_ADDR and TX[L-1] <- CHECK(t[0..L-2]) (R121-R123). None if a byte of
TX[0..L-2] is unwritten, where the spec has a model fault (R126). -/
def fix (s : State) (len : Nat) : Option State :=
  match fixedBytes s (len - 1) with
  | none => none
  | some t => some (setTx (setTx s s.cfg.params.slaveIdx s.cfg.params.slaveAddr) (len - 1) (checkByte s t))

/-! ## The sub-operations of a transaction (45_transaction.md) -/

/-- SETUP(L): FIX(L), IRQ_SUPPRESS <- 1, the pin to output idle-high (R130). The first SEND enters next, K = 0. -/
def txnSetup (s : State) (len : Nat) (r : PinRef) : Host.Outcome State Fault Refusal :=
  match fix s len with
  | none => .fault .unwrittenTx
  | some t => .next { makeOutHigh t r with irqSuppress := true, k := 0, sub := .sendStart }

/-- The entry cycle of `SEND(p, i, TX[K])`, which reads TX[K] (R131). An unwritten byte faults (R43). -/
def txnSendStart (s : State) (r : PinRef) : Host.Outcome State Fault Refusal :=
  match txByte s s.k with
  | none => .fault .unwrittenTx
  | some b => .next (sendEnter s r b)

/-- A later cycle of a transaction's SEND; in its last one K goes up and the next SEND, or `after` behind the last of
`len` bytes, enters next (R131). -/
def txnSend (s : State) (r : PinRef) (len : Nat) (after : SubOp) : State :=
  if sendEnds s then
    { sendEdge s r with k := s.k + 1, sub := if s.k + 1 < len then .sendStart else after }
  else sendEdge s r

/-- TURN: the pin floats from the next cycle, in which RECV 0 enters (R133, R134). -/
def txnTurn (s : State) (r : PinRef) : State := { recvEnter (makeInFloat s r) with k := 0 }

/-- The designated reply field set to all-ones (R12, R135). -/
def failField (s : State) : State :=
  (List.range s.cfg.params.failLen).foldl (fun t f => setRx t (s.cfg.params.failOff + f) 0xFF) s

/-- What a RECV of reply byte K delivers: a byte is stored and the next RECV enters, or RESTORE behind the last
(R134); a timeout sets the failure field and TOUT and goes to RESTORE (R135). -/
def txnDeliver : State × RecvOutcome → State
  | (s, .running) => s
  | (s, .byte b) =>
    if s.k + 1 < s.cfg.params.replyLen then { recvEnter (setRx s s.k b) with k := s.k + 1 }
    else { setRx s s.k b with k := s.k + 1, sub := .restore }
  | (s, .timeout) => { failField s with tout := true, sub := .restore }

/-- RESTORE: the pin to output idle-high; GUARD_HOLD enters next (R136). -/
def txnRestore (s : State) (r : PinRef) : State := { makeOutHigh s r with sub := .guardStart }

/-- GUARD_HOLD's last cycle: it ends at deadline `T0 +32 GUARD` (R132). -/
def guardEnds (s : State) : Bool := endsAt s (BitVec.ofNat 32 (guardCycles s))

/-- A cycle of GUARD_HOLD: no pin action; in its last cycle IRQ_SUPPRESS <- 0 and the transaction retires with its
result code (R132). -/
def txnGuard (s : State) (e : ErrCode) : State :=
  if guardEnds s then retire e { s with irqSuppress := false } else s

/-- GUARD_HOLD's entry cycle captures T0 (R84, R132). -/
def txnGuardStart (s : State) (e : ErrCode) : State :=
  txnGuard { s with t0 := s.cyccnt, sub := .guarding } e

/-! ## What surrounds the engine in a cycle -/

/-- Acceptance of a command word: CMD = w, BUSY = 1, ERR = 0 from the next cycle, the entry cycle (R27, R83). -/
def accept (s : State) (w : Word) : State := { s with cmd := w, sub := .entry, err := .ok }

/-- A cycle with RESET = 1: the next state is the reset state; the host access and the engine's actions of the cycle
are discarded, a read gets no defined value, the counter does not advance (R160-R162). -/
def resetCycle (s : State) : State :=
  { State.reset with
    cfg := s.cfg
    cyccnt := Config.freeCyccnt s.cycle
    rdata := match (currentInput s).access with
      | some (.read _ _) => some (Config.freeResetRead s.cycle)
      | _ => none
    inputs := s.inputs.tail
    cycle := s.cycle + 1 }

/-- INIT is the one command whose cycle writes CYCCNT itself (R80). -/
def performsInit : Instr → Bool
  | .init => true
  | .nop | .now | .elapsed | .wait | .setmode _ _ _ | .setlvl _ _ _ | .getlvl _ _ | .sendb _ _ | .recvb _ _
  | .framew | .framer | .wrtxn _ | .rdtxn _ => false

/-- The counter's update (R80): INIT's own write stands; otherwise CYCCNT goes up by 1 if CYC_EN is 1. -/
def countCycle (initRuns : Bool) (s : State) : State :=
  if initRuns then s else if s.cycEn then { s with cyccnt := s.cyccnt + 1 } else s

/-- The end of a cycle: the counter advances (R21 item 4), and the next cycle's input is the current one. -/
def endCycle (initRuns : Bool) (s : State) : State :=
  { countCycle initRuns s with inputs := s.inputs.tail, cycle := s.cycle + 1 }

/-- The acceptance of a command word stands, and the coming cycle has neither RESET nor a host access: the state in
whose cycle the command enters. -/
def placeCommand (s : State) (w : Word) : State :=
  { accept s w with
    inputs := { currentInput s with reset := false, access := none } :: s.inputs.tail }

end Sys2Proof.Machine
end

