-- ==== Sys2Proof/Machine/Operands.lean ====
section
/-! DEFINITION. The operands: the ARG operands of ELAPSED, WAIT and SENDB (R72, R77), the pin operand of class P, and
the register map by which the host names a register (20_memory.md R45-R48). -/

namespace Sys2Proof.Machine

/-- ELAPSED's t0: all of ARG, unsigned (R77). -/
def argT0 (s : State) : Word := s.arg

/-- WAIT's cycle count: all of ARG, unsigned (R77). -/
def argCycles (s : State) : Word := s.arg

/-- SENDB's byte: ARG[7:0]; ARG[31:8] is ignored (R72, R77). -/
def argByte (s : State) : Byte := s.arg.extractLsb' 0 8

/-- The pin that PORT and PIN name (R67). -/
def pinOf (port : BitVec 3) (pin : BitVec 4) : PinRef := ⟨port, pin⟩

/-- PinMask of the source, `1 << pin` (R15). -/
def pinMask (r : PinRef) : BitVec 16 := 1#16 <<< r.pin.toNat

/-- The registers of the window (R46). -/
inductive Reg where
  | cmd
  | arg
  | result
  | status
  | cyccnt
  | bitper
  /-- TXBUF0 and TXBUF1, by word number. -/
  | txbuf (w : Nat)
  /-- RXBUF0 and RXBUF1, by word number. -/
  | rxbuf (w : Nat)
  | cfgl (p : BitVec 3)
  | cfgh (p : BitVec 3)
  | odr (p : BitVec 3)
  | idr (p : BitVec 3)
  deriving DecidableEq, Repr

/-- The port registers: block p at 0x100 + 0x10*p, for p < N_PORTS (R46). -/
def portReg (n : Nat) (off : Nat) : Option Reg :=
  if 0x100 ≤ off ∧ off < 0x100 + 0x10 * n then
    if off % 0x10 = 0x0 then some (.cfgl (BitVec.ofNat 3 ((off - 0x100) / 0x10)))
    else if off % 0x10 = 0x4 then some (.cfgh (BitVec.ofNat 3 ((off - 0x100) / 0x10)))
    else if off % 0x10 = 0x8 then some (.odr (BitVec.ofNat 3 ((off - 0x100) / 0x10)))
    else if off % 0x10 = 0xC then some (.idr (BitVec.ofNat 3 ((off - 0x100) / 0x10)))
    else none
  else none

/-- The register at a window offset, none where the offset is unmapped (R46). -/
def regAt (n : Nat) (off : Nat) : Option Reg :=
  if off = 0x000 then some .cmd
  else if off = 0x004 then some .arg
  else if off = 0x008 then some .result
  else if off = 0x00C then some .status
  else if off = 0x010 then some .cyccnt
  else if off = 0x014 then some .bitper
  else if off = 0x020 then some (.txbuf 0)
  else if off = 0x024 then some (.txbuf 1)
  else if off = 0x028 then some (.rxbuf 0)
  else if off = 0x02C then some (.rxbuf 1)
  else portReg n off

/-- What a bus access reaches. -/
inductive Target where
  /-- The address is outside SWU's window: SWU is not selected (R45). -/
  | notSelected
  /-- The access gets an error response (R47, R48). -/
  | error (f : Fault)
  | reg (r : Reg)
  deriving DecidableEq, Repr

/-- `off = addr - BASE` where the address lies in the 4 KiB window (R45). -/
def windowOffset (c : Config) (addr : Nat) : Option Nat :=
  if c.params.base ≤ addr ∧ addr < c.params.base + 0x1000 then some (addr - c.params.base) else none

/-- The target of an access of `width` bytes at a bus address: width, then alignment (R47), then the map (R48). -/
def target (c : Config) (addr width : Nat) : Target :=
  match windowOffset c addr with
  | none => .notSelected
  | some off =>
    if width ≠ 4 then .error .busWidth
    else if off % 4 ≠ 0 then .error .busUnaligned
    else match regAt c.params.nPorts off with
      | none => .error .busUnmapped
      | some r => .reg r

end Sys2Proof.Machine
end

