-- ==== Sys2Proof/Machine/Flags.lean ====
section
/-! DEFINITION. The flags: the ERR codes and the checks that produce them (60_exceptions.md R142-R145), PHASE (R40),
the STATUS word (R26), and the interrupt-suppress output (R147). -/

namespace Sys2Proof.Machine

/-- The 4-bit code of STATUS.ERR (R143). -/
def ErrCode.code : ErrCode → BitVec 4
  | .ok => 0
  | .illegalCmd => 1
  | .notInit => 2
  | .badOperand => 3
  | .unsupportedAxis => 4
  | .rxTimeout => 5

/-- The timed commands (R85). -/
def isTimed : Instr → Bool
  | .now | .elapsed | .wait | .sendb _ _ | .recvb _ _ | .wrtxn _ | .rdtxn _ => true
  | .nop | .init | .setmode _ _ _ | .setlvl _ _ _ | .getlvl _ _ | .framew | .framer => false

/-- ILLEGAL_CMD: a value check fails (R73 step 2, R74.3). -/
def formError (i : Instr) (s : State) : ErrCode :=
  if i.wellFormed (nPorts s) then .ok else .illegalCmd

/-- The axis a transaction names (R68). -/
def axisOf : Instr → Option (BitVec 4)
  | .wrtxn axis => some axis
  | .rdtxn axis => some axis
  | .nop | .init | .now | .elapsed | .wait | .setmode _ _ _ | .setlvl _ _ _ | .getlvl _ _ | .sendb _ _
  | .recvb _ _ | .framew | .framer => none

/-- UNSUPPORTED_AXIS: a transaction names an axis AXIS_MAP has no entry for (R128). -/
def axisError (i : Instr) (s : State) : ErrCode :=
  match axisOf i with
  | none => .ok
  | some axis => if (axisPin s axis).isSome then .ok else .unsupportedAxis

/-- NOT_INIT: a timed command finds CYC_EN = 0 (R85). -/
def initError (i : Instr) (s : State) : ErrCode :=
  if isTimed i && !s.cycEn then .notInit else .ok

/-- BAD_OPERAND: WAIT with ARG >= 2^31 (R90). -/
def operandError (i : Instr) (s : State) : ErrCode :=
  if i = .wait ∧ 2 ^ 31 ≤ (argCycles s).toNat then .badOperand else .ok

/-- The first error of a list, OK if it holds none. -/
def firstError : List ErrCode → ErrCode
  | [] => .ok
  | e :: rest => if e = .ok then firstError rest else e

/-- The error checked in a command's entry cycle, the first that applies in R145's order; OK if none does. -/
def entryError (i : Instr) (s : State) : ErrCode :=
  firstError [formError i s, axisError i s, initError i s, operandError i s]

/-- A command's entry cycle: an entry error ends the command with no other effect (R145, R146), else `body`. -/
def entering (i : Instr) (s : State) (body : Host.Outcome State Fault Refusal) : Host.Outcome State Fault Refusal :=
  if entryError i s = .ok then body else raise (entryError i s) s

/-- The phases of STATUS.PHASE (R40). Codes 9-15 are never read: no constructor. -/
inductive Phase where
  | idle
  | exec
  | wait
  | setup
  | tx
  | turn
  | rx
  | restore
  | guard
  deriving DecidableEq, Repr

/-- The 4-bit code of a phase (R40). -/
def Phase.code : Phase → BitVec 4
  | .idle => 0
  | .exec => 1
  | .wait => 2
  | .setup => 3
  | .tx => 4
  | .turn => 5
  | .rx => 6
  | .restore => 7
  | .guard => 8

/-- The phase of the entry cycle of a command that passes its entry checks (R86-R90, R96-R98, R106, R117, R124, R125,
R130). -/
def entryPhase : Instr → Phase
  | .wait => .wait
  | .sendb _ _ => .tx
  | .recvb _ _ => .rx
  | .wrtxn _ => .setup
  | .rdtxn _ => .setup
  | .nop | .init | .now | .elapsed | .setmode _ _ _ | .setlvl _ _ _ | .getlvl _ _ | .framew | .framer => .exec

/-- What occupies cycle n, from S_n (R40). An illegal or aborted command's one cycle is EXEC. -/
def phase (s : State) : Phase :=
  match s.sub with
  | .idle => .idle
  | .entry =>
    match decode s.cmd with
    | .error _ => .exec
    | .ok i => if entryError i s = .ok then entryPhase i else .exec
  | .waiting => .wait
  | .sendStart => .tx
  | .sending => .tx
  | .poll => .rx
  | .data => .rx
  | .turn => .turn
  | .restore => .restore
  | .guardStart => .guard
  | .guarding => .guard

/-- One bit as a word. -/
def bitWord (b : Bool) : Word := if b then 1 else 0

/-- The STATUS register as a read returns it (R26): bits 31:12 are zero. -/
def statusWord (s : State) : Word :=
  bitWord s.busy
    ||| bitWord s.ovr <<< 1
    ||| bitWord s.cycEn <<< 2
    ||| bitWord s.irqSuppress <<< 3
    ||| s.err.code.setWidth 32 <<< 4
    ||| (phase s).code.setWidth 32 <<< 8

/-- The host's effective interrupt mask: its own mask OR IRQ_SUPPRESS (R147). The mask itself is the platform's. -/
def effectiveMask (own : Bool) (s : State) : Bool := own || s.irqSuppress

/-- Whether the host's non-maskable interrupts are held off, by the platform parameter NMI_MASKED (R159). -/
def nmiHeldOff (s : State) : Bool := s.irqSuppress && s.cfg.params.nmiMasked

end Sys2Proof.Machine
end

