-- ==== Sys2Proof/Machine/Framer.lean ====
section
/-! DEFINITION. FRAMEW and FRAMER (44_framer.md R124, R125). -/

namespace Sys2Proof.Machine

/-- A framing command: FIX(L) in its one cycle; over unwritten bytes a model faults (R126). -/
def frame (len : Nat) (s : State) : Host.Outcome State Fault Refusal :=
  match fix s len with
  | none => .fault .unwrittenTx
  | some t => .next (retire .ok t)

/-- FRAMEW: FIX(WRITE_LEN) (R124). -/
def execFramew (s : State) : Host.Outcome State Fault Refusal :=
  entering .framew s (frame s.cfg.params.writeLen s)

/-- FRAMER: FIX(REQ_LEN) (R125). -/
def execFramer (s : State) : Host.Outcome State Fault Refusal :=
  entering .framer s (frame s.cfg.params.reqLen s)

end Sys2Proof.Machine
end

