-- ==== Sys2Proof/Machine/Pin.lean ====
section
/-! DEFINITION. SETMODE, SETLVL and GETLVL (41_pin.md R96-R98). -/

namespace Sys2Proof.Machine

/-- SETMODE: OUT_PP writes ODR = 1 and the mode together, IN_FLOAT the mode alone (R96). A reserved MODE is an entry
error (R69). -/
def execSetmode (port : BitVec 3) (pin mode : BitVec 4) (s : State) : Host.Outcome State Fault Refusal :=
  entering (.setmode port pin mode) s
    (.next (retire .ok
      (if mode = modeOutPp then makeOutHigh s (pinOf port pin) else makeInFloat s (pinOf port pin))))

/-- SETLVL: ODR[PORT][PIN] <- LVL (R97). -/
def execSetlvl (port : BitVec 3) (pin : BitVec 4) (lvl : Bool) (s : State) : Host.Outcome State Fault Refusal :=
  entering (.setlvl port pin lvl) s (.next (retire .ok (drive s (pinOf port pin) lvl)))

/-- GETLVL: RESULT <- zext_32(line) (R98). -/
def execGetlvl (port : BitVec 3) (pin : BitVec 4) (s : State) : Host.Outcome State Fault Refusal :=
  entering (.getlvl port pin) s (.next (retire .ok { s with result := bitWord (line s (pinOf port pin)) }))

end Sys2Proof.Machine
end

