-- ==== Sys2Proof/Machine/Timer.lean ====
section
/-! DEFINITION. NOP, INIT, NOW, ELAPSED and WAIT (40_timer.md R86-R90). -/

namespace Sys2Proof.Machine

/-- NOP: retires in its one cycle (R86). -/
def execNop (s : State) : Host.Outcome State Fault Refusal := entering .nop s (.next (retire .ok s))

/-- INIT: CYCCNT <- 0, CYC_EN <- 1 (R87). -/
def execInit (s : State) : Host.Outcome State Fault Refusal :=
  entering .init s (.next (retire .ok { s with cyccnt := 0, cycEn := true }))

/-- NOW: RESULT <- CYCCNT (R88). -/
def execNow (s : State) : Host.Outcome State Fault Refusal :=
  entering .now s (.next (retire .ok { s with result := s.cyccnt }))

/-- ELAPSED: RESULT <- CYCCNT -32 ARG (R89). -/
def execElapsed (s : State) : Host.Outcome State Fault Refusal :=
  entering .elapsed s (.next (retire .ok { s with result := elapsed s (argT0 s) }))

/-- A cycle of WAIT: it ends at deadline `T0 +32 ARG`, and not before its first cycle (R90). -/
def waitCycle (s : State) : State := if endsAt s (argCycles s) then retire .ok s else s

/-- WAIT: T0 is captured in the entry cycle (R90). -/
def execWait (s : State) : Host.Outcome State Fault Refusal :=
  match s.sub with
  | .waiting => .next (waitCycle s)
  | _ => entering .wait s (.next (waitCycle { s with t0 := s.cyccnt, sub := .waiting }))

end Sys2Proof.Machine
end

