-- ==== Sys2Proof/Machine/Transaction.lean ====
section
/-! DEFINITION. WRTXN and RDTXN (45_transaction.md R127-R138), one cycle at a time: the sub-operation of the cycle is
`sub`. -/

namespace Sys2Proof.Machine

/-- The result code of a read transaction (R138). -/
def readCode (s : State) : ErrCode := if s.tout then .rxTimeout else .ok

/-- A cycle of a write transaction on a mapped pin (R137). -/
def wrtxnCycle (axis : BitVec 4) (r : PinRef) (s : State) : Host.Outcome State Fault Refusal :=
  match s.sub with
  | .sendStart => txnSendStart s r
  | .sending => .next (txnSend s r s.cfg.params.writeLen .guardStart)
  | .guardStart => .next (txnGuardStart s .ok)
  | .guarding => .next (txnGuard s .ok)
  | _ => entering (.wrtxn axis) s (txnSetup s s.cfg.params.writeLen r)

/-- WRTXN: the axis is resolved first; an unmapped one ends the command (R127, R128, R137). -/
def execWrtxn (axis : BitVec 4) (s : State) : Host.Outcome State Fault Refusal :=
  match axisPin s axis with
  | none => raise .unsupportedAxis s
  | some r => wrtxnCycle axis r s

/-- A cycle of a read transaction on a mapped pin (R138). -/
def rdtxnCycle (axis : BitVec 4) (r : PinRef) (s : State) : Host.Outcome State Fault Refusal :=
  match s.sub with
  | .sendStart => txnSendStart s r
  | .sending => .next (txnSend s r s.cfg.params.reqLen .turn)
  | .turn => .next (txnTurn s r)
  | .poll | .data => .next (txnDeliver (recvCycle s r))
  | .restore => .next (txnRestore s r)
  | .guardStart => .next (txnGuardStart s (readCode s))
  | .guarding => .next (txnGuard s (readCode s))
  | _ => entering (.rdtxn axis) s (txnSetup { s with tout := false } s.cfg.params.reqLen r)

/-- RDTXN: the axis is resolved first; an unmapped one ends the command (R127, R128, R138). -/
def execRdtxn (axis : BitVec 4) (s : State) : Host.Outcome State Fault Refusal :=
  match axisPin s axis with
  | none => raise .unsupportedAxis s
  | some r => rdtxnCycle axis r s

end Sys2Proof.Machine
end

