-- ==== Sys2Proof/Machine/Uart.lean ====
section
/-! DEFINITION. SENDB and RECVB (42_uart_tx.md R106, 43_uart_rx.md R117). -/

namespace Sys2Proof.Machine

/-- SENDB: `SEND(PORT, PIN, ARG[7:0])` from the entry cycle, then retire (R106). -/
def execSendb (port : BitVec 3) (pin : BitVec 4) (s : State) : Host.Outcome State Fault Refusal :=
  match s.sub with
  | .sending =>
    .next (if sendEnds s then retire .ok (sendEdge s (pinOf port pin)) else sendEdge s (pinOf port pin))
  | _ => entering (.sendb port pin) s (.next (sendEnter s (pinOf port pin) (argByte s)))

/-- What RECVB makes of a cycle of its RECV: a byte or the timeout goes to RESULT and the command retires (R117). -/
def recvbDeliver : State × RecvOutcome → State
  | (s, .running) => s
  | (s, .byte b) => retire .ok { s with result := b.setWidth 32 }
  | (s, .timeout) => retire .rxTimeout { s with result := 0xFFFFFFFF }

/-- RECVB: `RECV(PORT, PIN)` from the entry cycle, in which it polls for the first time (R117). -/
def execRecvb (port : BitVec 3) (pin : BitVec 4) (s : State) : Host.Outcome State Fault Refusal :=
  match s.sub with
  | .poll | .data => .next (recvbDeliver (recvCycle s (pinOf port pin)))
  | _ => entering (.recvb port pin) s (.next (recvbDeliver (recvCycle (recvEnter s) (pinOf port pin))))

end Sys2Proof.Machine
end

