-- ==== Sys2Proof/Machine/Dispatch.lean ====
section
/-! DEFINITION. The engine's actions in one cycle of the running command (R21 item 3), one arm per command. -/

namespace Sys2Proof.Machine

-- what the engine does in a cycle in which command i runs; the host access and the counter are step's
def exec (i : Instr) (s : State) : Host.Outcome State Fault Refusal :=
  match i with
  | .nop => Sys2Proof.Machine.execNop s
  | .init => Sys2Proof.Machine.execInit s
  | .now => Sys2Proof.Machine.execNow s
  | .elapsed => Sys2Proof.Machine.execElapsed s
  | .wait => Sys2Proof.Machine.execWait s
  | .setmode port pin mode => Sys2Proof.Machine.execSetmode port pin mode s
  | .setlvl port pin lvl => Sys2Proof.Machine.execSetlvl port pin lvl s
  | .getlvl port pin => Sys2Proof.Machine.execGetlvl port pin s
  | .sendb port pin => Sys2Proof.Machine.execSendb port pin s
  | .recvb port pin => Sys2Proof.Machine.execRecvb port pin s
  | .framew => Sys2Proof.Machine.execFramew s
  | .framer => Sys2Proof.Machine.execFramer s
  | .wrtxn axis => Sys2Proof.Machine.execWrtxn axis s
  | .rdtxn axis => Sys2Proof.Machine.execRdtxn axis s

end Sys2Proof.Machine
end

