-- ==== Sys2Proof/Machine/HostPort.lean ====
section
/-! DEFINITION. The host's side of the register window: reading and writing a register and serving the cycle's access
(20_memory.md R45-R64, 10_state.md R23-R39). -/

namespace Sys2Proof.Machine

/-- The buffer byte at an offset as a host read returns it: any value while it is unwritten (R43). -/
def hostByte (s : State) (a : Nat) : Byte := (Memory.read s.mem a).getD (Config.freeBufByte s.cycle a)

/-- Four buffer bytes from an offset, packed little-endian (R53). -/
def bufWord (s : State) (a : Nat) : Word :=
  (hostByte s a).setWidth 32
    ||| (hostByte s (a + 1)).setWidth 32 <<< 8
    ||| (hostByte s (a + 2)).setWidth 32 <<< 16
    ||| (hostByte s (a + 3)).setWidth 32 <<< 24

/-- The four bytes of a word stored from an offset, little-endian (R53). -/
def setBufWord (s : State) (a : Nat) (v : Word) : State :=
  (((s.setMem a (v.extractLsb' 0 8)).setMem (a + 1) (v.extractLsb' 8 8)).setMem (a + 2)
    (v.extractLsb' 16 8)).setMem (a + 3) (v.extractLsb' 24 8)

/-- IDR[p]: bit i is line_n(p, i), bits 31:16 are zero (R38). -/
def idrValue (s : State) (p : BitVec 3) : Word :=
  (List.range 16).foldl (fun acc i => putBit acc i ((s.port p).level (envPort s p) i)) 0

/-- What a host read of a register returns in this cycle (R50). -/
def readReg (s : State) : Reg → Word
  | .cmd => s.cmd
  | .arg => s.arg
  | .result => s.result
  | .status => statusWord s
  | .cyccnt => s.cyccnt
  | .bitper => BitVec.ofNat 32 (bp s)
  | .txbuf w => bufWord s (txBase + 4 * w)
  | .rxbuf w => bufWord s (rxBase + 4 * w)
  | .cfgl p => (s.port p).cfgl
  | .cfgh p => (s.port p).cfgh
  | .odr p => (s.port p).odr.setWidth 32
  | .idr p => idrValue s p

/-- A write to STATUS: OVR is cleared if bit 1 is 1, nothing else changes (R26). -/
def writeStatus (s : State) (v : Word) : State := { s with ovr := s.ovr && !v.getLsbD 1 }

/-- A host write to a register while the engine is idle (R49, R51). A write to a read-only register is ignored. -/
def writeReg (s : State) (v : Word) : Reg → State
  | .cmd => accept s v
  | .arg => { s with arg := v }
  | .result => s
  | .status => writeStatus s v
  | .cyccnt => s
  | .bitper => s
  | .txbuf w => setBufWord s (txBase + 4 * w) v
  | .rxbuf w => setBufWord s (rxBase + 4 * w) v
  | .cfgl p => s.setPort p { s.port p with cfgl := warl (s.port p).cfgl v }
  | .cfgh p => s.setPort p { s.port p with cfgh := warl (s.port p).cfgh v }
  | .odr p => s.setPort p { s.port p with odr := v.extractLsb' 0 16 }
  | .idr _ => s

/-- A host write in this cycle: while a command runs, a write to any register but STATUS is ignored and sets OVR
(R28, R52). -/
def hostWrite (s : State) (v : Word) (r : Reg) : State :=
  if r = .status then writeStatus s v
  else if s.busy then { s with ovr := true }
  else writeReg s v r

/-- Serving this cycle's host access, from S_n (R21 item 2, R47-R52). An error response is a fault of the model. -/
def serve (s : State) : Host.Outcome State Fault Refusal :=
  match (currentInput s).access with
  | none => .next { s with rdata := none }
  | some (.read addr width) =>
    match target s.cfg addr width with
    | .notSelected => .next { s with rdata := none }
    | .error f => .fault f
    | .reg r => .next { s with rdata := some (readReg s r) }
  | some (.write addr width v) =>
    match target s.cfg addr width with
    | .notSelected => .next { s with rdata := none }
    | .error f => .fault f
    | .reg r => .next { hostWrite s v r with rdata := none }

end Sys2Proof.Machine
end

