-- ==== Sys2Proof/Machine/Step.lean ====
section
/-! DEFINITION. One step is one clock cycle, in the order of R21: the inputs of the cycle are fixed, the host access is
served from S_n, the engine acts if S_n.BUSY = 1, the counter advances. -/

namespace Sys2Proof.Machine

/-- The engine's part of a cycle in which BUSY = 1, on the state `h` the host access left: the word in CMD is decoded
and run; an illegal word retires with ILLEGAL_CMD and changes nothing else (R74, R83). -/
def engineCycle (h : State) : Host.Outcome State Fault Refusal :=
  match decode h.cmd with
  | .error _ => .next (endCycle false (retire .illegalCmd h))
  | .ok i =>
    match exec i h with
    | .next t => .next (endCycle (performsInit i) t)
    | .fault f => .fault f
    | .refused r => .refused r

/-- One cycle (R21). RESET overrides everything in it (R160). -/
def step (s : State) : Host.Outcome State Fault Refusal :=
  if (currentInput s).reset then .next (resetCycle s)
  else
    match serve s with
    | .fault f => .fault f
    | .refused r => .refused r
    | .next h => if s.busy then engineCycle h else .next (endCycle false h)

/-- The state in which the command word `w` (its bits above `nbits` zero) has just been accepted (R83) and the coming
cycle has no RESET and no host access: the next step is its entry cycle. -/
def State.withFetchWord (s : State) (nbits w : Nat) : State :=
  placeCommand s (BitVec.ofNat 32 (w % 2 ^ nbits))

end Sys2Proof.Machine
end

