-- ==== Sys2Proof/Machine/Pseudo.lean ====
section
/-! DEFINITION. The host's notation of 30_encoding.md R78 and R79: the assembler text of a command and the host
accesses the pseudo-instructions expand to. It is the host's side; no step uses it. -/

namespace Sys2Proof.Machine

/-- `wr OFF, V` (R78). -/
def wr (c : Config) (off : Nat) (v : Word) : HostAccess := .write (c.params.base + off) 4 v

/-- `rd OFF` (R78). -/
def rd (c : Config) (off : Nat) : HostAccess := .read (c.params.base + off) 4

/-- `cmd X`: write enc(X) to CMD (R79). -/
def cmd (c : Config) (i : Instr) : HostAccess := wr c 0x000 (encode i)

/-- The access that `poll` repeats until bit 0 reads 0: `rd STATUS` (R78). -/
def pollRead (c : Config) : HostAccess := rd c 0x00C

/-- `sendb pP.I, #b` (R79). -/
def sendbImm (c : Config) (r : PinRef) (b : Byte) : List HostAccess :=
  [wr c 0x004 (b.setWidth 32), cmd c (.sendb r.port r.pin)]

/-- `wait #c` (R79). -/
def waitImm (c : Config) (n : Word) : List HostAccess := [wr c 0x004 n, cmd c .wait]

/-- `elapsed #t` (R79). -/
def elapsedImm (c : Config) (t : Word) : List HostAccess := [wr c 0x004 t, cmd c .elapsed]

/-- Four bytes of a list from an index, packed little-endian, missing bytes 0x00 (R79). -/
def packWord (bs : List Byte) (i : Nat) : Word :=
  (bs.getD i 0).setWidth 32 ||| (bs.getD (i + 1) 0).setWidth 32 <<< 8
    ||| (bs.getD (i + 2) 0).setWidth 32 <<< 16 ||| (bs.getD (i + 3) 0).setWidth 32 <<< 24

/-- `ldtx b0,...,b7` (R79). -/
def ldtx (c : Config) (bs : List Byte) : List HostAccess :=
  [wr c 0x020 (packWord bs 0), wr c 0x024 (packWord bs 4)]

/-- `ldrx b0,...,b7` (R79). -/
def ldrx (c : Config) (bs : List Byte) : List HostAccess :=
  [wr c 0x028 (packWord bs 0), wr c 0x02C (packWord bs 4)]

/-- `pP.I` (R67, R78). -/
def pinText (port : BitVec 3) (pin : BitVec 4) : String := "p" ++ toString port.toNat ++ "." ++ toString pin.toNat

/-- `AX`: x, y, z, or aN (R78). -/
def axisText (axis : BitVec 4) : String :=
  if axis = 0 then "x" else if axis = 1 then "y" else if axis = 2 then "z" else "a" ++ toString axis.toNat

/-- The assembler text of a command (R78); none for a reserved MODE, which has no spelling. -/
def asm : Instr → Option String
  | .nop => some "nop"
  | .init => some "init"
  | .now => some "now"
  | .elapsed => some "elapsed"
  | .wait => some "wait"
  | .setmode port pin mode =>
    if mode = modeOutPp then some ("setmode " ++ pinText port pin ++ ", out")
    else if mode = modeInFloat then some ("setmode " ++ pinText port pin ++ ", in")
    else none
  | .setlvl port pin lvl => some ("setlvl " ++ pinText port pin ++ (if lvl then ", 1" else ", 0"))
  | .getlvl port pin => some ("getlvl " ++ pinText port pin)
  | .sendb port pin => some ("sendb " ++ pinText port pin)
  | .recvb port pin => some ("recvb " ++ pinText port pin)
  | .framew => some "framew"
  | .framer => some "framer"
  | .wrtxn axis => some ("wrtxn " ++ axisText axis)
  | .rdtxn axis => some ("rdtxn " ++ axisText axis)

end Sys2Proof.Machine
end

