-- ==== Sys2Proof/Safety.lean ====
section
/-! DEFINITION. The terms claims are stated in: runs of several cycles and their inputs, frames (what a command leaves
as it was), and the invariants of the machine. -/

namespace Sys2Proof.Machine

/-! ## Runs -/

/-- `n` cycles from a state, stopping at the first fault or refusal. -/
def cycles : Nat → State → Host.Outcome State Fault Refusal
  | 0, s => .next s
  | n + 1, s =>
    match step s with
    | .next t => cycles n t
    | .fault f => .fault f
    | .refused r => .refused r

/-- This cycle has neither RESET nor a host access. -/
def QuietNow (s : State) : Prop := (currentInput s).reset = false ∧ (currentInput s).access = none

/-- The coming `n` cycles have neither RESET nor a host access. ENV is not constrained. -/
def QuietFor (n : Nat) (s : State) : Prop := ∀ x ∈ s.inputs.take n, x.reset = false ∧ x.access = none

/-- ENV on a pin `m` cycles after this one: from the input list, free beyond it (R100). -/
def envLater (s : State) (m : Nat) (r : PinRef) : Bool :=
  match s.inputs[m]? with
  | some x => (x.env[r.port.toNat]'(show r.port.toNat < 8 from r.port.isLt)).getLsbD r.pin.toNat
  | none => ((Config.freeEnv (s.cycle + m))[r.port.toNat]'(show r.port.toNat < 8 from r.port.isLt)).getLsbD r.pin.toNat

/-- How many cycles after the entry cycle `s` of a read transaction RECV k enters, where the start bit of reply byte k is
the poll `gap k` of its RECV (R134, R139). -/
def replyEntry (s : State) (gap : Nat → Nat) : Nat → Nat
  | 0 => 2 + 10 * bp s * s.cfg.params.reqLen
  | k + 1 => replyEntry s gap k + gap k + 9 * bp s + 2 * half s

/-- Reply byte k arrives at the floating pin `r` of the read transaction whose entry cycle is `s`: ENV is 1 at the first
`gap k` polls of its RECV, fewer than RX_TIMEOUT, and then carries the start bit and the eight data bits of `b` at BP
cycles each. The stop bit is not constrained (R118). -/
def ByteArrives (s : State) (r : PinRef) (gap : Nat → Nat) (k : Nat) (b : Byte) : Prop :=
  gap k < s.cfg.params.rxTimeout
    ∧ (∀ m, m < gap k → envLater s (replyEntry s gap k + m) r = true)
    ∧ ∀ m c, m < 9 → c < bp s → envLater s (replyEntry s gap k + gap k + m * bp s + c) r = frameBit b m

/-- The same state without the host access of the current cycle. -/
def withoutAccess (s : State) : State :=
  { s with inputs := { currentInput s with access := none } :: s.inputs.tail }

/-- In the current cycle the host writes `v` to register `r`, with a 4-byte access in the window (R45-R47). -/
def HostWrites (s : State) (r : Reg) (v : Word) : Prop :=
  (currentInput s).reset = false
    ∧ ∃ addr, (currentInput s).access = some (.write addr 4 v) ∧ target s.cfg addr 4 = .reg r

/-- In the current cycle the host reads register `r`, with a 4-byte access in the window (R45-R47). -/
def HostReads (s : State) (r : Reg) : Prop :=
  (currentInput s).reset = false
    ∧ ∃ addr, (currentInput s).access = some (.read addr 4) ∧ target s.cfg addr 4 = .reg r

/-! ## Frames -/

/-- What no command writes: the configuration, CMD, ARG, OVR, the host's read data, the inputs and the cycle number
(R23, R28, R35, R44). -/
def SameHostSide (s t : State) : Prop :=
  t.cfg = s.cfg ∧ t.cmd = s.cmd ∧ t.arg = s.arg ∧ t.ovr = s.ovr ∧ t.rdata = s.rdata ∧ t.inputs = s.inputs
    ∧ t.cycle = s.cycle

/-- CYCCNT and CYC_EN are unchanged. -/
def SameTimer (s t : State) : Prop := t.cyccnt = s.cyccnt ∧ t.cycEn = s.cycEn

/-- Every port register is unchanged. -/
def SamePins (s t : State) : Prop := t.ports = s.ports

/-- Every pin but `r` keeps its ODR bit and its mode. -/
def SamePinsBut (r : PinRef) (s t : State) : Prop :=
  ∀ q, q ≠ r → odrBit t q = odrBit s q ∧ pinMode t q = pinMode s q

/-- Every buffer byte is unchanged, the unwritten ones included. -/
def SameBytes (s t : State) : Prop := ∀ a, Memory.read t.mem a = Memory.read s.mem a

/-- Every buffer byte but those at the listed offsets is unchanged. -/
def SameBytesBut (l : List Nat) (s t : State) : Prop := ∀ a, a ∉ l → Memory.read t.mem a = Memory.read s.mem a

/-- RESULT and IRQ_SUPPRESS are unchanged. -/
def SameOutputs (s t : State) : Prop := t.result = s.result ∧ t.irqSuppress = s.irqSuppress

/-- An idle cycle of the registers outside the buffers and the ports: CMD, ARG, RESULT, BUSY, OVR, ERR, CYC_EN and
IRQ_SUPPRESS are unchanged and CYCCNT counts (R23-R33, R39, R80). -/
def SameRegisters (s t : State) : Prop :=
  t.cmd = s.cmd ∧ t.arg = s.arg ∧ SameOutputs s t ∧ t.busy = s.busy ∧ t.ovr = s.ovr ∧ t.err = s.err
    ∧ t.cycEn = s.cycEn ∧ t.cyccnt = if s.cycEn then s.cyccnt + 1 else s.cyccnt

/-- No error of R145 that is checked in the entry cycle applies to the command: its fields are legal (R67, R69), its
axis has a pin (R128), the counter runs if it is timed (R85), and ARG of WAIT is below 2^31 (R90). -/
def PassesChecks (i : Instr) (s : State) : Prop :=
  i.wellFormed s.cfg.params.nPorts = true
    ∧ (∀ axis, axisOf i = some axis → (axisPin s axis).isSome = true)
    ∧ (isTimed i = true → s.cycEn = true)
    ∧ (i = .wait → s.arg.toNat < 2 ^ 31)

/-- The command has retired with a result code (R25, R27). -/
def Retired (e : ErrCode) (t : State) : Prop := t.busy = false ∧ t.err = e

/-! ## Invariants -/

/-- The buffer memory is in canonical form. -/
def MemOk (s : State) : Prop := Memory.wf s.mem = true

/-- Every mode field holds 0x3 or 0x4 (R95). -/
def ModesOk (s : State) : Prop := ∀ r : PinRef, legalMode (pinMode s r) = true

/-- The sub-operations a command has after its entry cycle (R90, R106, R117, R137, R138). -/
def subOps : Instr → List SubOp
  | .wait => [.waiting]
  | .sendb _ _ => [.sending]
  | .recvb _ _ => [.poll, .data]
  | .wrtxn _ => [.sendStart, .sending, .guardStart, .guarding]
  | .rdtxn _ => [.sendStart, .sending, .turn, .poll, .data, .restore, .guardStart, .guarding]
  | .nop | .init | .now | .elapsed | .setmode _ _ _ | .setlvl _ _ _ | .getlvl _ _ | .framew | .framer => []

/-- The length of the datagram a transaction sends; 0 for any other command. -/
def sendLen (s : State) : Instr → Nat
  | .wrtxn _ => s.cfg.params.writeLen
  | .rdtxn _ => s.cfg.params.reqLen
  | .nop | .init | .now | .elapsed | .wait | .setmode _ _ _ | .setlvl _ _ _ | .getlvl _ _ | .sendb _ _
  | .recvb _ _ | .framew | .framer => 0

/-- K while a transaction's character is on its way: below the datagram's length, whose bytes are all written; while
a reply byte is awaited: below the reply's length (R131, R134). -/
def IndexOk (s : State) (i : Instr) : Prop :=
  ((axisOf i).isSome = true → s.sub = .sendStart ∨ s.sub = .sending →
      s.k < sendLen s i ∧ ∀ n, n < sendLen s i → (txByte s n).isSome = true)
    ∧ ((axisOf i).isSome = true → s.sub = .poll ∨ s.sub = .data → s.k < s.cfg.params.replyLen)

/-- The pin of a transaction: an output while SWU drives, high where a bit is not being sent, floating from TURN to
RESTORE (R130, R132, R133, R136). -/
def TxnPinOk (s : State) (i : Instr) : Prop :=
  ∀ axis r, axisOf i = some axis → axisPin s axis = some r →
    (s.sub = .sendStart ∨ s.sub = .sending ∨ s.sub = .turn ∨ s.sub = .guardStart ∨ s.sub = .guarding →
        pinMode s r = modeOutPp)
      ∧ (s.sub = .poll ∨ s.sub = .data ∨ s.sub = .restore → pinMode s r = modeInFloat)

/-- The engine's registers fit the command in CMD: the sub-operation is one of its own, the counter runs, ERR reads 0
(R27), and IRQ_SUPPRESS is 1 exactly in a transaction after its entry cycle (R129). -/
def EngineOk (s : State) : Prop :=
  s.k ≤ 8
    ∧ (s.sub = .idle → s.irqSuppress = false)
    ∧ (s.sub = .entry → s.irqSuppress = false ∧ s.err = .ok)
    ∧ (s.sub ≠ .idle → s.sub ≠ .entry →
        ∃ i, decode s.cmd = .ok i ∧ s.sub ∈ subOps i ∧ entryError i s = .ok ∧ s.cycEn = true ∧ s.err = .ok
          ∧ s.irqSuppress = (axisOf i).isSome ∧ IndexOk s i ∧ TxnPinOk s i)

/-- The invariant every step keeps. -/
def Inv (s : State) : Prop := MemOk s ∧ ModesOk s ∧ EngineOk s

/-- The pin a running command acts on: PORT and PIN of a class P command, the axis pin of a transaction (R102). -/
def commandPin (s : State) : Instr → Option PinRef
  | .setmode port pin _ => some (pinOf port pin)
  | .setlvl port pin _ => some (pinOf port pin)
  | .getlvl port pin => some (pinOf port pin)
  | .sendb port pin => some (pinOf port pin)
  | .recvb port pin => some (pinOf port pin)
  | .wrtxn axis => axisPin s axis
  | .rdtxn axis => axisPin s axis
  | .nop | .init | .now | .elapsed | .wait | .framew | .framer => none

/-- The clockwork of a timed sub-operation after its entry cycle: the cycles since T0 lie inside it, a character's
ODR bit is the frame bit due (R108), and the line is idle-high between characters and in the guard (R109, R132). -/
def TimingOk (s : State) : Prop :=
  (s.sub = .waiting → 1 ≤ sinceT0 s ∧ sinceT0 s < s.arg.toNat ∧ s.arg.toNat < 2 ^ 31)
    ∧ (s.sub = .sending → 1 ≤ sinceT0 s ∧ sinceT0 s < 10 * bp s
        ∧ ∀ i r, decode s.cmd = .ok i → commandPin s i = some r →
            odrBit s r = frameBit s.txb ((sinceT0 s - 1) / bp s))
    ∧ (s.sub = .poll → s.j < s.cfg.params.rxTimeout)
    ∧ (s.sub = .data → 1 ≤ sinceT0 s ∧ sinceT0 s < 9 * bp s + 2 * half s)
    ∧ (s.sub = .guarding → 1 ≤ sinceT0 s ∧ sinceT0 s < guardCycles s)
    ∧ (s.sub = .sendStart ∨ s.sub = .turn ∨ s.sub = .guardStart ∨ s.sub = .guarding →
        ∀ i r, decode s.cmd = .ok i → commandPin s i = some r → odrBit s r = true)

end Sys2Proof.Machine
end

