-- ==== Sys2Proof/Certificates/Slice0/Obligations.lean ====
section
/-! DEFINITION. The statements for the provers, from the numbered rules of spec/. `exec i s` is the engine's part of one
cycle (R21 item 3); `step` is a whole cycle. -/

open Sys2Proof Sys2Proof.Machine

/-! ## Encoding -/

/-- Every command decodes from its own encoding, at every value of every field (R65, R73, R79). -/
def Obligations.DecodeEncodeRoundTrip : Prop := ∀ i : Instr, decode (encode i) = .ok i

/-- A word that decodes is the encoding of what it decodes to: no reserved or unused bit of it is set (R71, R73). -/
def Obligations.DecodedWordIsItsEncoding : Prop := ∀ (w : Word) (i : Instr), decode w = .ok i → encode i = w

/-- The worked encodings of R79 decode to the commands they stand for, and are their encodings. -/
def Obligations.WorkedEncodingsDecode : Prop :=
  (decode 0x00000520 = .ok (.sendb 0 5) ∧ encode (.sendb 0 5) = 0x00000520)
    ∧ (decode 0x00300510 = .ok (.setmode 0 5 modeOutPp) ∧ encode (.setmode 0 5 modeOutPp) = 0x00300510)
    ∧ (decode 0x00400510 = .ok (.setmode 0 5 modeInFloat) ∧ encode (.setmode 0 5 modeInFloat) = 0x00400510)
    ∧ (decode 0x01001911 = .ok (.setlvl 1 9 true) ∧ encode (.setlvl 1 9 true) = 0x01001911)
    ∧ (decode 0x00000512 = .ok (.getlvl 0 5) ∧ encode (.getlvl 0 5) = 0x00000512)
    ∧ (decode 0x00000521 = .ok (.recvb 0 5) ∧ encode (.recvb 0 5) = 0x00000521)
    ∧ (decode 0x00000040 = .ok (.wrtxn 0) ∧ encode (.wrtxn 0) = 0x00000040)
    ∧ (decode 0x00010041 = .ok (.rdtxn 1) ∧ encode (.rdtxn 1) = 0x00010041)

/-- Reserved encodings decode to nothing: the opcodes R74 item 1 lists, whatever the other bits are, and a word with a
1 in bit 15 or in bits 31:25, which are reserved in every command (R71). -/
def Obligations.ReservedEncodingsDecodeToNothing : Prop :=
  (∀ w : Word,
      (5 ≤ (opcField w).toNat ∧ (opcField w).toNat ≤ 0x0F)
        ∨ (0x13 ≤ (opcField w).toNat ∧ (opcField w).toNat ≤ 0x1F)
        ∨ (0x22 ≤ (opcField w).toNat ∧ (opcField w).toNat ≤ 0x2F)
        ∨ (0x32 ≤ (opcField w).toNat ∧ (opcField w).toNat ≤ 0x3F)
        ∨ 0x42 ≤ (opcField w).toNat →
      decode w = .error .reservedOpcode)
    ∧ ∀ (w : Word) (n : Nat), n = 15 ∨ (25 ≤ n ∧ n ≤ 31) → w.getLsbD n = true → ∃ e, decode w = .error e

/-! ## The cycle -/

/-- A cycle of a running command without RESET is exec of the decoded command on the state the host access left,
with the counter and the input list moved on around it; exec refuses no command (R21, R83). -/
def Obligations.StepRunsDecodedCommand : Prop :=
  ∀ (s h t : State) (i : Instr),
    (currentInput s).reset = false → s.busy = true → serve s = .next h → decode s.cmd = .ok i →
      (exec i h = .next t → step s = .next (endCycle (performsInit i) t))
        ∧ (∀ f, exec i h = .fault f → step s = .fault f)
        ∧ ∀ r, exec i h ≠ .refused r

/-- The step after a command word was placed is that command's entry cycle: exec of the command on the accepted state
(R83). -/
def Obligations.PlacedCommandRunsNext : Prop :=
  ∀ (s t : State) (w : Nat) (i : Instr),
    decodeTableWord 32 w = some i →
      (s.withFetchWord 32 w).busy = true ∧ (s.withFetchWord 32 w).sub = .entry
        ∧ (exec i { s.withFetchWord 32 w with rdata := none } = .next t →
            step (s.withFetchWord 32 w) = .next (endCycle (performsInit i) t))

/-- An illegal command occupies one cycle, in phase EXEC, and changes ERR alone: OVR, RESULT, the buffers, the pins,
CYC_EN and IRQ_SUPPRESS stay and CYCCNT counts as in any cycle (R74, R80). -/
def Obligations.IllegalCommandChangesErrAlone : Prop :=
  ∀ s : State,
    QuietNow s → s.sub = .entry →
      (∀ i, decode s.cmd = .ok i → i.wellFormed s.cfg.params.nPorts = false) →
        phase s = .exec
          ∧ ∃ t, step s = .next t ∧ Retired .illegalCmd t ∧ t.ovr = s.ovr ∧ SameOutputs s t ∧ SameBytes s t
              ∧ SamePins s t ∧ t.cycEn = s.cycEn ∧ t.cmd = s.cmd ∧ t.arg = s.arg
              ∧ t.cyccnt = (if s.cycEn then s.cyccnt + 1 else s.cyccnt)

/-- The counter's update (R80): 0 in a cycle that performs INIT, else one more while CYC_EN is 1, else unchanged; no
host access writes it. -/
def Obligations.CounterUpdate : Prop :=
  ∀ s t : State,
    (currentInput s).reset = false → step s = .next t →
      (s.busy = true ∧ decode s.cmd = .ok .init → t.cyccnt = 0)
        ∧ (¬ (s.busy = true ∧ decode s.cmd = .ok .init) → s.cycEn = true → t.cyccnt = s.cyccnt + 1)
        ∧ (¬ (s.busy = true ∧ decode s.cmd = .ok .init) → s.cycEn = false → t.cyccnt = s.cyccnt)

/-- Nothing changes the configuration (R44). -/
def Obligations.ConfigurationNeverChanges : Prop := ∀ s t : State, step s = .next t → t.cfg = s.cfg

/-- CYC_EN (R33): 0 after reset, mirrored in STATUS bit 2, set by INIT and by nothing else, cleared by reset and by
nothing else. -/
def Obligations.CycEnSetByInitClearedByReset : Prop :=
  State.reset.cycEn = false
    ∧ (∀ s : State, (statusWord s).getLsbD 2 = s.cycEn)
    ∧ ∀ s t : State, step s = .next t →
        ((currentInput s).reset = true → t.cycEn = false)
          ∧ ((currentInput s).reset = false → s.busy = true → decode s.cmd = .ok .init → t.cycEn = true)
          ∧ (s.cycEn = false → t.cycEn = true →
              (currentInput s).reset = false ∧ s.busy = true ∧ decode s.cmd = .ok .init)
          ∧ (s.cycEn = true → t.cycEn = false → (currentInput s).reset = true)

/-- RESULT changes in a cycle only by reset, which clears it, or by NOW, ELAPSED, GETLVL or RECVB (R24). -/
def Obligations.ResultWritersAreFour : Prop :=
  ∀ s t : State, step s = .next t → t.result ≠ s.result →
    ((currentInput s).reset = true ∧ t.result = 0)
      ∨ (s.busy = true ∧ ∃ i, decode s.cmd = .ok i
          ∧ (i = .now ∨ i = .elapsed ∨ (∃ p q, i = .getlvl p q) ∨ (∃ p q, i = .recvb p q)))

/-- IRQ_SUPPRESS changes in a cycle without RESET only in a transaction: up in its entry cycle, down in the cycle in
which it retires (R39, R129). -/
def Obligations.IrqSuppressChangesOnlyInTransactions : Prop :=
  ∀ s t : State,
    Inv s → (currentInput s).reset = false → step s = .next t → t.irqSuppress ≠ s.irqSuppress →
      s.busy = true ∧ (∃ axis, decode s.cmd = .ok (.wrtxn axis) ∨ decode s.cmd = .ok (.rdtxn axis))
        ∧ (t.irqSuppress = true → s.sub = .entry)
        ∧ (t.irqSuppress = false → t.busy = false)

/-! ## Invariants -/

/-- The reset state meets the invariant and the clockwork. -/
def Obligations.ResetMeetsTheInvariants : Prop := Inv State.reset ∧ TimingOk State.reset

/-- Every step keeps the invariant: the buffer memory's canonical form, legal mode fields (R95), an engine whose
registers fit its command, ERR = 0 while busy (R27), IRQ_SUPPRESS exactly inside transactions (R129). -/
def Obligations.EveryStepKeepsTheInvariant : Prop := ∀ s t : State, Inv s → step s = .next t → Inv t

/-- Every step keeps the clockwork: a timed sub-operation stays inside its duration, the ODR bit of a pin being sent
on is the frame bit due (R108), and the line is high between characters and in the guard (R109, R132). -/
def Obligations.EveryStepKeepsTheClockwork : Prop :=
  ∀ s t : State, Inv s → TimingOk s → step s = .next t → TimingOk t

/-- From a state that meets the invariant, a step stops only on a bus error response of the host access or on framing
over unwritten bytes in an entry cycle (R43, R47, R48, R126, R146). -/
def Obligations.StepStopsOnlyOnBusErrorOrUnwrittenFraming : Prop :=
  ∀ s : State, Inv s →
    (∀ r, step s ≠ .refused r)
      ∧ ∀ f, step s = .fault f →
          ((f = .busWidth ∨ f = .busUnaligned ∨ f = .busUnmapped) ∧ (currentInput s).access ≠ none)
            ∨ (f = .unwrittenTx ∧ s.sub = .entry
                ∧ (decode s.cmd = .ok .framew ∨ decode s.cmd = .ok .framer
                    ∨ ∃ axis, decode s.cmd = .ok (.wrtxn axis) ∨ decode s.cmd = .ok (.rdtxn axis)))

/-- The engine never changes a pin to output with its level at 0 (R99). -/
def Obligations.ChangeToOutputIsHigh : Prop :=
  ∀ (i : Instr) (s t : State) (q : PinRef),
    exec i s = .next t → pinMode s q ≠ modeOutPp → pinMode t q = modeOutPp → odrBit t q = true ∧ line t q = true

/-- A command touches one pin at most, the pin it names (R102). -/
def Obligations.CommandTouchesItsPinAlone : Prop :=
  ∀ (i : Instr) (s t : State) (q : PinRef),
    exec i s = .next t → commandPin s i ≠ some q → odrBit t q = odrBit s q ∧ pinMode t q = pinMode s q

/-! ## Reset -/

/-- The reset state is the table of R42: CYCCNT is frozen, whatever the host and the environment do in the cycle. Its
value there, and the values of the engine's hidden registers, are the model's choice and are not stated (log entries 3
and 20). -/
def Obligations.ResetStateIsTheTable : Prop :=
  State.reset.cmd = 0x00000000 ∧ State.reset.arg = 0x00000000 ∧ State.reset.result = 0x00000000
    ∧ statusWord State.reset = 0x00000000 ∧ State.reset.busy = false ∧ State.reset.ovr = false
    ∧ State.reset.err = .ok ∧ phase State.reset = .idle
    ∧ State.reset.cycEn = false ∧ State.reset.irqSuppress = false ∧ State.reset.sub = .idle
    ∧ readReg State.reset .bitper = BitVec.ofNat 32 (bp State.reset)
    ∧ (∀ k, txByte State.reset k = none ∧ rxByte State.reset k = none)
    ∧ (∀ p, (State.reset.port p).cfgl = 0x44444444 ∧ (State.reset.port p).cfgh = 0x44444444
        ∧ (State.reset.port p).odr = 0x0000)
    ∧ (∀ r : PinRef, pinMode State.reset r = modeInFloat
        ∧ (readReg State.reset (.idr r.port)).getLsbD r.pin.toNat = (envPort State.reset r.port).getLsbD r.pin.toNat)
    ∧ ∀ (inputs : List CycleInput) (t : State),
        (currentInput { State.reset with inputs := inputs }).reset = false →
          step { State.reset with inputs := inputs } = .next t → t.cyccnt = State.reset.cyccnt

/-- A cycle with RESET = 1 gives the reset state, whatever ran and whatever the host did; CYCCNT, the host's read data
and the model's inputs apart (R160-R162). Two things it says are the model's choice: the values of the engine's hidden
registers T0, K, J, SH, TOUT and the latched byte, which are those of State.reset (log entry 20), and that a bad host
access in such a cycle is discarded without a fault (log entry 12). -/
def Obligations.ResetOverridesTheCycle : Prop :=
  ∀ s : State, (currentInput s).reset = true →
    ∃ t, step s = .next t
      ∧ t = { State.reset with cfg := s.cfg, cyccnt := t.cyccnt, rdata := t.rdata, inputs := s.inputs.tail,
                               cycle := s.cycle + 1 }

/-! ## The register window -/

/-- The register map (R46): what stands at each offset, and every other offset is unmapped. -/
def Obligations.RegisterMapIsTheTable : Prop :=
  ∀ n, n ≤ 8 →
    (regAt n 0x000 = some .cmd ∧ regAt n 0x004 = some .arg ∧ regAt n 0x008 = some .result
        ∧ regAt n 0x00C = some .status ∧ regAt n 0x010 = some .cyccnt ∧ regAt n 0x014 = some .bitper
        ∧ regAt n 0x020 = some (.txbuf 0) ∧ regAt n 0x024 = some (.txbuf 1)
        ∧ regAt n 0x028 = some (.rxbuf 0) ∧ regAt n 0x02C = some (.rxbuf 1))
      ∧ (∀ p : BitVec 3, p.toNat < n →
          regAt n (0x100 + 0x10 * p.toNat) = some (.cfgl p) ∧ regAt n (0x104 + 0x10 * p.toNat) = some (.cfgh p)
            ∧ regAt n (0x108 + 0x10 * p.toNat) = some (.odr p) ∧ regAt n (0x10C + 0x10 * p.toNat) = some (.idr p))
      ∧ ∀ off, off ∉ [0x000, 0x004, 0x008, 0x00C, 0x010, 0x014, 0x020, 0x024, 0x028, 0x02C] →
          (∀ p, p < n → off ≠ 0x100 + 0x10 * p ∧ off ≠ 0x104 + 0x10 * p ∧ off ≠ 0x108 + 0x10 * p
            ∧ off ≠ 0x10C + 0x10 * p) →
          regAt n off = none

/-- A host access in the window of a width other than 4, at an unaligned offset, or to an unmapped one, faults: it
reads nothing and writes nothing (R47, R48). Which of the first two names an access that is both gets is not stated;
that one of these two, and not the third, is the name of such an access at an unmapped offset is the model's choice
(log entry 10). -/
def Obligations.BadHostAccessFaults : Prop :=
  ∀ (s : State) (addr width off : Nat) (v : Word),
    (currentInput s).reset = false →
      (currentInput s).access = some (.read addr width) ∨ (currentInput s).access = some (.write addr width v) →
        addr = s.cfg.params.base + off → off < 0x1000 →
          (width ≠ 4 ∨ off % 4 ≠ 0 → step s = .fault .busWidth ∨ step s = .fault .busUnaligned)
            ∧ (width = 4 → off % 4 = 0 → regAt s.cfg.params.nPorts off = none → step s = .fault .busUnmapped)

/-- An access outside the 4 KiB window does not select SWU: the cycle is that of no access (R45). -/
def Obligations.AccessOutsideTheWindowDoesNothing : Prop :=
  ∀ (s : State) (addr width : Nat) (v : Word),
    (currentInput s).access = some (.read addr width) ∨ (currentInput s).access = some (.write addr width v) →
      addr < s.cfg.params.base ∨ s.cfg.params.base + 0x1000 ≤ addr →
        (currentInput s).reset = false → step s = step (withoutAccess s)

/-- A read has no side effect: the cycle is that of no access, and the host gets the register's value in S_n, the pin
levels of the cycle for IDR (R50). CMD, ARG, RESULT, CYCCNT, CFGL, CFGH and ODR read as they stand, ODR's bits 31:16 as
zeros, and BITPER reads BP; of the other registers StatusFields, BuffersAreLittleEndian and IdrReadsThePinLevels give
the value. -/
def Obligations.ReadHasNoSideEffect : Prop :=
  (∀ (s t : State) (r : Reg),
      HostReads s r → step (withoutAccess s) = .next t → step s = .next { t with rdata := some (readReg s r) })
    ∧ (∀ s : State, readReg s .cmd = s.cmd ∧ readReg s .arg = s.arg ∧ readReg s .result = s.result
        ∧ readReg s .cyccnt = s.cyccnt ∧ readReg s .bitper = BitVec.ofNat 32 (bp s))
    ∧ ∀ (s : State) (p : BitVec 3),
        readReg s (.cfgl p) = (s.port p).cfgl ∧ readReg s (.cfgh p) = (s.port p).cfgh
          ∧ (∀ pin : BitVec 4,
              pinMode s ⟨p, pin⟩ = getField (readReg s (if pin.toNat < 8 then .cfgl p else .cfgh p)) (pin.toNat % 8)
                ∧ odrBit s ⟨p, pin⟩ = (readReg s (.odr p)).getLsbD pin.toNat)
          ∧ ∀ n, 16 ≤ n → (readReg s (.odr p)).getLsbD n = false

/-- Host accesses while a command runs (R52): a write to a register other than STATUS changes nothing but OVR, which it
sets; a write to STATUS is applied and changes nothing but OVR; a read is served. -/
def Obligations.WriteWhileBusyChangesOvrAlone : Prop :=
  (∀ (s t : State) (r : Reg) (v : Word),
      HostWrites s r v → s.busy = true → step (withoutAccess s) = .next t →
        (r ≠ .status → step s = .next { t with ovr := true })
          ∧ (r = .status → step s = .next { t with ovr := t.ovr && !v.getLsbD 1 }))
    ∧ ∀ (s t : State) (r : Reg),
      HostReads s r → s.busy = true → step (withoutAccess s) = .next t →
        step s = .next { t with rdata := some (readReg s r) }

/-- OVR (R28): set by a host write to a register other than STATUS while BUSY = 1; cleared by a write to STATUS with
bit 1 set, and by reset; otherwise kept. -/
def Obligations.OvrIsStickyAndW1C : Prop :=
  ∀ s t : State, step s = .next t →
    ((currentInput s).reset = true → t.ovr = false)
      ∧ (∀ r v, HostWrites s r v → r ≠ .status → s.busy = true → t.ovr = true)
      ∧ (∀ v, HostWrites s .status v → v.getLsbD 1 = true → t.ovr = false)
      ∧ ((currentInput s).reset = false → (¬ ∃ r v, HostWrites s r v ∧ r ≠ .status ∧ s.busy = true) →
          (¬ ∃ v, HostWrites s .status v ∧ v.getLsbD 1 = true) → t.ovr = s.ovr)

/-- A write to a read-only register is ignored: idle, the cycle is that of no access; busy, OVR is set besides. Bits
31:16 of ODR and all bits of STATUS but bit 1 ignore writes (R49). An idle write to ODR stores bits 15:0 and changes
nothing else: no other port's ODR, no mode, no buffer byte and no other register. -/
def Obligations.ReadOnlyRegistersIgnoreWrites : Prop :=
  (∀ (s t : State) (r : Reg) (v : Word),
      HostWrites s r v → (r = .result ∨ r = .cyccnt ∨ r = .bitper ∨ ∃ p, r = .idr p) →
        step (withoutAccess s) = .next t →
          (s.busy = false → step s = .next t) ∧ (s.busy = true → step s = .next { t with ovr := true }))
    ∧ (∀ (s : State) (p : BitVec 3) (v : Word),
        HostWrites s (.odr p) v → s.busy = false →
          ∃ t, step s = .next t
            ∧ (∀ n, n < 16 → (readReg t (.odr p)).getLsbD n = v.getLsbD n)
            ∧ (∀ n, 16 ≤ n → (readReg t (.odr p)).getLsbD n = false)
            ∧ (∀ q : PinRef, q.port ≠ p → odrBit t q = odrBit s q) ∧ (∀ q, pinMode t q = pinMode s q)
            ∧ SameBytes s t ∧ SameRegisters s t)
    ∧ ∀ (s t : State) (v : Word),
        HostWrites s .status v → v.getLsbD 1 = false → step (withoutAccess s) = .next t → step s = .next t

/-- A write of CMD while idle is accepted: CMD holds the word, BUSY is 1 and ERR 0 in the next cycle, which is the
command's entry cycle; ARG and everything else the command reads stand. A write of ARG while idle stores the word and
has no other effect (R23, R27, R51, R83). -/
def Obligations.CmdAndArgWritesAreAccepted : Prop :=
  (∀ (s : State) (w : Word), HostWrites s .cmd w → s.busy = false →
      ∃ t, step s = .next t ∧ t.cmd = w ∧ t.busy = true ∧ t.sub = .entry ∧ t.err = .ok ∧ t.arg = s.arg
        ∧ t.ovr = s.ovr ∧ SameOutputs s t ∧ SameBytes s t ∧ SamePins s t ∧ t.cycEn = s.cycEn)
    ∧ ∀ (s : State) (w : Word), HostWrites s .arg w → s.busy = false →
      ∃ t, step s = .next t ∧ t.arg = w ∧ t.cmd = s.cmd ∧ t.busy = false ∧ t.err = s.err
        ∧ t.ovr = s.ovr ∧ SameOutputs s t ∧ SameBytes s t ∧ SamePins s t ∧ t.cycEn = s.cycEn

/-- TXBUF and RXBUF are packed little-endian: a write of a word stores its four bytes, lowest bits first, and no other
byte, and changes no register outside the buffers; a read of written bytes returns them so (R53). -/
def Obligations.BuffersAreLittleEndian : Prop :=
  (∀ (s : State) (w : Nat) (v : Word), w < 2 → HostWrites s (.txbuf w) v → s.busy = false →
      ∃ t, step s = .next t
        ∧ (∀ i, i < 4 → txByte t (4 * w + i) = some (v.extractLsb' (8 * i) 8))
        ∧ SameBytesBut [txBase + 4 * w, txBase + 4 * w + 1, txBase + 4 * w + 2, txBase + 4 * w + 3] s t
        ∧ readReg t (.txbuf w) = v ∧ SameRegisters s t ∧ SamePins s t)
    ∧ (∀ (s : State) (w : Nat) (v : Word), w < 2 → HostWrites s (.rxbuf w) v → s.busy = false →
      ∃ t, step s = .next t
        ∧ (∀ i, i < 4 → rxByte t (4 * w + i) = some (v.extractLsb' (8 * i) 8))
        ∧ SameBytesBut [rxBase + 4 * w, rxBase + 4 * w + 1, rxBase + 4 * w + 2, rxBase + 4 * w + 3] s t
        ∧ readReg t (.rxbuf w) = v ∧ SameRegisters s t ∧ SamePins s t)
    ∧ (∀ (s : State) (w i : Nat) (b : Byte), w < 2 → i < 4 → txByte s (4 * w + i) = some b →
        (readReg s (.txbuf w)).extractLsb' (8 * i) 8 = b)
    ∧ ∀ (s : State) (w i : Nat) (b : Byte), w < 2 → i < 4 → rxByte s (4 * w + i) = some b →
        (readReg s (.rxbuf w)).extractLsb' (8 * i) 8 = b

/-- An idle host write to CFGL or CFGH, field by field: a legal mode is stored, any other value leaves that field, the
other fields of the write still take effect; no other register changes and no error is signalled (R95). -/
def Obligations.CfgIsWriteAnyReadLegal : Prop :=
  ∀ (s : State) (p : BitVec 3) (v : Word) (high : Bool),
    HostWrites s (if high then .cfgh p else .cfgl p) v → s.busy = false →
      ∃ t, step s = .next t ∧ SameRegisters s t ∧ SameBytes s t
        ∧ (∀ q, odrBit t q = odrBit s q)
        ∧ (∀ pin : BitVec 4, (if high then 8 ≤ pin.toNat else pin.toNat < 8) →
            pinMode t ⟨p, pin⟩ =
              if legalMode (getField v (pin.toNat % 8)) then getField v (pin.toNat % 8) else pinMode s ⟨p, pin⟩)
        ∧ (∀ q : PinRef, ¬ (q.port = p ∧ (if high then 8 ≤ q.pin.toNat else q.pin.toNat < 8)) →
            pinMode t q = pinMode s q)
        ∧ (ModesOk s → ModesOk t)

/-- The pin level is the ODR bit in OUT_PP and ENV in IN_FLOAT, and IDR reads the sixteen levels of its port, bits
31:16 zero (R38, R100). -/
def Obligations.IdrReadsThePinLevels : Prop :=
  (∀ (s : State) (r : PinRef),
      (pinMode s r = modeOutPp → line s r = odrBit s r)
        ∧ (pinMode s r = modeInFloat → line s r = (envPort s r.port).getLsbD r.pin.toNat))
    ∧ ∀ (s : State) (p : BitVec 3),
        (∀ pin : BitVec 4, (readReg s (.idr p)).getLsbD pin.toNat = line s ⟨p, pin⟩)
          ∧ ∀ n, 16 ≤ n → (readReg s (.idr p)).getLsbD n = false

/-- The fields of STATUS (R26): BUSY, OVR, CYCEN, IRQS and zeros above; ERR with the number of each code (R143); PHASE
with the number of what occupies the cycle (R40), 0 exactly when BUSY is 0: EXEC 1 in the entry cycle of a one-cycle
command and of an illegal or aborted one, WAIT 2, a transaction's SETUP 3, a character sent TX 4, TURN 5, a character
received RX 6, RESTORE 7, GUARD 8. That an aborted command's cycle reads EXEC whatever the command is log entry 23. -/
def Obligations.StatusFields : Prop :=
  ∀ (s : State) (err phase : BitVec 4),
    err = (readReg s .status).extractLsb' 4 4 → phase = (readReg s .status).extractLsb' 8 4 →
      ((readReg s .status).getLsbD 0 = s.busy ∧ (readReg s .status).getLsbD 1 = s.ovr
        ∧ (readReg s .status).getLsbD 2 = s.cycEn ∧ (readReg s .status).getLsbD 3 = s.irqSuppress
        ∧ (readReg s .status).extractLsb' 12 20 = 0)
      ∧ ((s.err = .ok → err = 0) ∧ (s.err = .illegalCmd → err = 1) ∧ (s.err = .notInit → err = 2)
        ∧ (s.err = .badOperand → err = 3) ∧ (s.err = .unsupportedAxis → err = 4) ∧ (s.err = .rxTimeout → err = 5))
      ∧ (s.busy = false ↔ phase = 0)
      ∧ (s.sub = .entry →
          (∀ e, decode s.cmd = .error e → phase = 1)
            ∧ ∀ i, decode s.cmd = .ok i →
              (¬ PassesChecks i s → phase = 1)
                ∧ (PassesChecks i s →
                  (isTimed i = false ∨ i = .now ∨ i = .elapsed → phase = 1) ∧ (i = .wait → phase = 2)
                    ∧ (∀ axis, i = .wrtxn axis ∨ i = .rdtxn axis → phase = 3)
                    ∧ (∀ port pin, i = .sendb port pin → phase = 4)
                    ∧ ∀ port pin, i = .recvb port pin → phase = 6))
      ∧ (s.sub = .waiting → phase = 2) ∧ (s.sub = .sendStart ∨ s.sub = .sending → phase = 4)
      ∧ (s.sub = .turn → phase = 5) ∧ (s.sub = .poll ∨ s.sub = .data → phase = 6)
      ∧ (s.sub = .restore → phase = 7) ∧ (s.sub = .guardStart ∨ s.sub = .guarding → phase = 8)

/-! ## Errors -/

/-- The entry errors in R145's order, each ending the command in its entry cycle with no other effect: ILLEGAL_CMD by
a value check (R67, R69, R74), UNSUPPORTED_AXIS (R128), NOT_INIT (R85), BAD_OPERAND (R90). That the value checks run on
the decoded row in the entry cycle is the model's form of them (log entry 22). -/
def Obligations.EntryErrorsInOrder : Prop :=
  ∀ (i : Instr) (s : State), s.sub = .entry →
    (i.wellFormed s.cfg.params.nPorts = false → exec i s = .next { s with sub := .idle, err := .illegalCmd })
      ∧ (∀ axis, axisOf i = some axis → axisPin s axis = none →
          exec i s = .next { s with sub := .idle, err := .unsupportedAxis })
      ∧ (i.wellFormed s.cfg.params.nPorts = true → (∀ axis, axisOf i = some axis → axisPin s axis ≠ none) →
          isTimed i = true → s.cycEn = false → exec i s = .next { s with sub := .idle, err := .notInit })
      ∧ (i = .wait → s.cycEn = true → 2 ^ 31 ≤ s.arg.toNat →
          exec i s = .next { s with sub := .idle, err := .badOperand })

/-! ## Timer commands -/

/-- NOP retires in its cycle with ERR OK and nothing else changed, with or without CYC_EN (R86). -/
def Obligations.NopCompletes : Prop :=
  ∀ s : State, ∃ t, exec .nop s = .next t ∧ Retired .ok t ∧ SameHostSide s t ∧ SameTimer s t ∧ SameOutputs s t
    ∧ SamePins s t ∧ SameBytes s t

/-- INIT retires in its cycle with CYCCNT 0 and CYC_EN 1; after its cycle CYCCNT reads 0, a quiet cycle later 1
(R87). -/
def Obligations.InitCompletes : Prop :=
  (∀ s : State, ∃ t, exec .init s = .next t ∧ Retired .ok t ∧ t.cyccnt = 0 ∧ t.cycEn = true ∧ SameHostSide s t
      ∧ SameOutputs s t ∧ SamePins s t ∧ SameBytes s t)
    ∧ ∀ s : State, s.busy = true → decode s.cmd = .ok .init → QuietFor 2 s →
        ∃ t u, step s = .next t ∧ t.cyccnt = 0 ∧ t.cycEn = true ∧ t.busy = false
          ∧ step t = .next u ∧ u.cyccnt = 1

/-- NOW gives RESULT the counter of its cycle, ELAPSED the counter less ARG mod 2^32; both need CYC_EN (R88, R89). -/
def Obligations.NowAndElapsedComplete : Prop :=
  ∀ s : State, s.cycEn = true →
    (∃ t, exec .now s = .next t ∧ Retired .ok t ∧ t.result = s.cyccnt ∧ t.irqSuppress = s.irqSuppress
        ∧ SameHostSide s t ∧ SameTimer s t ∧ SamePins s t ∧ SameBytes s t)
      ∧ ∃ t, exec .elapsed s = .next t ∧ Retired .ok t ∧ t.result = s.cyccnt - s.arg
          ∧ t.irqSuppress = s.irqSuppress ∧ SameHostSide s t ∧ SameTimer s t ∧ SamePins s t ∧ SameBytes s t

/-- A cycle of WAIT: the entry cycle captures T0 and is the last if ARG <= 1; a later cycle, `x` cycles after T0, is
the last exactly if ARG <= x + 1 (R84, R90). -/
def Obligations.WaitCycles : Prop :=
  (∀ s : State, s.sub = .entry → s.cycEn = true → s.arg.toNat < 2 ^ 31 →
      ∃ t, exec .wait s = .next t ∧ t.t0 = s.cyccnt ∧ (s.arg.toNat ≤ 1 → Retired .ok t)
        ∧ (1 < s.arg.toNat → t.sub = .waiting ∧ t.busy = true ∧ t.err = s.err)
        ∧ SameHostSide s t ∧ SameTimer s t ∧ SameOutputs s t ∧ SamePins s t ∧ SameBytes s t)
    ∧ ∀ s : State, s.sub = .waiting → s.arg.toNat < 2 ^ 31 → sinceT0 s + 1 < 2 ^ 31 →
      ∃ t, exec .wait s = .next t ∧ (s.arg.toNat ≤ sinceT0 s + 1 → Retired .ok t)
        ∧ (sinceT0 s + 1 < s.arg.toNat → t = s)
        ∧ SameHostSide s t ∧ SameTimer s t ∧ SameOutputs s t ∧ SamePins s t ∧ SameBytes s t

/-- WAIT keeps BUSY = 1, in phase WAIT, for exactly max(ARG, 1) cycles and retires with OK and no other effect: CMD,
ARG, OVR, RESULT, IRQ_SUPPRESS, CYC_EN, the pins and the buffers stay and CYCCNT has counted the cycles (R90). -/
def Obligations.WaitOccupiesMaxArgOneCycles : Prop :=
  ∀ s : State,
    s.sub = .entry → decode s.cmd = .ok .wait → s.cycEn = true → s.arg.toNat < 2 ^ 31 →
      QuietFor (max s.arg.toNat 1) s →
        (∀ n, n < max s.arg.toNat 1 → ∃ t, cycles n s = .next t ∧ t.busy = true ∧ phase t = .wait)
          ∧ ∃ t, cycles (max s.arg.toNat 1) s = .next t ∧ Retired .ok t ∧ SameOutputs s t ∧ SamePins s t
              ∧ SameBytes s t ∧ t.cmd = s.cmd ∧ t.arg = s.arg ∧ t.ovr = s.ovr ∧ t.cycEn = s.cycEn
              ∧ t.cyccnt = s.cyccnt + BitVec.ofNat 32 (max s.arg.toNat 1)

/-! ## Pin commands -/

/-- SETMODE on an existing port: OUT_PP sets the ODR bit and the mode together, IN_FLOAT the mode alone; no other pin
changes and CYC_EN is not needed (R96). -/
def Obligations.SetmodeCompletes : Prop :=
  ∀ (s : State) (port : BitVec 3) (pin : BitVec 4), port.toNat < s.cfg.params.nPorts →
    (∃ t, exec (.setmode port pin modeOutPp) s = .next t ∧ Retired .ok t
        ∧ pinMode t ⟨port, pin⟩ = modeOutPp ∧ odrBit t ⟨port, pin⟩ = true ∧ line t ⟨port, pin⟩ = true
        ∧ SamePinsBut ⟨port, pin⟩ s t ∧ SameHostSide s t ∧ SameTimer s t ∧ SameOutputs s t ∧ SameBytes s t)
      ∧ ∃ t, exec (.setmode port pin modeInFloat) s = .next t ∧ Retired .ok t
          ∧ pinMode t ⟨port, pin⟩ = modeInFloat ∧ odrBit t ⟨port, pin⟩ = odrBit s ⟨port, pin⟩
          ∧ SamePinsBut ⟨port, pin⟩ s t ∧ SameHostSide s t ∧ SameTimer s t ∧ SameOutputs s t ∧ SameBytes s t

/-- SETLVL on an existing port sets one ODR bit, in either mode, and no mode (R97); GETLVL gives RESULT the pin's level
as one bit (R98). Neither needs CYC_EN. -/
def Obligations.SetlvlAndGetlvlComplete : Prop :=
  (∀ (s : State) (port : BitVec 3) (pin : BitVec 4) (lvl : Bool), port.toNat < s.cfg.params.nPorts →
      ∃ t, exec (.setlvl port pin lvl) s = .next t ∧ Retired .ok t ∧ odrBit t ⟨port, pin⟩ = lvl
        ∧ (∀ q, pinMode t q = pinMode s q) ∧ SamePinsBut ⟨port, pin⟩ s t ∧ SameHostSide s t ∧ SameTimer s t
        ∧ SameOutputs s t ∧ SameBytes s t)
    ∧ ∀ (s : State) (port : BitVec 3) (pin : BitVec 4), port.toNat < s.cfg.params.nPorts →
      ∃ t, exec (.getlvl port pin) s = .next t ∧ Retired .ok t
        ∧ t.result = (if line s ⟨port, pin⟩ then 1 else 0) ∧ t.irqSuppress = s.irqSuppress
        ∧ SameHostSide s t ∧ SameTimer s t ∧ SamePins s t ∧ SameBytes s t

/-! ## SENDB and RECVB -/

/-- A cycle of SENDB: the entry cycle captures T0, reads ARG[7:0] and writes the start bit; a later cycle `x` cycles
after T0 writes frame bit m if x = m*BP, else nothing; the cycle with 10*BP <= x + 1 is the last (R106). -/
def Obligations.SendbCycles : Prop :=
  ∀ (s : State) (port : BitVec 3) (pin : BitVec 4),
    (s.sub = .entry → s.cycEn = true → port.toNat < s.cfg.params.nPorts →
      ∃ t, exec (.sendb port pin) s = .next t ∧ t.sub = .sending ∧ t.busy = true ∧ t.t0 = s.cyccnt
        ∧ t.txb = s.arg.extractLsb' 0 8 ∧ t.err = s.err ∧ odrBit t ⟨port, pin⟩ = false
        ∧ (∀ q, pinMode t q = pinMode s q) ∧ SamePinsBut ⟨port, pin⟩ s t ∧ SameHostSide s t ∧ SameTimer s t
        ∧ SameOutputs s t ∧ SameBytes s t)
      ∧ (s.sub = .sending → sinceT0 s < 10 * bp s →
        ∃ t, exec (.sendb port pin) s = .next t
          ∧ (∀ m, m < 10 → sinceT0 s = m * bp s → odrBit t ⟨port, pin⟩ = frameBit s.txb m)
          ∧ ((∀ m, m < 10 → sinceT0 s ≠ m * bp s) → odrBit t ⟨port, pin⟩ = odrBit s ⟨port, pin⟩)
          ∧ (10 * bp s ≤ sinceT0 s + 1 → Retired .ok t)
          ∧ (sinceT0 s + 1 < 10 * bp s → t.sub = .sending ∧ t.busy = true ∧ t.err = s.err)
          ∧ (∀ q, pinMode t q = pinMode s q) ∧ SamePinsBut ⟨port, pin⟩ s t ∧ SameHostSide s t ∧ SameTimer s t
          ∧ SameOutputs s t ∧ SameBytes s t)

/-- The waveform of SENDB: frame bit m is the ODR bit, and on an output pin the line, in the BP cycles from
e + 1 + m*BP; BUSY is 1 for exactly 10*BP cycles, in phase TX, IRQ_SUPPRESS is never touched, and the pin is idle-high
at the end (R105-R110). -/
def Obligations.SendbWaveform : Prop :=
  ∀ (s : State) (port : BitVec 3) (pin : BitVec 4),
    s.sub = .entry → decode s.cmd = .ok (.sendb port pin) → port.toNat < s.cfg.params.nPorts → s.cycEn = true →
      QuietFor (10 * bp s) s →
        (∀ m c, m < 10 → c < bp s → ∃ t, cycles (1 + m * bp s + c) s = .next t
            ∧ odrBit t ⟨port, pin⟩ = frameBit (s.arg.extractLsb' 0 8) m
            ∧ pinMode t ⟨port, pin⟩ = pinMode s ⟨port, pin⟩
            ∧ (pinMode s ⟨port, pin⟩ = modeOutPp → line t ⟨port, pin⟩ = frameBit (s.arg.extractLsb' 0 8) m)
            ∧ t.irqSuppress = s.irqSuppress)
          ∧ (∀ n, n < 10 * bp s → ∃ t, cycles n s = .next t ∧ t.busy = true ∧ phase t = .tx)
          ∧ ∃ t, cycles (10 * bp s) s = .next t ∧ Retired .ok t ∧ odrBit t ⟨port, pin⟩ = true

/-- A poll of RECVB, in its entry cycle (poll 0) or later (poll J): the level 0 is the start bit and captures T0; the
level 1 goes on to the next poll, and at the last of RX_TIMEOUT polls retires with RX_TIMEOUT and RESULT 0xFFFFFFFF,
no bit sampled (R111-R113, R117). -/
def Obligations.RecvbPolls : Prop :=
  ∀ (s : State) (port : BitVec 3) (pin : BitVec 4) (jj : Nat),
    (s.sub = .entry ∧ s.cycEn = true ∧ port.toNat < s.cfg.params.nPorts ∧ jj = 0) ∨ (s.sub = .poll ∧ jj = s.j) →
      ∃ t, exec (.recvb port pin) s = .next t
        ∧ (line s ⟨port, pin⟩ = false →
            t.sub = .data ∧ t.busy = true ∧ t.t0 = s.cyccnt ∧ t.result = s.result ∧ t.err = s.err)
        ∧ (line s ⟨port, pin⟩ = true → jj + 1 < s.cfg.params.rxTimeout →
            t.sub = .poll ∧ t.busy = true ∧ t.j = jj + 1 ∧ t.result = s.result ∧ t.err = s.err)
        ∧ (line s ⟨port, pin⟩ = true → s.cfg.params.rxTimeout ≤ jj + 1 →
            Retired .rxTimeout t ∧ t.result = 0xFFFFFFFF)
        ∧ t.sh = s.sh ∧ t.irqSuppress = s.irqSuppress ∧ SameHostSide s t ∧ SameTimer s t ∧ SamePins s t
        ∧ SameBytes s t

/-- A cycle of RECVB after detection, `x` cycles after T0: SH[q] takes the line if x = BP + HALF + q*BP, and no other
bit changes; the cycle with 9*BP + 2*HALF <= x + 1 is the last and delivers SH, its own sample included, zero-extended
to RESULT (R114-R117). -/
def Obligations.RecvbSamplesAndDelivers : Prop :=
  ∀ (s : State) (port : BitVec 3) (pin : BitVec 4), s.sub = .data → sinceT0 s + 1 < 2 ^ 31 →
    ∃ t, exec (.recvb port pin) s = .next t
      ∧ (∀ q, q < 8 → t.sh.getLsbD q =
          if sinceT0 s = bp s + half s + q * bp s then line s ⟨port, pin⟩ else s.sh.getLsbD q)
      ∧ (sinceT0 s + 1 < 9 * bp s + 2 * half s → t.sub = .data ∧ t.result = s.result ∧ t.err = s.err)
      ∧ (9 * bp s + 2 * half s ≤ sinceT0 s + 1 → Retired .ok t ∧ t.result = t.sh.setWidth 32)
      ∧ t.irqSuppress = s.irqSuppress ∧ SameHostSide s t ∧ SameTimer s t ∧ SamePins s t ∧ SameBytes s t

/-- RECVB on a line that reads 1 at every poll, a floating pin whose ENV is 1 or an output pin whose ODR bit is 1: BUSY
for exactly RX_TIMEOUT cycles, then RESULT 0xFFFFFFFF and ERR RX_TIMEOUT (R112, R117). -/
def Obligations.RecvbTimesOut : Prop :=
  ∀ (s : State) (port : BitVec 3) (pin : BitVec 4),
    s.sub = .entry → decode s.cmd = .ok (.recvb port pin) → port.toNat < s.cfg.params.nPorts → s.cycEn = true →
      (pinMode s ⟨port, pin⟩ = modeInFloat ∧ ∀ m, m < s.cfg.params.rxTimeout → envLater s m ⟨port, pin⟩ = true)
          ∨ (pinMode s ⟨port, pin⟩ = modeOutPp ∧ odrBit s ⟨port, pin⟩ = true) →
        QuietFor s.cfg.params.rxTimeout s →
          (∀ n, n < s.cfg.params.rxTimeout → ∃ t, cycles n s = .next t ∧ t.busy = true ∧ phase t = .rx)
            ∧ ∃ t, cycles s.cfg.params.rxTimeout s = .next t ∧ Retired .rxTimeout t ∧ t.result = 0xFFFFFFFF
                ∧ t.sh = s.sh ∧ SamePins s t ∧ SameBytes s t

/-- RECVB reads back a character for all 256 values: ENV is 1 for `u` cycles, `u` below RX_TIMEOUT, then carries
frame(b) at BP cycles a bit; RESULT is b after exactly u + 9*BP + 2*HALF cycles (R119). -/
def Obligations.RecvbReadsAFrame : Prop :=
  ∀ (s : State) (port : BitVec 3) (pin : BitVec 4) (b : Byte) (u : Nat),
    s.sub = .entry → decode s.cmd = .ok (.recvb port pin) → port.toNat < s.cfg.params.nPorts → s.cycEn = true →
      pinMode s ⟨port, pin⟩ = modeInFloat → u < s.cfg.params.rxTimeout →
        QuietFor (u + 9 * bp s + 2 * half s) s →
          (∀ m, m < u → envLater s m ⟨port, pin⟩ = true) →
            (∀ m c, m < 10 → c < bp s → envLater s (u + m * bp s + c) ⟨port, pin⟩ = frameBit b m) →
              (∀ n, n < u + 9 * bp s + 2 * half s →
                  ∃ t, cycles n s = .next t ∧ t.busy = true ∧ phase t = .rx)
                ∧ ∃ t, cycles (u + 9 * bp s + 2 * half s) s = .next t ∧ Retired .ok t
                    ∧ t.result = b.setWidth 32 ∧ SamePins s t ∧ SameBytes s t

/-! ## The framer -/

/-- FRAMEW and FRAMER over written bytes: TX[SLAVE_IDX] is SLAVE_ADDR, TX[L-1] is CHECK over the bytes before it with
the slave byte already replaced, and no other byte changes; CYC_EN is not needed (R121-R125). -/
def Obligations.FramingCompletes : Prop :=
  ∀ (s : State) (len : Nat) (i : Instr),
    (i = .framew ∧ len = s.cfg.params.writeLen) ∨ (i = .framer ∧ len = s.cfg.params.reqLen) →
      (∀ k, k < len - 1 → (txByte s k).isSome = true) →
        ∃ (t : State) (l : List Byte), exec i s = .next t ∧ Retired .ok t
          ∧ l.length = len - 1
          ∧ (∀ k, k < len - 1 → l[k]? =
              if k = s.cfg.params.slaveIdx then some s.cfg.params.slaveAddr else txByte s k)
          ∧ txByte t s.cfg.params.slaveIdx = some s.cfg.params.slaveAddr
          ∧ txByte t (len - 1) = some (checkByte s l)
          ∧ SameBytesBut [txBase + s.cfg.params.slaveIdx, txBase + (len - 1)] s t
          ∧ SameHostSide s t ∧ SameTimer s t ∧ SameOutputs s t ∧ SamePins s t

/-- FIX(L) with a byte of TX[0..L-2] unwritten, the slave byte included, is where the model faults: FRAMEW, FRAMER, and
the entry cycle of a transaction that passed its checks (R126). -/
def Obligations.FramingFaultsOverUnwrittenBytes : Prop :=
  ∀ (s : State) (k : Nat), txByte s k = none →
    (k < s.cfg.params.writeLen - 1 → exec .framew s = .fault .unwrittenTx)
      ∧ (k < s.cfg.params.reqLen - 1 → exec .framer s = .fault .unwrittenTx)
      ∧ ∀ axis r, s.sub = .entry → axisPin s axis = some r → s.cycEn = true →
          (k < s.cfg.params.writeLen - 1 → exec (.wrtxn axis) s = .fault .unwrittenTx)
            ∧ (k < s.cfg.params.reqLen - 1 → exec (.rdtxn axis) s = .fault .unwrittenTx)

/-- Framing a framed datagram changes no byte (R126). -/
def Obligations.FramingIsIdempotent : Prop :=
  ∀ (s t u : State) (len : Nat),
    len = s.cfg.params.writeLen ∨ len = s.cfg.params.reqLen → fix s len = some t → fix t len = some u →
      SameBytes t u ∧ (Memory.wf s.mem = true → u.mem = t.mem)

/-! ## Transactions -/

/-- The entry cycle of a transaction that passes its checks, over written bytes: the datagram is fixed up, IRQ_SUPPRESS
is 1, the pin is an output at 1, K is 0 and SEND enters next (R129, R130). -/
def Obligations.SetupCompletes : Prop :=
  ∀ (s : State) (axis : BitVec 4) (r : PinRef) (i : Instr) (len : Nat),
    (i = .wrtxn axis ∧ len = s.cfg.params.writeLen) ∨ (i = .rdtxn axis ∧ len = s.cfg.params.reqLen) →
      s.sub = .entry → axisPin s axis = some r → s.cycEn = true →
        (∀ k, k < len - 1 → (txByte s k).isSome = true) →
          ∃ t u, exec i s = .next t ∧ fix s len = some u ∧ SameBytes u t
            ∧ t.irqSuppress = true ∧ pinMode t r = modeOutPp ∧ odrBit t r = true ∧ line t r = true
            ∧ t.k = 0 ∧ t.sub = .sendStart ∧ t.err = s.err ∧ t.result = s.result
            ∧ SamePinsBut r s t ∧ SameHostSide s t ∧ SameTimer s t

/-- The characters of a transaction: SEND's entry cycle reads TX[K], captures T0 and writes the start bit; a later
cycle writes the frame bit due; the last one moves K on to the next byte, entered in the next cycle, or behind the
last byte to the guard (WRTXN) or to TURN (RDTXN) (R106, R131). -/
def Obligations.TransactionSendCycles : Prop :=
  ∀ (s : State) (axis : BitVec 4) (r : PinRef) (i : Instr) (len : Nat) (after : SubOp),
    (i = .wrtxn axis ∧ len = s.cfg.params.writeLen ∧ after = .guardStart)
        ∨ (i = .rdtxn axis ∧ len = s.cfg.params.reqLen ∧ after = .turn) →
      axisPin s axis = some r →
        (∀ b, s.sub = .sendStart → txByte s s.k = some b →
          ∃ t, exec i s = .next t ∧ t.sub = .sending ∧ t.t0 = s.cyccnt ∧ t.txb = b ∧ t.k = s.k
            ∧ odrBit t r = false ∧ t.err = s.err ∧ (∀ q, pinMode t q = pinMode s q) ∧ SamePinsBut r s t
            ∧ SameHostSide s t ∧ SameTimer s t ∧ SameOutputs s t ∧ SameBytes s t)
          ∧ (s.sub = .sending → sinceT0 s < 10 * bp s →
            ∃ t, exec i s = .next t
              ∧ (∀ m, m < 10 → sinceT0 s = m * bp s → odrBit t r = frameBit s.txb m)
              ∧ ((∀ m, m < 10 → sinceT0 s ≠ m * bp s) → odrBit t r = odrBit s r)
              ∧ (sinceT0 s + 1 < 10 * bp s → t.sub = .sending ∧ t.k = s.k)
              ∧ (10 * bp s ≤ sinceT0 s + 1 →
                  t.k = s.k + 1 ∧ t.sub = if s.k + 1 < len then .sendStart else after)
              ∧ t.err = s.err ∧ (∀ q, pinMode t q = pinMode s q) ∧ SamePinsBut r s t
              ∧ SameHostSide s t ∧ SameTimer s t ∧ SameOutputs s t ∧ SameBytes s t)

/-- A cycle of GUARD_HOLD: no pin action; in its last cycle IRQ_SUPPRESS is cleared and the transaction retires, with
OK for a write and for a read with RX_TIMEOUT if TOUT is set (R129, R132, R138). -/
def Obligations.GuardHoldCycles : Prop :=
  ∀ (s : State) (axis : BitVec 4) (r : PinRef) (i : Instr) (code : ErrCode) (x : Nat),
    (i = .wrtxn axis ∧ code = .ok)
        ∨ (i = .rdtxn axis ∧ s.tout = false ∧ code = .ok) ∨ (i = .rdtxn axis ∧ s.tout = true ∧ code = .rxTimeout) →
      axisPin s axis = some r →
        (s.sub = .guardStart ∧ x = 0) ∨ (s.sub = .guarding ∧ x = sinceT0 s) → x + 1 < 2 ^ 31 →
          ∃ t, exec i s = .next t
            ∧ (guardCycles s ≤ x + 1 → Retired code t ∧ t.irqSuppress = false)
            ∧ (x + 1 < guardCycles s → t.sub = .guarding ∧ t.busy = true ∧ t.irqSuppress = s.irqSuppress
                ∧ t.err = s.err)
            ∧ (s.sub = .guardStart → t.t0 = s.cyccnt) ∧ t.result = s.result
            ∧ SamePins s t ∧ SameBytes s t ∧ SameHostSide s t ∧ SameTimer s t

/-- TURN floats the pin and keeps its ODR bit, and RECV 0 enters next (R133, R134); RESTORE makes the pin an output at
1, and GUARD_HOLD enters next (R136). -/
def Obligations.TurnAndRestoreComplete : Prop :=
  ∀ (s : State) (axis : BitVec 4) (r : PinRef), axisPin s axis = some r →
    (s.sub = .turn →
      ∃ t, exec (.rdtxn axis) s = .next t ∧ pinMode t r = modeInFloat ∧ odrBit t r = odrBit s r
        ∧ t.sub = .poll ∧ t.j = 0 ∧ t.k = 0 ∧ t.err = s.err
        ∧ SamePinsBut r s t ∧ SameHostSide s t ∧ SameTimer s t ∧ SameOutputs s t ∧ SameBytes s t)
      ∧ (s.sub = .restore →
        ∃ t, exec (.rdtxn axis) s = .next t ∧ pinMode t r = modeOutPp ∧ odrBit t r = true ∧ line t r = true
          ∧ t.sub = .guardStart ∧ t.err = s.err
          ∧ SamePinsBut r s t ∧ SameHostSide s t ∧ SameTimer s t ∧ SameOutputs s t ∧ SameBytes s t)

/-- A cycle of the reception of a reply byte after its detection, `x` cycles after T0: SH[q] takes the line if
x = BP + HALF + q*BP, and no other bit changes; before the last cycle nothing else happens; in the last one RX[K] is SH
with that cycle's sample, no other byte changes, and the next RECV enters, or RESTORE behind the last byte (R114-R116,
R134). -/
def Obligations.ReplyByteIsStored : Prop :=
  ∀ (s : State) (axis : BitVec 4) (r : PinRef),
    s.sub = .data → axisPin s axis = some r → sinceT0 s + 1 < 2 ^ 31 →
      ∃ t, exec (.rdtxn axis) s = .next t
        ∧ (∀ q, q < 8 → t.sh.getLsbD q =
            if sinceT0 s = bp s + half s + q * bp s then line s r else s.sh.getLsbD q)
        ∧ (sinceT0 s + 1 < 9 * bp s + 2 * half s →
            t.sub = .data ∧ t.busy = true ∧ t.k = s.k ∧ t.t0 = s.t0 ∧ SameBytes s t)
        ∧ (9 * bp s + 2 * half s ≤ sinceT0 s + 1 →
            rxByte t s.k = some t.sh ∧ SameBytesBut [rxBase + s.k] s t ∧ t.k = s.k + 1
              ∧ (s.k + 1 < s.cfg.params.replyLen → t.sub = .poll ∧ t.j = 0)
              ∧ (s.cfg.params.replyLen ≤ s.k + 1 → t.sub = .restore))
        ∧ t.tout = s.tout ∧ t.err = s.err ∧ SamePins s t ∧ SameHostSide s t ∧ SameTimer s t ∧ SameOutputs s t

/-- Poll J of a reply byte: the level 0 is the start bit and captures T0; the level 1 goes on to the next poll, and at
the last of RX_TIMEOUT polls it is the timeout: the bytes of the failure field become 0xFF, TOUT is set and RESTORE
enters, whatever bytes came before; every other buffer byte keeps its value, unwritten or not (R111-R113, R135). -/
def Obligations.ReplyTimeoutSetsTheFailureField : Prop :=
  ∀ (s : State) (axis : BitVec 4) (r : PinRef),
    s.sub = .poll → axisPin s axis = some r →
      ∃ t, exec (.rdtxn axis) s = .next t
        ∧ (line s r = false →
            t.sub = .data ∧ t.busy = true ∧ t.t0 = s.cyccnt ∧ t.tout = s.tout ∧ SameBytes s t)
        ∧ (line s r = true → s.j + 1 < s.cfg.params.rxTimeout →
            t.sub = .poll ∧ t.busy = true ∧ t.j = s.j + 1 ∧ t.tout = s.tout ∧ SameBytes s t)
        ∧ (line s r = true → s.cfg.params.rxTimeout ≤ s.j + 1 →
            t.tout = true ∧ t.sub = .restore
              ∧ (∀ f, f < s.cfg.params.failLen → rxByte t (s.cfg.params.failOff + f) = some 0xFF)
              ∧ ∀ a,
                ¬ (rxBase + s.cfg.params.failOff ≤ a ∧ a < rxBase + s.cfg.params.failOff + s.cfg.params.failLen) →
                  Memory.read t.mem a = Memory.read s.mem a)
        ∧ t.k = s.k ∧ t.sh = s.sh ∧ t.err = s.err ∧ SamePins s t ∧ SameHostSide s t ∧ SameTimer s t ∧ SameOutputs s t

/-- A whole write transaction over written bytes takes 1 + 10*BP*WRITE_LEN + GUARD cycles; IRQ_SUPPRESS is 1 in every
one of them after the first and 0 when it has retired with OK; the pin ends an output at 1, TXBUF holds the fixed-up
datagram, RESULT and RXBUF are untouched (R129, R137, R139, R140). -/
def Obligations.WriteTransactionRuns : Prop :=
  ∀ (s : State) (axis : BitVec 4) (r : PinRef),
    s.sub = .entry → decode s.cmd = .ok (.wrtxn axis) → axisPin s axis = some r → s.cycEn = true →
      (∀ k, k < s.cfg.params.writeLen - 1 → (txByte s k).isSome = true) →
        QuietFor (1 + 10 * bp s * s.cfg.params.writeLen + guardCycles s) s →
          (∀ n, 1 ≤ n → n < 1 + 10 * bp s * s.cfg.params.writeLen + guardCycles s →
              ∃ t, cycles n s = .next t ∧ t.busy = true ∧ t.irqSuppress = true)
            ∧ ∃ t u, cycles (1 + 10 * bp s * s.cfg.params.writeLen + guardCycles s) s = .next t
                ∧ Retired .ok t ∧ t.irqSuppress = false ∧ pinMode t r = modeOutPp ∧ odrBit t r = true
                ∧ fix s s.cfg.params.writeLen = some u ∧ SameBytes u t ∧ t.result = s.result

/-- The wire of a write transaction: the line is 1 in cycle e + 1, and byte k of the fixed-up datagram occupies line
cycles e + 2 + 10*BP*k to e + 1 + 10*BP*(k + 1), frame bit m for BP cycles each, back to back (R54, R131, R175). -/
def Obligations.WriteTransactionWire : Prop :=
  ∀ (s : State) (axis : BitVec 4) (r : PinRef),
    s.sub = .entry → decode s.cmd = .ok (.wrtxn axis) → axisPin s axis = some r → s.cycEn = true →
      (∀ k, k < s.cfg.params.writeLen - 1 → (txByte s k).isSome = true) →
        QuietFor (1 + 10 * bp s * s.cfg.params.writeLen + guardCycles s) s →
          (∃ t, cycles 1 s = .next t ∧ line t r = true)
            ∧ ∃ u, fix s s.cfg.params.writeLen = some u
              ∧ ∀ k, k < s.cfg.params.writeLen → ∃ b, txByte u k = some b
                ∧ ∀ m c, m < 10 → c < bp s →
                    ∃ t, cycles (2 + 10 * bp s * k + m * bp s + c) s = .next t ∧ line t r = frameBit b m

/-- A read transaction whose reply stops after `n` bytes, n < REPLY_LEN, n = 0 included: the bytes before arrive as in
ReadTransactionDeliversTheReply, and the line is 1 at every poll of the RECV of byte n. It retires with RX_TIMEOUT
RX_TIMEOUT + 1 + GUARD cycles after that RECV's entry, after the restore and the guard, IRQ_SUPPRESS released. The
failure field is 0xFF, even over bytes received; outside it RX[k] is `b k` for k < n and as it was for the others (R129,
R135, R138, R139, R146). -/
def Obligations.ReadTransactionTimesOut : Prop :=
  ∀ (s : State) (axis : BitVec 4) (r : PinRef) (gap : Nat → Nat) (b : Nat → Byte) (n : Nat),
    s.sub = .entry → decode s.cmd = .ok (.rdtxn axis) → axisPin s axis = some r → s.cycEn = true →
      (∀ k, k < s.cfg.params.reqLen - 1 → (txByte s k).isSome = true) → n < s.cfg.params.replyLen →
        QuietFor (replyEntry s gap n + s.cfg.params.rxTimeout + 1 + guardCycles s) s →
          (∀ k, k < n → ByteArrives s r gap k (b k)) →
            (∀ m, m < s.cfg.params.rxTimeout → envLater s (replyEntry s gap n + m) r = true) →
              (∀ c, 1 ≤ c → c < replyEntry s gap n + s.cfg.params.rxTimeout + 1 + guardCycles s →
                  ∃ t, cycles c s = .next t ∧ t.busy = true ∧ t.irqSuppress = true)
                ∧ ∃ t, cycles (replyEntry s gap n + s.cfg.params.rxTimeout + 1 + guardCycles s) s = .next t
                    ∧ Retired .rxTimeout t ∧ t.irqSuppress = false ∧ pinMode t r = modeOutPp ∧ odrBit t r = true
                    ∧ t.result = s.result
                    ∧ ∀ k, k < 8 → rxByte t k =
                        if s.cfg.params.failOff ≤ k ∧ k < s.cfg.params.failOff + s.cfg.params.failLen then some 0xFF
                        else if k < n then some (b k)
                        else rxByte s k

/-- A read transaction whose every reply byte arrives: byte k's start bit is the poll `gap k` of its RECV, and the
start bit and the eight data bits of `b k` follow at BP cycles each. It retires with OK, RX[k] is `b k` for every
k < REPLY_LEN and the other RX bytes are as they were; IRQ_SUPPRESS is 1 from the cycle after the entry until the
guard has passed (R129, R134, R136, R138, R139). -/
def Obligations.ReadTransactionDeliversTheReply : Prop :=
  ∀ (s : State) (axis : BitVec 4) (r : PinRef) (gap : Nat → Nat) (b : Nat → Byte),
    s.sub = .entry → decode s.cmd = .ok (.rdtxn axis) → axisPin s axis = some r → s.cycEn = true →
      (∀ k, k < s.cfg.params.reqLen - 1 → (txByte s k).isSome = true) →
        QuietFor (replyEntry s gap s.cfg.params.replyLen + 1 + guardCycles s) s →
          (∀ k, k < s.cfg.params.replyLen → ByteArrives s r gap k (b k)) →
            (∀ n, 1 ≤ n → n < replyEntry s gap s.cfg.params.replyLen + 1 + guardCycles s →
                ∃ t, cycles n s = .next t ∧ t.busy = true ∧ t.irqSuppress = true)
              ∧ ∃ t, cycles (replyEntry s gap s.cfg.params.replyLen + 1 + guardCycles s) s = .next t
                  ∧ Retired .ok t ∧ t.irqSuppress = false ∧ pinMode t r = modeOutPp ∧ odrBit t r = true
                  ∧ t.result = s.result
                  ∧ ∀ k, k < 8 → rxByte t k = if k < s.cfg.params.replyLen then some (b k) else rxByte s k

/-! ## Parameters -/

/-- BP is CLOCK_HZ/BAUD rounded to the nearest integer, an exact half up, HALF is floor(BP/2), the reference pair gives
3750 and 1875, and every configuration has 1 <= BP and 10*BP < 2^31 (R7, R8). -/
def Obligations.BitPeriodIsNearest : Prop :=
  (∀ p : Params, 1 ≤ p.baud →
      2 * p.clockHz < (2 * p.bp + 1) * p.baud ∧ 2 * p.bp * p.baud ≤ 2 * p.clockHz + p.baud
        ∧ p.half * 2 ≤ p.bp ∧ p.bp ≤ p.half * 2 + 1)
    ∧ (∀ p : Params, p.clockHz = 72000000 → p.baud = 19200 → p.bp = 3750 ∧ p.half = 1875)
    ∧ ∀ c : Config, 1 ≤ c.params.bp ∧ 10 * c.params.bp < 2 ^ 31
end

