-- ==== Sys2Proof/Laws/Bits.lean ====
section
/-! SUPPORT. What the bit and field operations do: putBit, getField, putField, warl. -/

namespace Sys2Proof.Machine

/-- Bit `n` of a word with bit `i` set to `b`. -/
theorem getLsbD_putBit {w : Nat} (x : BitVec w) (i n : Nat) (b : Bool) (hn : n < w) :
    (putBit x i b).getLsbD n = if n = i then b else x.getLsbD n := by
  unfold putBit
  by_cases h : n = i
  · subst h; cases b <;> simp [hn]
  · cases b
    · simp only [Bool.false_eq_true, if_false, BitVec.getLsbD_and, BitVec.getLsbD_not, BitVec.getLsbD_shiftLeft,
        BitVec.getLsbD_one, h]
      by_cases h2 : n < i
      · simp [h2, hn]
      · have : n - i ≠ 0 := by omega
        simp [h2, hn, this]
    · simp only [if_true, BitVec.getLsbD_or, BitVec.getLsbD_shiftLeft, BitVec.getLsbD_one, h, if_false]
      by_cases h2 : n < i
      · simp [h2]
      · have : n - i ≠ 0 := by omega
        simp [h2, this]

/-- Bit `n` of a CFG word with field `i` set to `m` (R36). -/
theorem getLsbD_putField (x : Word) (i n : Nat) (m : BitVec 4) (hn : n < 32) :
    (putField x i m).getLsbD n = if 4 * i ≤ n ∧ n < 4 * i + 4 then m.getLsbD (n - 4 * i) else x.getLsbD n := by
  unfold putField
  have h15 : ∀ k, (0xF#32).getLsbD k = decide (k < 4) := by
    intro k
    by_cases hk : k < 4
    · interval_cases k <;> rfl
    · rw [BitVec.getLsbD_eq_getElem?_getD]
      by_cases h32 : k < 32
      · have : 4 ≤ k := by omega
        interval_cases k <;> rfl
      · simp [h32, hk]
  simp only [BitVec.getLsbD_or, BitVec.getLsbD_and, BitVec.getLsbD_not, BitVec.getLsbD_shiftLeft, h15,
    BitVec.getLsbD_setWidth]
  by_cases h1 : 4 * i ≤ n
  · by_cases h2 : n < 4 * i + 4
    · have h3 : n - 4 * i < 4 := by omega
      simp [hn, h1, h2, h3, show ¬ n < 4 * i by omega, show n - 4 * i < 32 by omega]
    · have h3 : ¬ n - 4 * i < 4 := by omega
      simp [hn, h1, h2, h3, show ¬ n < 4 * i by omega, BitVec.getLsbD_of_ge m (n - 4 * i) (by omega)]
  · simp [hn, h1, show n < 4 * i by omega]

/-- Bit `n` of a mode field (R36). -/
theorem getLsbD_getField (x : Word) (i n : Nat) (hn : n < 4) : (getField x i).getLsbD n = x.getLsbD (4 * i + n) := by
  simp [getField, hn]

/-- A mode field reads back what was put there (R36). -/
theorem getField_putField_same (x : Word) (i : Nat) (m : BitVec 4) (hi : i < 8) :
    getField (putField x i m) i = m := by
  apply BitVec.eq_of_getLsbD_eq
  intro n hn
  rw [getLsbD_getField _ _ _ hn, getLsbD_putField _ _ _ _ (by omega), if_pos (by omega)]
  congr 1; omega

/-- Putting one mode field leaves the others (R36). -/
theorem getField_putField_ne (x : Word) (i k : Nat) (m : BitVec 4) (hk : k < 8) (h : k ≠ i) :
    getField (putField x i m) k = getField x k := by
  apply BitVec.eq_of_getLsbD_eq
  intro n hn
  rw [getLsbD_getField _ _ _ hn, getLsbD_getField _ _ _ hn, getLsbD_putField _ _ _ _ (by omega), if_neg (by omega)]

/-- Write-any-read-legal up to field `n`: the loop of `warl`, by its length. -/
theorem getField_warl_loop (old new : Word) (n i : Nat) (hn : n ≤ 8) (hi : i < 8) :
    getField ((List.range n).foldl
        (fun acc f => if legalMode (getField new f) then putField acc f (getField new f) else acc) old) i
      = if i < n ∧ legalMode (getField new i) then getField new i else getField old i := by
  induction n with
  | zero => simp
  | succ n ih =>
    rw [List.range_succ, List.foldl_append]
    simp only [List.foldl_cons, List.foldl_nil]
    have ih := ih (by omega)
    by_cases hl : legalMode (getField new n)
    · rw [if_pos hl]
      by_cases h : i = n
      · subst h
        rw [getField_putField_same _ _ _ hi, if_pos ⟨by omega, hl⟩]
      · rw [getField_putField_ne _ _ _ _ hi h, ih]
        exact if_congr (by constructor <;> rintro ⟨a, b⟩ <;> exact ⟨by omega, b⟩) rfl rfl
    · rw [if_neg hl, ih]
      by_cases h : i = n
      · subst h
        rw [if_neg (by omega), if_neg (fun c => hl c.2)]
      · exact if_congr (by constructor <;> rintro ⟨a, b⟩ <;> exact ⟨by omega, b⟩) rfl rfl

/-- Write-any-read-legal, field by field (R95). -/
theorem getField_warl (old new : Word) (i : Nat) (hi : i < 8) :
    getField (warl old new) i = if legalMode (getField new i) then getField new i else getField old i := by
  rw [warl, getField_warl_loop _ _ 8 i (by omega) hi]
  simp [hi]

end Sys2Proof.Machine
end

