-- ==== Sys2Proof/Laws/Config.lean ====
section
/-! SUPPORT. What an admitted configuration guarantees (R6, R7, R9, R12-R17). -/

namespace Sys2Proof

/-- The constraints on numbers, all at once. -/
theorem Config.constraints (c : Config) :
    1 ≤ c.params.clockHz ∧ 1 ≤ c.params.baud ∧ 1 ≤ c.params.bp ∧ 10 * c.params.bp < 2 ^ 31
      ∧ 2 ≤ c.params.writeLen ∧ c.params.writeLen ≤ 8 ∧ 2 ≤ c.params.reqLen ∧ c.params.reqLen ≤ 8
      ∧ 1 ≤ c.params.replyLen ∧ c.params.replyLen ≤ 8
      ∧ c.params.slaveIdx + 2 ≤ min c.params.writeLen c.params.reqLen
      ∧ 1 ≤ c.params.failLen ∧ c.params.failOff + c.params.failLen ≤ c.params.replyLen
      ∧ 1 ≤ c.params.rxTimeout ∧ c.params.rxTimeout < 2 ^ 31
      ∧ 1 ≤ c.params.guardBits ∧ c.params.guard < 2 ^ 31
      ∧ 1 ≤ c.params.nPorts ∧ c.params.nPorts ≤ 8 ∧ c.params.base % 0x1000 = 0 := by
  have h := c.ok
  simp only [Params.ok, Bool.and_eq_true, decide_eq_true_eq] at h
  omega

/-- Every mapped axis names an existing port (R15). -/
theorem Config.axes (c : Config) :
    ∀ m ∈ c.params.axisMap.toList, ∀ r, m = some r → r.port.toNat < c.params.nPorts := by
  have h := c.ok
  simp only [Params.ok, Bool.and_eq_true, List.all_eq_true] at h
  intro m hm r hr
  have := h.1.2 m hm
  rw [hr] at this
  simpa using this

theorem Config.bp_pos (c : Config) : 1 ≤ c.params.bp := by have h := c.constraints; omega

theorem Config.bp_lt (c : Config) : 10 * c.params.bp < 2 ^ 31 := by have h := c.constraints; omega

/-- HALF is below BP (R8, R119). -/
theorem Config.half_lt (c : Config) : c.params.half < c.params.bp := by
  have := c.bp_pos
  unfold Params.half
  omega

/-- Two halves are at most a bit period (R8). -/
theorem Config.two_half_le (c : Config) : 2 * c.params.half ≤ c.params.bp := by
  unfold Params.half
  omega

theorem Config.guard_pos (c : Config) : 1 ≤ c.params.guard := by
  have h1 := c.bp_pos
  have h2 : 1 ≤ c.params.guardBits := by have h := c.constraints; omega
  exact Nat.mul_pos h2 h1

theorem Config.guard_lt (c : Config) : c.params.guard < 2 ^ 31 := by have h := c.constraints; omega

theorem Config.rxTimeout_pos (c : Config) : 1 ≤ c.params.rxTimeout := by have h := c.constraints; omega

/-- Both datagrams have 2 to 8 bytes, and the slave byte lies before the check byte (R9). -/
theorem Config.layout (c : Config) :
    2 ≤ c.params.writeLen ∧ c.params.writeLen ≤ 8 ∧ 2 ≤ c.params.reqLen ∧ c.params.reqLen ≤ 8
      ∧ c.params.slaveIdx + 2 ≤ c.params.writeLen ∧ c.params.slaveIdx + 2 ≤ c.params.reqLen := by
  have h := c.constraints
  omega

/-- The reply and its failure field fit the receive buffer (R9, R12). -/
theorem Config.reply (c : Config) :
    1 ≤ c.params.replyLen ∧ c.params.replyLen ≤ 8 ∧ 1 ≤ c.params.failLen
      ∧ c.params.failOff + c.params.failLen ≤ c.params.replyLen := by
  have h := c.constraints
  omega

/-- N_PORTS is 1 to 8 (R16). -/
theorem Config.ports (c : Config) : 1 ≤ c.params.nPorts ∧ c.params.nPorts ≤ 8 := by
  have h := c.constraints
  omega

/-- A mapped axis names an existing port (R15). -/
theorem Machine.axisPin_port {s : Machine.State} {axis : BitVec 4} {r : PinRef}
    (h : Machine.axisPin s axis = some r) : r.port.toNat < s.cfg.params.nPorts := by
  refine s.cfg.axes _ ?_ r h
  unfold Machine.axisPin at h
  rw [Vector.mem_toList_iff]
  exact Vector.getElem_mem _

end Sys2Proof
end

