-- ==== Sys2Proof/Laws/Memory.lean ====
section
/-! SUPPORT. The laws of the buffer memory: read after write, and the canonical form every operation keeps. -/

namespace Sys2Proof.Machine

/-- A byte reads back what was written. -/
@[simp] theorem Memory.read_write_same (m : List Host.Cell) (a : Nat) (b : Byte) :
    Memory.read (Memory.write m a b) a = some b := by
  induction m with
  | nil => simp [Memory.write, Memory.read]
  | cons c rest ih =>
    obtain ⟨x, v⟩ := c
    unfold Memory.write
    split
    · simp [Memory.read]
    · split
      · simp [Memory.read]
      · rename_i h1 h2
        simp [Memory.read, ih, Ne.symm h2]

/-- A write leaves every other byte. -/
theorem Memory.read_write_ne (m : List Host.Cell) (a c : Nat) (b : Byte) (h : c ≠ a) :
    Memory.read (Memory.write m a b) c = Memory.read m c := by
  induction m with
  | nil => simp [Memory.write, Memory.read, Ne.symm h]
  | cons p rest ih =>
    obtain ⟨x, v⟩ := p
    unfold Memory.write
    split
    · simp [Memory.read, Ne.symm h]
    · split
      · rename_i h1 h2; subst h2; simp [Memory.read, Ne.symm h]
      · simp [Memory.read, ih]

/-- A read after a write, in one line. -/
theorem Memory.read_write (m : List Host.Cell) (a c : Nat) (b : Byte) :
    Memory.read (Memory.write m a b) c = if c = a then some b else Memory.read m c := by
  by_cases h : c = a
  · subst h; simp
  · rw [Memory.read_write_ne _ _ _ _ h, if_neg h]

/-- Writing the same byte twice is writing the second. -/
theorem Memory.write_write_same (m : List Host.Cell) (a : Nat) (b c : Byte) :
    Memory.write (Memory.write m a b) a c = Memory.write m a c := by
  induction m with
  | nil => simp [Memory.write]
  | cons p rest ih =>
    obtain ⟨x, v⟩ := p
    by_cases h1 : a < x
    · simp [Memory.write, h1]
    · by_cases h2 : a = x
      · subst h2; simp [Memory.write]
      · simp [Memory.write, h1, h2, ih]

/-- Offsets that rise from a point rise from any earlier one. -/
theorem Memory.risingFrom_mono {lo lo' : Nat} {m : List Host.Cell} (h : lo' ≤ lo)
    (hm : Memory.risingFrom lo m = true) : Memory.risingFrom lo' m = true := by
  cases m with
  | nil => rfl
  | cons p rest =>
    obtain ⟨x, v⟩ := p
    simp only [Memory.risingFrom, Bool.and_eq_true, decide_eq_true_eq] at hm ⊢
    exact ⟨by omega, hm.2⟩

/-- A write at or above the lower bound keeps the offsets rising. -/
theorem Memory.risingFrom_write {lo : Nat} {m : List Host.Cell} (a : Nat) (b : Byte) (h : lo ≤ a)
    (hm : Memory.risingFrom lo m = true) : Memory.risingFrom lo (Memory.write m a b) = true := by
  induction m generalizing lo with
  | nil => simp [Memory.write, Memory.risingFrom, h]
  | cons p rest ih =>
    obtain ⟨x, v⟩ := p
    simp only [Memory.risingFrom, Bool.and_eq_true, decide_eq_true_eq] at hm
    unfold Memory.write
    split
    · simp only [Memory.risingFrom, Bool.and_eq_true, decide_eq_true_eq]
      exact ⟨h, by omega, hm.2⟩
    · split
      · rename_i h1 h2; subst h2
        simp only [Memory.risingFrom, Bool.and_eq_true, decide_eq_true_eq]
        exact ⟨h, hm.2⟩
      · simp only [Memory.risingFrom, Bool.and_eq_true, decide_eq_true_eq]
        exact ⟨hm.1, ih (by omega) hm.2⟩

/-- A write adds no offset but its own. -/
theorem Memory.all_lt_write {m : List Host.Cell} {hi : Nat} (a : Nat) (b : Byte) (h : a < hi)
    (hm : m.all (fun c => decide (c.1 < hi)) = true) :
    (Memory.write m a b).all (fun c => decide (c.1 < hi)) = true := by
  induction m with
  | nil => simp [Memory.write, h]
  | cons p rest ih =>
    obtain ⟨x, v⟩ := p
    simp only [List.all_cons, Bool.and_eq_true, decide_eq_true_eq] at hm
    unfold Memory.write
    split
    · simp only [List.all_cons, Bool.and_eq_true, decide_eq_true_eq]; exact ⟨h, hm⟩
    · split
      · simp only [List.all_cons, Bool.and_eq_true, decide_eq_true_eq]; exact ⟨h, hm.2⟩
      · simp only [List.all_cons, Bool.and_eq_true, decide_eq_true_eq]; exact ⟨hm.1, ih hm.2⟩

/-- Every write to a buffer byte keeps the canonical form. -/
theorem Memory.wf_write {m : List Host.Cell} (a : Nat) (b : Byte) (h1 : txBase ≤ a) (h2 : a < rxBase + 8)
    (hm : Memory.wf m = true) : Memory.wf (Memory.write m a b) = true := by
  simp only [Memory.wf, Bool.and_eq_true] at hm ⊢
  exact ⟨Memory.risingFrom_write a b h1 hm.1, Memory.all_lt_write a b h2 hm.2⟩

/-- The memory after reset is in canonical form. -/
theorem Memory.wf_reset : Memory.wf State.reset.mem = true := rfl

/-- In a memory whose offsets rise from `lo`, no byte below `lo` is written. -/
theorem Memory.read_eq_none_of_lt {lo : Nat} {m : List Host.Cell} (a : Nat) (h : a < lo)
    (hm : Memory.risingFrom lo m = true) : Memory.read m a = none := by
  induction m generalizing lo with
  | nil => rfl
  | cons p rest ih =>
    obtain ⟨x, v⟩ := p
    simp only [Memory.risingFrom, Bool.and_eq_true, decide_eq_true_eq] at hm
    rw [Memory.read, if_neg (by omega)]
    exact ih (lo := x + 1) (by omega) hm.2

/-- Canonical memories that read alike everywhere are equal. -/
theorem Memory.eq_of_read_eq {lo lo' : Nat} {m m' : List Host.Cell} (hm : Memory.risingFrom lo m = true)
    (hm' : Memory.risingFrom lo' m' = true) (h : ∀ a, Memory.read m a = Memory.read m' a) : m = m' := by
  induction m generalizing lo lo' m' with
  | nil =>
    cases m' with
    | nil => rfl
    | cons p _ => simpa [Memory.read] using h p.1
  | cons p rest ih =>
    obtain ⟨x, v⟩ := p
    cases m' with
    | nil => simpa [Memory.read] using h x
    | cons q rest' =>
      obtain ⟨y, u⟩ := q
      simp only [Memory.risingFrom, Bool.and_eq_true, decide_eq_true_eq] at hm hm'
      have hxy : x = y := by
        rcases Nat.lt_trichotomy x y with hlt | heq | hlt
        · have := h x
          rw [Memory.read, if_pos rfl, Memory.read, if_neg (by omega),
            Memory.read_eq_none_of_lt x (by omega) hm'.2] at this
          simp at this
        · exact heq
        · have := h y
          rw [Memory.read, if_neg (by omega), Memory.read_eq_none_of_lt y (by omega) hm.2, Memory.read,
            if_pos rfl] at this
          simp at this
      subst hxy
      have hv : v = u := by have := h x; simpa [Memory.read] using this
      subst hv
      congr 1
      refine ih hm.2 hm'.2 fun a => ?_
      by_cases ha : a = x
      · subst ha
        rw [Memory.read_eq_none_of_lt a (by omega) hm.2, Memory.read_eq_none_of_lt a (by omega) hm'.2]
      · have := h a
        simpa [Memory.read, Ne.symm ha] using this

/-- TX[k] after a write of TX[i]. -/
theorem txByte_setTx (s : State) (i k : Nat) (b : Byte) :
    txByte (setTx s i b) k = if k = i then some b else txByte s k := by
  show Memory.read (Memory.write s.mem (txBase + i) b) (txBase + k) = _
  rw [Memory.read_write]
  exact if_congr (by omega) rfl rfl

/-- RX[k] after a write of RX[i]. -/
theorem rxByte_setRx (s : State) (i k : Nat) (b : Byte) :
    rxByte (setRx s i b) k = if k = i then some b else rxByte s k := by
  show Memory.read (Memory.write s.mem (rxBase + i) b) (rxBase + k) = _
  rw [Memory.read_write]
  exact if_congr (by omega) rfl rfl

end Sys2Proof.Machine
end

