-- ==== Sys2Proof/Laws/State.lean ====
section
/-! SUPPORT. The named updates of the state, field by field: what each leaves and what it writes. -/

namespace Sys2Proof.Machine

/-! ### State.setMem -/

@[simp] theorem State.setMem_cfg (s : State) (a : Nat) (b : Byte) : (s.setMem a b).cfg = s.cfg := rfl
@[simp] theorem State.setMem_cmd (s : State) (a : Nat) (b : Byte) : (s.setMem a b).cmd = s.cmd := rfl
@[simp] theorem State.setMem_arg (s : State) (a : Nat) (b : Byte) : (s.setMem a b).arg = s.arg := rfl
@[simp] theorem State.setMem_result (s : State) (a : Nat) (b : Byte) : (s.setMem a b).result = s.result := rfl
@[simp] theorem State.setMem_ovr (s : State) (a : Nat) (b : Byte) : (s.setMem a b).ovr = s.ovr := rfl
@[simp] theorem State.setMem_err (s : State) (a : Nat) (b : Byte) : (s.setMem a b).err = s.err := rfl
@[simp] theorem State.setMem_cyccnt (s : State) (a : Nat) (b : Byte) : (s.setMem a b).cyccnt = s.cyccnt := rfl
@[simp] theorem State.setMem_cycEn (s : State) (a : Nat) (b : Byte) : (s.setMem a b).cycEn = s.cycEn := rfl
@[simp] theorem State.setMem_irqSuppress (s : State) (a : Nat) (b : Byte) : (s.setMem a b).irqSuppress = s.irqSuppress := rfl
@[simp] theorem State.setMem_mem (s : State) (a : Nat) (b : Byte) : (s.setMem a b).mem = Memory.write s.mem a b := rfl
@[simp] theorem State.setMem_ports (s : State) (a : Nat) (b : Byte) : (s.setMem a b).ports = s.ports := rfl
@[simp] theorem State.setMem_sub (s : State) (a : Nat) (b : Byte) : (s.setMem a b).sub = s.sub := rfl
@[simp] theorem State.setMem_t0 (s : State) (a : Nat) (b : Byte) : (s.setMem a b).t0 = s.t0 := rfl
@[simp] theorem State.setMem_txb (s : State) (a : Nat) (b : Byte) : (s.setMem a b).txb = s.txb := rfl
@[simp] theorem State.setMem_k (s : State) (a : Nat) (b : Byte) : (s.setMem a b).k = s.k := rfl
@[simp] theorem State.setMem_j (s : State) (a : Nat) (b : Byte) : (s.setMem a b).j = s.j := rfl
@[simp] theorem State.setMem_sh (s : State) (a : Nat) (b : Byte) : (s.setMem a b).sh = s.sh := rfl
@[simp] theorem State.setMem_tout (s : State) (a : Nat) (b : Byte) : (s.setMem a b).tout = s.tout := rfl
@[simp] theorem State.setMem_rdata (s : State) (a : Nat) (b : Byte) : (s.setMem a b).rdata = s.rdata := rfl
@[simp] theorem State.setMem_inputs (s : State) (a : Nat) (b : Byte) : (s.setMem a b).inputs = s.inputs := rfl
@[simp] theorem State.setMem_cycle (s : State) (a : Nat) (b : Byte) : (s.setMem a b).cycle = s.cycle := rfl

/-! ### State.setPort -/

@[simp] theorem State.setPort_cfg (s : State) (p : BitVec 3) (x : Port) : (s.setPort p x).cfg = s.cfg := rfl
@[simp] theorem State.setPort_cmd (s : State) (p : BitVec 3) (x : Port) : (s.setPort p x).cmd = s.cmd := rfl
@[simp] theorem State.setPort_arg (s : State) (p : BitVec 3) (x : Port) : (s.setPort p x).arg = s.arg := rfl
@[simp] theorem State.setPort_result (s : State) (p : BitVec 3) (x : Port) : (s.setPort p x).result = s.result := rfl
@[simp] theorem State.setPort_ovr (s : State) (p : BitVec 3) (x : Port) : (s.setPort p x).ovr = s.ovr := rfl
@[simp] theorem State.setPort_err (s : State) (p : BitVec 3) (x : Port) : (s.setPort p x).err = s.err := rfl
@[simp] theorem State.setPort_cyccnt (s : State) (p : BitVec 3) (x : Port) : (s.setPort p x).cyccnt = s.cyccnt := rfl
@[simp] theorem State.setPort_cycEn (s : State) (p : BitVec 3) (x : Port) : (s.setPort p x).cycEn = s.cycEn := rfl
@[simp] theorem State.setPort_irqSuppress (s : State) (p : BitVec 3) (x : Port) : (s.setPort p x).irqSuppress = s.irqSuppress := rfl
@[simp] theorem State.setPort_mem (s : State) (p : BitVec 3) (x : Port) : (s.setPort p x).mem = s.mem := rfl
@[simp] theorem State.setPort_sub (s : State) (p : BitVec 3) (x : Port) : (s.setPort p x).sub = s.sub := rfl
@[simp] theorem State.setPort_t0 (s : State) (p : BitVec 3) (x : Port) : (s.setPort p x).t0 = s.t0 := rfl
@[simp] theorem State.setPort_txb (s : State) (p : BitVec 3) (x : Port) : (s.setPort p x).txb = s.txb := rfl
@[simp] theorem State.setPort_k (s : State) (p : BitVec 3) (x : Port) : (s.setPort p x).k = s.k := rfl
@[simp] theorem State.setPort_j (s : State) (p : BitVec 3) (x : Port) : (s.setPort p x).j = s.j := rfl
@[simp] theorem State.setPort_sh (s : State) (p : BitVec 3) (x : Port) : (s.setPort p x).sh = s.sh := rfl
@[simp] theorem State.setPort_tout (s : State) (p : BitVec 3) (x : Port) : (s.setPort p x).tout = s.tout := rfl
@[simp] theorem State.setPort_rdata (s : State) (p : BitVec 3) (x : Port) : (s.setPort p x).rdata = s.rdata := rfl
@[simp] theorem State.setPort_inputs (s : State) (p : BitVec 3) (x : Port) : (s.setPort p x).inputs = s.inputs := rfl
@[simp] theorem State.setPort_cycle (s : State) (p : BitVec 3) (x : Port) : (s.setPort p x).cycle = s.cycle := rfl

/-! ### setTx -/

@[simp] theorem setTx_cfg (s : State) (i : Nat) (b : Byte) : (setTx s i b).cfg = s.cfg := rfl
@[simp] theorem setTx_cmd (s : State) (i : Nat) (b : Byte) : (setTx s i b).cmd = s.cmd := rfl
@[simp] theorem setTx_arg (s : State) (i : Nat) (b : Byte) : (setTx s i b).arg = s.arg := rfl
@[simp] theorem setTx_result (s : State) (i : Nat) (b : Byte) : (setTx s i b).result = s.result := rfl
@[simp] theorem setTx_ovr (s : State) (i : Nat) (b : Byte) : (setTx s i b).ovr = s.ovr := rfl
@[simp] theorem setTx_err (s : State) (i : Nat) (b : Byte) : (setTx s i b).err = s.err := rfl
@[simp] theorem setTx_cyccnt (s : State) (i : Nat) (b : Byte) : (setTx s i b).cyccnt = s.cyccnt := rfl
@[simp] theorem setTx_cycEn (s : State) (i : Nat) (b : Byte) : (setTx s i b).cycEn = s.cycEn := rfl
@[simp] theorem setTx_irqSuppress (s : State) (i : Nat) (b : Byte) : (setTx s i b).irqSuppress = s.irqSuppress := rfl
@[simp] theorem setTx_mem (s : State) (i : Nat) (b : Byte) : (setTx s i b).mem = Memory.write s.mem (txBase + i) b := rfl
@[simp] theorem setTx_ports (s : State) (i : Nat) (b : Byte) : (setTx s i b).ports = s.ports := rfl
@[simp] theorem setTx_sub (s : State) (i : Nat) (b : Byte) : (setTx s i b).sub = s.sub := rfl
@[simp] theorem setTx_t0 (s : State) (i : Nat) (b : Byte) : (setTx s i b).t0 = s.t0 := rfl
@[simp] theorem setTx_txb (s : State) (i : Nat) (b : Byte) : (setTx s i b).txb = s.txb := rfl
@[simp] theorem setTx_k (s : State) (i : Nat) (b : Byte) : (setTx s i b).k = s.k := rfl
@[simp] theorem setTx_j (s : State) (i : Nat) (b : Byte) : (setTx s i b).j = s.j := rfl
@[simp] theorem setTx_sh (s : State) (i : Nat) (b : Byte) : (setTx s i b).sh = s.sh := rfl
@[simp] theorem setTx_tout (s : State) (i : Nat) (b : Byte) : (setTx s i b).tout = s.tout := rfl
@[simp] theorem setTx_rdata (s : State) (i : Nat) (b : Byte) : (setTx s i b).rdata = s.rdata := rfl
@[simp] theorem setTx_inputs (s : State) (i : Nat) (b : Byte) : (setTx s i b).inputs = s.inputs := rfl
@[simp] theorem setTx_cycle (s : State) (i : Nat) (b : Byte) : (setTx s i b).cycle = s.cycle := rfl

/-! ### setRx -/

@[simp] theorem setRx_cfg (s : State) (i : Nat) (b : Byte) : (setRx s i b).cfg = s.cfg := rfl
@[simp] theorem setRx_cmd (s : State) (i : Nat) (b : Byte) : (setRx s i b).cmd = s.cmd := rfl
@[simp] theorem setRx_arg (s : State) (i : Nat) (b : Byte) : (setRx s i b).arg = s.arg := rfl
@[simp] theorem setRx_result (s : State) (i : Nat) (b : Byte) : (setRx s i b).result = s.result := rfl
@[simp] theorem setRx_ovr (s : State) (i : Nat) (b : Byte) : (setRx s i b).ovr = s.ovr := rfl
@[simp] theorem setRx_err (s : State) (i : Nat) (b : Byte) : (setRx s i b).err = s.err := rfl
@[simp] theorem setRx_cyccnt (s : State) (i : Nat) (b : Byte) : (setRx s i b).cyccnt = s.cyccnt := rfl
@[simp] theorem setRx_cycEn (s : State) (i : Nat) (b : Byte) : (setRx s i b).cycEn = s.cycEn := rfl
@[simp] theorem setRx_irqSuppress (s : State) (i : Nat) (b : Byte) : (setRx s i b).irqSuppress = s.irqSuppress := rfl
@[simp] theorem setRx_mem (s : State) (i : Nat) (b : Byte) : (setRx s i b).mem = Memory.write s.mem (rxBase + i) b := rfl
@[simp] theorem setRx_ports (s : State) (i : Nat) (b : Byte) : (setRx s i b).ports = s.ports := rfl
@[simp] theorem setRx_sub (s : State) (i : Nat) (b : Byte) : (setRx s i b).sub = s.sub := rfl
@[simp] theorem setRx_t0 (s : State) (i : Nat) (b : Byte) : (setRx s i b).t0 = s.t0 := rfl
@[simp] theorem setRx_txb (s : State) (i : Nat) (b : Byte) : (setRx s i b).txb = s.txb := rfl
@[simp] theorem setRx_k (s : State) (i : Nat) (b : Byte) : (setRx s i b).k = s.k := rfl
@[simp] theorem setRx_j (s : State) (i : Nat) (b : Byte) : (setRx s i b).j = s.j := rfl
@[simp] theorem setRx_sh (s : State) (i : Nat) (b : Byte) : (setRx s i b).sh = s.sh := rfl
@[simp] theorem setRx_tout (s : State) (i : Nat) (b : Byte) : (setRx s i b).tout = s.tout := rfl
@[simp] theorem setRx_rdata (s : State) (i : Nat) (b : Byte) : (setRx s i b).rdata = s.rdata := rfl
@[simp] theorem setRx_inputs (s : State) (i : Nat) (b : Byte) : (setRx s i b).inputs = s.inputs := rfl
@[simp] theorem setRx_cycle (s : State) (i : Nat) (b : Byte) : (setRx s i b).cycle = s.cycle := rfl

/-! ### drive -/

@[simp] theorem drive_cfg (s : State) (r : PinRef) (b : Bool) : (drive s r b).cfg = s.cfg := rfl
@[simp] theorem drive_cmd (s : State) (r : PinRef) (b : Bool) : (drive s r b).cmd = s.cmd := rfl
@[simp] theorem drive_arg (s : State) (r : PinRef) (b : Bool) : (drive s r b).arg = s.arg := rfl
@[simp] theorem drive_result (s : State) (r : PinRef) (b : Bool) : (drive s r b).result = s.result := rfl
@[simp] theorem drive_ovr (s : State) (r : PinRef) (b : Bool) : (drive s r b).ovr = s.ovr := rfl
@[simp] theorem drive_err (s : State) (r : PinRef) (b : Bool) : (drive s r b).err = s.err := rfl
@[simp] theorem drive_cyccnt (s : State) (r : PinRef) (b : Bool) : (drive s r b).cyccnt = s.cyccnt := rfl
@[simp] theorem drive_cycEn (s : State) (r : PinRef) (b : Bool) : (drive s r b).cycEn = s.cycEn := rfl
@[simp] theorem drive_irqSuppress (s : State) (r : PinRef) (b : Bool) : (drive s r b).irqSuppress = s.irqSuppress := rfl
@[simp] theorem drive_mem (s : State) (r : PinRef) (b : Bool) : (drive s r b).mem = s.mem := rfl
@[simp] theorem drive_sub (s : State) (r : PinRef) (b : Bool) : (drive s r b).sub = s.sub := rfl
@[simp] theorem drive_t0 (s : State) (r : PinRef) (b : Bool) : (drive s r b).t0 = s.t0 := rfl
@[simp] theorem drive_txb (s : State) (r : PinRef) (b : Bool) : (drive s r b).txb = s.txb := rfl
@[simp] theorem drive_k (s : State) (r : PinRef) (b : Bool) : (drive s r b).k = s.k := rfl
@[simp] theorem drive_j (s : State) (r : PinRef) (b : Bool) : (drive s r b).j = s.j := rfl
@[simp] theorem drive_sh (s : State) (r : PinRef) (b : Bool) : (drive s r b).sh = s.sh := rfl
@[simp] theorem drive_tout (s : State) (r : PinRef) (b : Bool) : (drive s r b).tout = s.tout := rfl
@[simp] theorem drive_rdata (s : State) (r : PinRef) (b : Bool) : (drive s r b).rdata = s.rdata := rfl
@[simp] theorem drive_inputs (s : State) (r : PinRef) (b : Bool) : (drive s r b).inputs = s.inputs := rfl
@[simp] theorem drive_cycle (s : State) (r : PinRef) (b : Bool) : (drive s r b).cycle = s.cycle := rfl

/-! ### setMode -/

@[simp] theorem setMode_cfg (s : State) (r : PinRef) (m : BitVec 4) : (setMode s r m).cfg = s.cfg := rfl
@[simp] theorem setMode_cmd (s : State) (r : PinRef) (m : BitVec 4) : (setMode s r m).cmd = s.cmd := rfl
@[simp] theorem setMode_arg (s : State) (r : PinRef) (m : BitVec 4) : (setMode s r m).arg = s.arg := rfl
@[simp] theorem setMode_result (s : State) (r : PinRef) (m : BitVec 4) : (setMode s r m).result = s.result := rfl
@[simp] theorem setMode_ovr (s : State) (r : PinRef) (m : BitVec 4) : (setMode s r m).ovr = s.ovr := rfl
@[simp] theorem setMode_err (s : State) (r : PinRef) (m : BitVec 4) : (setMode s r m).err = s.err := rfl
@[simp] theorem setMode_cyccnt (s : State) (r : PinRef) (m : BitVec 4) : (setMode s r m).cyccnt = s.cyccnt := rfl
@[simp] theorem setMode_cycEn (s : State) (r : PinRef) (m : BitVec 4) : (setMode s r m).cycEn = s.cycEn := rfl
@[simp] theorem setMode_irqSuppress (s : State) (r : PinRef) (m : BitVec 4) : (setMode s r m).irqSuppress = s.irqSuppress := rfl
@[simp] theorem setMode_mem (s : State) (r : PinRef) (m : BitVec 4) : (setMode s r m).mem = s.mem := rfl
@[simp] theorem setMode_sub (s : State) (r : PinRef) (m : BitVec 4) : (setMode s r m).sub = s.sub := rfl
@[simp] theorem setMode_t0 (s : State) (r : PinRef) (m : BitVec 4) : (setMode s r m).t0 = s.t0 := rfl
@[simp] theorem setMode_txb (s : State) (r : PinRef) (m : BitVec 4) : (setMode s r m).txb = s.txb := rfl
@[simp] theorem setMode_k (s : State) (r : PinRef) (m : BitVec 4) : (setMode s r m).k = s.k := rfl
@[simp] theorem setMode_j (s : State) (r : PinRef) (m : BitVec 4) : (setMode s r m).j = s.j := rfl
@[simp] theorem setMode_sh (s : State) (r : PinRef) (m : BitVec 4) : (setMode s r m).sh = s.sh := rfl
@[simp] theorem setMode_tout (s : State) (r : PinRef) (m : BitVec 4) : (setMode s r m).tout = s.tout := rfl
@[simp] theorem setMode_rdata (s : State) (r : PinRef) (m : BitVec 4) : (setMode s r m).rdata = s.rdata := rfl
@[simp] theorem setMode_inputs (s : State) (r : PinRef) (m : BitVec 4) : (setMode s r m).inputs = s.inputs := rfl
@[simp] theorem setMode_cycle (s : State) (r : PinRef) (m : BitVec 4) : (setMode s r m).cycle = s.cycle := rfl

/-! ### makeOutHigh -/

@[simp] theorem makeOutHigh_cfg (s : State) (r : PinRef) : (makeOutHigh s r).cfg = s.cfg := rfl
@[simp] theorem makeOutHigh_cmd (s : State) (r : PinRef) : (makeOutHigh s r).cmd = s.cmd := rfl
@[simp] theorem makeOutHigh_arg (s : State) (r : PinRef) : (makeOutHigh s r).arg = s.arg := rfl
@[simp] theorem makeOutHigh_result (s : State) (r : PinRef) : (makeOutHigh s r).result = s.result := rfl
@[simp] theorem makeOutHigh_ovr (s : State) (r : PinRef) : (makeOutHigh s r).ovr = s.ovr := rfl
@[simp] theorem makeOutHigh_err (s : State) (r : PinRef) : (makeOutHigh s r).err = s.err := rfl
@[simp] theorem makeOutHigh_cyccnt (s : State) (r : PinRef) : (makeOutHigh s r).cyccnt = s.cyccnt := rfl
@[simp] theorem makeOutHigh_cycEn (s : State) (r : PinRef) : (makeOutHigh s r).cycEn = s.cycEn := rfl
@[simp] theorem makeOutHigh_irqSuppress (s : State) (r : PinRef) : (makeOutHigh s r).irqSuppress = s.irqSuppress := rfl
@[simp] theorem makeOutHigh_mem (s : State) (r : PinRef) : (makeOutHigh s r).mem = s.mem := rfl
@[simp] theorem makeOutHigh_sub (s : State) (r : PinRef) : (makeOutHigh s r).sub = s.sub := rfl
@[simp] theorem makeOutHigh_t0 (s : State) (r : PinRef) : (makeOutHigh s r).t0 = s.t0 := rfl
@[simp] theorem makeOutHigh_txb (s : State) (r : PinRef) : (makeOutHigh s r).txb = s.txb := rfl
@[simp] theorem makeOutHigh_k (s : State) (r : PinRef) : (makeOutHigh s r).k = s.k := rfl
@[simp] theorem makeOutHigh_j (s : State) (r : PinRef) : (makeOutHigh s r).j = s.j := rfl
@[simp] theorem makeOutHigh_sh (s : State) (r : PinRef) : (makeOutHigh s r).sh = s.sh := rfl
@[simp] theorem makeOutHigh_tout (s : State) (r : PinRef) : (makeOutHigh s r).tout = s.tout := rfl
@[simp] theorem makeOutHigh_rdata (s : State) (r : PinRef) : (makeOutHigh s r).rdata = s.rdata := rfl
@[simp] theorem makeOutHigh_inputs (s : State) (r : PinRef) : (makeOutHigh s r).inputs = s.inputs := rfl
@[simp] theorem makeOutHigh_cycle (s : State) (r : PinRef) : (makeOutHigh s r).cycle = s.cycle := rfl

/-! ### makeInFloat -/

@[simp] theorem makeInFloat_cfg (s : State) (r : PinRef) : (makeInFloat s r).cfg = s.cfg := rfl
@[simp] theorem makeInFloat_cmd (s : State) (r : PinRef) : (makeInFloat s r).cmd = s.cmd := rfl
@[simp] theorem makeInFloat_arg (s : State) (r : PinRef) : (makeInFloat s r).arg = s.arg := rfl
@[simp] theorem makeInFloat_result (s : State) (r : PinRef) : (makeInFloat s r).result = s.result := rfl
@[simp] theorem makeInFloat_ovr (s : State) (r : PinRef) : (makeInFloat s r).ovr = s.ovr := rfl
@[simp] theorem makeInFloat_err (s : State) (r : PinRef) : (makeInFloat s r).err = s.err := rfl
@[simp] theorem makeInFloat_cyccnt (s : State) (r : PinRef) : (makeInFloat s r).cyccnt = s.cyccnt := rfl
@[simp] theorem makeInFloat_cycEn (s : State) (r : PinRef) : (makeInFloat s r).cycEn = s.cycEn := rfl
@[simp] theorem makeInFloat_irqSuppress (s : State) (r : PinRef) : (makeInFloat s r).irqSuppress = s.irqSuppress := rfl
@[simp] theorem makeInFloat_mem (s : State) (r : PinRef) : (makeInFloat s r).mem = s.mem := rfl
@[simp] theorem makeInFloat_sub (s : State) (r : PinRef) : (makeInFloat s r).sub = s.sub := rfl
@[simp] theorem makeInFloat_t0 (s : State) (r : PinRef) : (makeInFloat s r).t0 = s.t0 := rfl
@[simp] theorem makeInFloat_txb (s : State) (r : PinRef) : (makeInFloat s r).txb = s.txb := rfl
@[simp] theorem makeInFloat_k (s : State) (r : PinRef) : (makeInFloat s r).k = s.k := rfl
@[simp] theorem makeInFloat_j (s : State) (r : PinRef) : (makeInFloat s r).j = s.j := rfl
@[simp] theorem makeInFloat_sh (s : State) (r : PinRef) : (makeInFloat s r).sh = s.sh := rfl
@[simp] theorem makeInFloat_tout (s : State) (r : PinRef) : (makeInFloat s r).tout = s.tout := rfl
@[simp] theorem makeInFloat_rdata (s : State) (r : PinRef) : (makeInFloat s r).rdata = s.rdata := rfl
@[simp] theorem makeInFloat_inputs (s : State) (r : PinRef) : (makeInFloat s r).inputs = s.inputs := rfl
@[simp] theorem makeInFloat_cycle (s : State) (r : PinRef) : (makeInFloat s r).cycle = s.cycle := rfl

/-! ### retire -/

@[simp] theorem retire_cfg (s : State) (e : ErrCode) : (retire e s).cfg = s.cfg := rfl
@[simp] theorem retire_cmd (s : State) (e : ErrCode) : (retire e s).cmd = s.cmd := rfl
@[simp] theorem retire_arg (s : State) (e : ErrCode) : (retire e s).arg = s.arg := rfl
@[simp] theorem retire_result (s : State) (e : ErrCode) : (retire e s).result = s.result := rfl
@[simp] theorem retire_ovr (s : State) (e : ErrCode) : (retire e s).ovr = s.ovr := rfl
@[simp] theorem retire_err (s : State) (e : ErrCode) : (retire e s).err = e := rfl
@[simp] theorem retire_cyccnt (s : State) (e : ErrCode) : (retire e s).cyccnt = s.cyccnt := rfl
@[simp] theorem retire_cycEn (s : State) (e : ErrCode) : (retire e s).cycEn = s.cycEn := rfl
@[simp] theorem retire_irqSuppress (s : State) (e : ErrCode) : (retire e s).irqSuppress = s.irqSuppress := rfl
@[simp] theorem retire_mem (s : State) (e : ErrCode) : (retire e s).mem = s.mem := rfl
@[simp] theorem retire_ports (s : State) (e : ErrCode) : (retire e s).ports = s.ports := rfl
@[simp] theorem retire_sub (s : State) (e : ErrCode) : (retire e s).sub = .idle := rfl
@[simp] theorem retire_t0 (s : State) (e : ErrCode) : (retire e s).t0 = s.t0 := rfl
@[simp] theorem retire_txb (s : State) (e : ErrCode) : (retire e s).txb = s.txb := rfl
@[simp] theorem retire_k (s : State) (e : ErrCode) : (retire e s).k = s.k := rfl
@[simp] theorem retire_j (s : State) (e : ErrCode) : (retire e s).j = s.j := rfl
@[simp] theorem retire_sh (s : State) (e : ErrCode) : (retire e s).sh = s.sh := rfl
@[simp] theorem retire_tout (s : State) (e : ErrCode) : (retire e s).tout = s.tout := rfl
@[simp] theorem retire_rdata (s : State) (e : ErrCode) : (retire e s).rdata = s.rdata := rfl
@[simp] theorem retire_inputs (s : State) (e : ErrCode) : (retire e s).inputs = s.inputs := rfl
@[simp] theorem retire_cycle (s : State) (e : ErrCode) : (retire e s).cycle = s.cycle := rfl

/-! ### accept -/

@[simp] theorem accept_cfg (s : State) (w : Word) : (accept s w).cfg = s.cfg := rfl
@[simp] theorem accept_cmd (s : State) (w : Word) : (accept s w).cmd = w := rfl
@[simp] theorem accept_arg (s : State) (w : Word) : (accept s w).arg = s.arg := rfl
@[simp] theorem accept_result (s : State) (w : Word) : (accept s w).result = s.result := rfl
@[simp] theorem accept_ovr (s : State) (w : Word) : (accept s w).ovr = s.ovr := rfl
@[simp] theorem accept_err (s : State) (w : Word) : (accept s w).err = .ok := rfl
@[simp] theorem accept_cyccnt (s : State) (w : Word) : (accept s w).cyccnt = s.cyccnt := rfl
@[simp] theorem accept_cycEn (s : State) (w : Word) : (accept s w).cycEn = s.cycEn := rfl
@[simp] theorem accept_irqSuppress (s : State) (w : Word) : (accept s w).irqSuppress = s.irqSuppress := rfl
@[simp] theorem accept_mem (s : State) (w : Word) : (accept s w).mem = s.mem := rfl
@[simp] theorem accept_ports (s : State) (w : Word) : (accept s w).ports = s.ports := rfl
@[simp] theorem accept_sub (s : State) (w : Word) : (accept s w).sub = .entry := rfl
@[simp] theorem accept_t0 (s : State) (w : Word) : (accept s w).t0 = s.t0 := rfl
@[simp] theorem accept_txb (s : State) (w : Word) : (accept s w).txb = s.txb := rfl
@[simp] theorem accept_k (s : State) (w : Word) : (accept s w).k = s.k := rfl
@[simp] theorem accept_j (s : State) (w : Word) : (accept s w).j = s.j := rfl
@[simp] theorem accept_sh (s : State) (w : Word) : (accept s w).sh = s.sh := rfl
@[simp] theorem accept_tout (s : State) (w : Word) : (accept s w).tout = s.tout := rfl
@[simp] theorem accept_rdata (s : State) (w : Word) : (accept s w).rdata = s.rdata := rfl
@[simp] theorem accept_inputs (s : State) (w : Word) : (accept s w).inputs = s.inputs := rfl
@[simp] theorem accept_cycle (s : State) (w : Word) : (accept s w).cycle = s.cycle := rfl

/-! ### recvEnter -/

@[simp] theorem recvEnter_cfg (s : State) : (recvEnter s).cfg = s.cfg := rfl
@[simp] theorem recvEnter_cmd (s : State) : (recvEnter s).cmd = s.cmd := rfl
@[simp] theorem recvEnter_arg (s : State) : (recvEnter s).arg = s.arg := rfl
@[simp] theorem recvEnter_result (s : State) : (recvEnter s).result = s.result := rfl
@[simp] theorem recvEnter_ovr (s : State) : (recvEnter s).ovr = s.ovr := rfl
@[simp] theorem recvEnter_err (s : State) : (recvEnter s).err = s.err := rfl
@[simp] theorem recvEnter_cyccnt (s : State) : (recvEnter s).cyccnt = s.cyccnt := rfl
@[simp] theorem recvEnter_cycEn (s : State) : (recvEnter s).cycEn = s.cycEn := rfl
@[simp] theorem recvEnter_irqSuppress (s : State) : (recvEnter s).irqSuppress = s.irqSuppress := rfl
@[simp] theorem recvEnter_mem (s : State) : (recvEnter s).mem = s.mem := rfl
@[simp] theorem recvEnter_ports (s : State) : (recvEnter s).ports = s.ports := rfl
@[simp] theorem recvEnter_sub (s : State) : (recvEnter s).sub = .poll := rfl
@[simp] theorem recvEnter_t0 (s : State) : (recvEnter s).t0 = s.t0 := rfl
@[simp] theorem recvEnter_txb (s : State) : (recvEnter s).txb = s.txb := rfl
@[simp] theorem recvEnter_k (s : State) : (recvEnter s).k = s.k := rfl
@[simp] theorem recvEnter_j (s : State) : (recvEnter s).j = 0 := rfl
@[simp] theorem recvEnter_sh (s : State) : (recvEnter s).sh = s.sh := rfl
@[simp] theorem recvEnter_tout (s : State) : (recvEnter s).tout = s.tout := rfl
@[simp] theorem recvEnter_rdata (s : State) : (recvEnter s).rdata = s.rdata := rfl
@[simp] theorem recvEnter_inputs (s : State) : (recvEnter s).inputs = s.inputs := rfl
@[simp] theorem recvEnter_cycle (s : State) : (recvEnter s).cycle = s.cycle := rfl

/-! ### sendEnter -/

@[simp] theorem sendEnter_cfg (s : State) (r : PinRef) (b : Byte) : (sendEnter s r b).cfg = s.cfg := rfl
@[simp] theorem sendEnter_cmd (s : State) (r : PinRef) (b : Byte) : (sendEnter s r b).cmd = s.cmd := rfl
@[simp] theorem sendEnter_arg (s : State) (r : PinRef) (b : Byte) : (sendEnter s r b).arg = s.arg := rfl
@[simp] theorem sendEnter_result (s : State) (r : PinRef) (b : Byte) : (sendEnter s r b).result = s.result := rfl
@[simp] theorem sendEnter_ovr (s : State) (r : PinRef) (b : Byte) : (sendEnter s r b).ovr = s.ovr := rfl
@[simp] theorem sendEnter_err (s : State) (r : PinRef) (b : Byte) : (sendEnter s r b).err = s.err := rfl
@[simp] theorem sendEnter_cyccnt (s : State) (r : PinRef) (b : Byte) : (sendEnter s r b).cyccnt = s.cyccnt := rfl
@[simp] theorem sendEnter_cycEn (s : State) (r : PinRef) (b : Byte) : (sendEnter s r b).cycEn = s.cycEn := rfl
@[simp] theorem sendEnter_irqSuppress (s : State) (r : PinRef) (b : Byte) : (sendEnter s r b).irqSuppress = s.irqSuppress := rfl
@[simp] theorem sendEnter_mem (s : State) (r : PinRef) (b : Byte) : (sendEnter s r b).mem = s.mem := rfl
@[simp] theorem sendEnter_sub (s : State) (r : PinRef) (b : Byte) : (sendEnter s r b).sub = .sending := rfl
@[simp] theorem sendEnter_t0 (s : State) (r : PinRef) (b : Byte) : (sendEnter s r b).t0 = s.cyccnt := rfl
@[simp] theorem sendEnter_txb (s : State) (r : PinRef) (b : Byte) : (sendEnter s r b).txb = b := rfl
@[simp] theorem sendEnter_k (s : State) (r : PinRef) (b : Byte) : (sendEnter s r b).k = s.k := rfl
@[simp] theorem sendEnter_j (s : State) (r : PinRef) (b : Byte) : (sendEnter s r b).j = s.j := rfl
@[simp] theorem sendEnter_sh (s : State) (r : PinRef) (b : Byte) : (sendEnter s r b).sh = s.sh := rfl
@[simp] theorem sendEnter_tout (s : State) (r : PinRef) (b : Byte) : (sendEnter s r b).tout = s.tout := rfl
@[simp] theorem sendEnter_rdata (s : State) (r : PinRef) (b : Byte) : (sendEnter s r b).rdata = s.rdata := rfl
@[simp] theorem sendEnter_inputs (s : State) (r : PinRef) (b : Byte) : (sendEnter s r b).inputs = s.inputs := rfl
@[simp] theorem sendEnter_cycle (s : State) (r : PinRef) (b : Byte) : (sendEnter s r b).cycle = s.cycle := rfl

/-! ### sendEdge, recvSample and countCycle write one field each -/

@[simp] theorem sendEdge_cfg (s : State) (r : PinRef) : (sendEdge s r).cfg = s.cfg := by
  unfold sendEdge; split <;> rfl
@[simp] theorem sendEdge_cmd (s : State) (r : PinRef) : (sendEdge s r).cmd = s.cmd := by
  unfold sendEdge; split <;> rfl
@[simp] theorem sendEdge_arg (s : State) (r : PinRef) : (sendEdge s r).arg = s.arg := by
  unfold sendEdge; split <;> rfl
@[simp] theorem sendEdge_result (s : State) (r : PinRef) : (sendEdge s r).result = s.result := by
  unfold sendEdge; split <;> rfl
@[simp] theorem sendEdge_ovr (s : State) (r : PinRef) : (sendEdge s r).ovr = s.ovr := by
  unfold sendEdge; split <;> rfl
@[simp] theorem sendEdge_err (s : State) (r : PinRef) : (sendEdge s r).err = s.err := by
  unfold sendEdge; split <;> rfl
@[simp] theorem sendEdge_cyccnt (s : State) (r : PinRef) : (sendEdge s r).cyccnt = s.cyccnt := by
  unfold sendEdge; split <;> rfl
@[simp] theorem sendEdge_cycEn (s : State) (r : PinRef) : (sendEdge s r).cycEn = s.cycEn := by
  unfold sendEdge; split <;> rfl
@[simp] theorem sendEdge_irqSuppress (s : State) (r : PinRef) : (sendEdge s r).irqSuppress = s.irqSuppress := by
  unfold sendEdge; split <;> rfl
@[simp] theorem sendEdge_mem (s : State) (r : PinRef) : (sendEdge s r).mem = s.mem := by
  unfold sendEdge; split <;> rfl
@[simp] theorem sendEdge_sub (s : State) (r : PinRef) : (sendEdge s r).sub = s.sub := by
  unfold sendEdge; split <;> rfl
@[simp] theorem sendEdge_t0 (s : State) (r : PinRef) : (sendEdge s r).t0 = s.t0 := by
  unfold sendEdge; split <;> rfl
@[simp] theorem sendEdge_txb (s : State) (r : PinRef) : (sendEdge s r).txb = s.txb := by
  unfold sendEdge; split <;> rfl
@[simp] theorem sendEdge_k (s : State) (r : PinRef) : (sendEdge s r).k = s.k := by
  unfold sendEdge; split <;> rfl
@[simp] theorem sendEdge_j (s : State) (r : PinRef) : (sendEdge s r).j = s.j := by
  unfold sendEdge; split <;> rfl
@[simp] theorem sendEdge_sh (s : State) (r : PinRef) : (sendEdge s r).sh = s.sh := by
  unfold sendEdge; split <;> rfl
@[simp] theorem sendEdge_tout (s : State) (r : PinRef) : (sendEdge s r).tout = s.tout := by
  unfold sendEdge; split <;> rfl
@[simp] theorem sendEdge_rdata (s : State) (r : PinRef) : (sendEdge s r).rdata = s.rdata := by
  unfold sendEdge; split <;> rfl
@[simp] theorem sendEdge_inputs (s : State) (r : PinRef) : (sendEdge s r).inputs = s.inputs := by
  unfold sendEdge; split <;> rfl
@[simp] theorem sendEdge_cycle (s : State) (r : PinRef) : (sendEdge s r).cycle = s.cycle := by
  unfold sendEdge; split <;> rfl
@[simp] theorem recvSample_cfg (s : State) (r : PinRef) : (recvSample s r).cfg = s.cfg := by
  unfold recvSample; split <;> rfl
@[simp] theorem recvSample_cmd (s : State) (r : PinRef) : (recvSample s r).cmd = s.cmd := by
  unfold recvSample; split <;> rfl
@[simp] theorem recvSample_arg (s : State) (r : PinRef) : (recvSample s r).arg = s.arg := by
  unfold recvSample; split <;> rfl
@[simp] theorem recvSample_result (s : State) (r : PinRef) : (recvSample s r).result = s.result := by
  unfold recvSample; split <;> rfl
@[simp] theorem recvSample_ovr (s : State) (r : PinRef) : (recvSample s r).ovr = s.ovr := by
  unfold recvSample; split <;> rfl
@[simp] theorem recvSample_err (s : State) (r : PinRef) : (recvSample s r).err = s.err := by
  unfold recvSample; split <;> rfl
@[simp] theorem recvSample_cyccnt (s : State) (r : PinRef) : (recvSample s r).cyccnt = s.cyccnt := by
  unfold recvSample; split <;> rfl
@[simp] theorem recvSample_cycEn (s : State) (r : PinRef) : (recvSample s r).cycEn = s.cycEn := by
  unfold recvSample; split <;> rfl
@[simp] theorem recvSample_irqSuppress (s : State) (r : PinRef) : (recvSample s r).irqSuppress = s.irqSuppress := by
  unfold recvSample; split <;> rfl
@[simp] theorem recvSample_mem (s : State) (r : PinRef) : (recvSample s r).mem = s.mem := by
  unfold recvSample; split <;> rfl
@[simp] theorem recvSample_ports (s : State) (r : PinRef) : (recvSample s r).ports = s.ports := by
  unfold recvSample; split <;> rfl
@[simp] theorem recvSample_sub (s : State) (r : PinRef) : (recvSample s r).sub = s.sub := by
  unfold recvSample; split <;> rfl
@[simp] theorem recvSample_t0 (s : State) (r : PinRef) : (recvSample s r).t0 = s.t0 := by
  unfold recvSample; split <;> rfl
@[simp] theorem recvSample_txb (s : State) (r : PinRef) : (recvSample s r).txb = s.txb := by
  unfold recvSample; split <;> rfl
@[simp] theorem recvSample_k (s : State) (r : PinRef) : (recvSample s r).k = s.k := by
  unfold recvSample; split <;> rfl
@[simp] theorem recvSample_j (s : State) (r : PinRef) : (recvSample s r).j = s.j := by
  unfold recvSample; split <;> rfl
@[simp] theorem recvSample_tout (s : State) (r : PinRef) : (recvSample s r).tout = s.tout := by
  unfold recvSample; split <;> rfl
@[simp] theorem recvSample_rdata (s : State) (r : PinRef) : (recvSample s r).rdata = s.rdata := by
  unfold recvSample; split <;> rfl
@[simp] theorem recvSample_inputs (s : State) (r : PinRef) : (recvSample s r).inputs = s.inputs := by
  unfold recvSample; split <;> rfl
@[simp] theorem recvSample_cycle (s : State) (r : PinRef) : (recvSample s r).cycle = s.cycle := by
  unfold recvSample; split <;> rfl
@[simp] theorem countCycle_cfg (b : Bool) (s : State) : (countCycle b s).cfg = s.cfg := by
  unfold countCycle; split <;> (try split) <;> rfl
@[simp] theorem countCycle_cmd (b : Bool) (s : State) : (countCycle b s).cmd = s.cmd := by
  unfold countCycle; split <;> (try split) <;> rfl
@[simp] theorem countCycle_arg (b : Bool) (s : State) : (countCycle b s).arg = s.arg := by
  unfold countCycle; split <;> (try split) <;> rfl
@[simp] theorem countCycle_result (b : Bool) (s : State) : (countCycle b s).result = s.result := by
  unfold countCycle; split <;> (try split) <;> rfl
@[simp] theorem countCycle_ovr (b : Bool) (s : State) : (countCycle b s).ovr = s.ovr := by
  unfold countCycle; split <;> (try split) <;> rfl
@[simp] theorem countCycle_err (b : Bool) (s : State) : (countCycle b s).err = s.err := by
  unfold countCycle; split <;> (try split) <;> rfl
@[simp] theorem countCycle_cycEn (b : Bool) (s : State) : (countCycle b s).cycEn = s.cycEn := by
  unfold countCycle; split <;> (try split) <;> rfl
@[simp] theorem countCycle_irqSuppress (b : Bool) (s : State) : (countCycle b s).irqSuppress = s.irqSuppress := by
  unfold countCycle; split <;> (try split) <;> rfl
@[simp] theorem countCycle_mem (b : Bool) (s : State) : (countCycle b s).mem = s.mem := by
  unfold countCycle; split <;> (try split) <;> rfl
@[simp] theorem countCycle_ports (b : Bool) (s : State) : (countCycle b s).ports = s.ports := by
  unfold countCycle; split <;> (try split) <;> rfl
@[simp] theorem countCycle_sub (b : Bool) (s : State) : (countCycle b s).sub = s.sub := by
  unfold countCycle; split <;> (try split) <;> rfl
@[simp] theorem countCycle_t0 (b : Bool) (s : State) : (countCycle b s).t0 = s.t0 := by
  unfold countCycle; split <;> (try split) <;> rfl
@[simp] theorem countCycle_txb (b : Bool) (s : State) : (countCycle b s).txb = s.txb := by
  unfold countCycle; split <;> (try split) <;> rfl
@[simp] theorem countCycle_k (b : Bool) (s : State) : (countCycle b s).k = s.k := by
  unfold countCycle; split <;> (try split) <;> rfl
@[simp] theorem countCycle_j (b : Bool) (s : State) : (countCycle b s).j = s.j := by
  unfold countCycle; split <;> (try split) <;> rfl
@[simp] theorem countCycle_sh (b : Bool) (s : State) : (countCycle b s).sh = s.sh := by
  unfold countCycle; split <;> (try split) <;> rfl
@[simp] theorem countCycle_tout (b : Bool) (s : State) : (countCycle b s).tout = s.tout := by
  unfold countCycle; split <;> (try split) <;> rfl
@[simp] theorem countCycle_rdata (b : Bool) (s : State) : (countCycle b s).rdata = s.rdata := by
  unfold countCycle; split <;> (try split) <;> rfl
@[simp] theorem countCycle_inputs (b : Bool) (s : State) : (countCycle b s).inputs = s.inputs := by
  unfold countCycle; split <;> (try split) <;> rfl
@[simp] theorem countCycle_cycle (b : Bool) (s : State) : (countCycle b s).cycle = s.cycle := by
  unfold countCycle; split <;> (try split) <;> rfl

/-! ### endCycle -/

@[simp] theorem endCycle_cfg (b : Bool) (s : State) : (endCycle b s).cfg = s.cfg := countCycle_cfg b s
@[simp] theorem endCycle_cmd (b : Bool) (s : State) : (endCycle b s).cmd = s.cmd := countCycle_cmd b s
@[simp] theorem endCycle_arg (b : Bool) (s : State) : (endCycle b s).arg = s.arg := countCycle_arg b s
@[simp] theorem endCycle_result (b : Bool) (s : State) : (endCycle b s).result = s.result := countCycle_result b s
@[simp] theorem endCycle_ovr (b : Bool) (s : State) : (endCycle b s).ovr = s.ovr := countCycle_ovr b s
@[simp] theorem endCycle_err (b : Bool) (s : State) : (endCycle b s).err = s.err := countCycle_err b s
@[simp] theorem endCycle_cyccnt (b : Bool) (s : State) : (endCycle b s).cyccnt = (countCycle b s).cyccnt := rfl
@[simp] theorem endCycle_cycEn (b : Bool) (s : State) : (endCycle b s).cycEn = s.cycEn := countCycle_cycEn b s
@[simp] theorem endCycle_irqSuppress (b : Bool) (s : State) : (endCycle b s).irqSuppress = s.irqSuppress := countCycle_irqSuppress b s
@[simp] theorem endCycle_mem (b : Bool) (s : State) : (endCycle b s).mem = s.mem := countCycle_mem b s
@[simp] theorem endCycle_ports (b : Bool) (s : State) : (endCycle b s).ports = s.ports := countCycle_ports b s
@[simp] theorem endCycle_sub (b : Bool) (s : State) : (endCycle b s).sub = s.sub := countCycle_sub b s
@[simp] theorem endCycle_t0 (b : Bool) (s : State) : (endCycle b s).t0 = s.t0 := countCycle_t0 b s
@[simp] theorem endCycle_txb (b : Bool) (s : State) : (endCycle b s).txb = s.txb := countCycle_txb b s
@[simp] theorem endCycle_k (b : Bool) (s : State) : (endCycle b s).k = s.k := countCycle_k b s
@[simp] theorem endCycle_j (b : Bool) (s : State) : (endCycle b s).j = s.j := countCycle_j b s
@[simp] theorem endCycle_sh (b : Bool) (s : State) : (endCycle b s).sh = s.sh := countCycle_sh b s
@[simp] theorem endCycle_tout (b : Bool) (s : State) : (endCycle b s).tout = s.tout := countCycle_tout b s
@[simp] theorem endCycle_rdata (b : Bool) (s : State) : (endCycle b s).rdata = s.rdata := countCycle_rdata b s
@[simp] theorem endCycle_inputs (b : Bool) (s : State) : (endCycle b s).inputs = s.inputs.tail := rfl
@[simp] theorem endCycle_cycle (b : Bool) (s : State) : (endCycle b s).cycle = s.cycle + 1 := rfl

/-! ### failField writes memory alone -/

theorem foldl_setRx_frame (l : List Nat) (g : Nat → Nat) (b : Byte) (s : State) :
    l.foldl (fun t f => setRx t (g f) b) s
      = { s with mem := l.foldl (fun m f => Memory.write m (rxBase + g f) b) s.mem } := by
  induction l generalizing s with
  | nil => rfl
  | cons x xs ih => simp only [List.foldl_cons, ih]; rfl

theorem failField_eq (s : State) :
    failField s =
      { s with
        mem := (List.range s.cfg.params.failLen).foldl
          (fun m f => Memory.write m (rxBase + (s.cfg.params.failOff + f)) 0xFF) s.mem } :=
  foldl_setRx_frame _ (fun f => s.cfg.params.failOff + f) 0xFF s

@[simp] theorem failField_cfg (s : State) : (failField s).cfg = s.cfg := by rw [failField_eq]
@[simp] theorem failField_cmd (s : State) : (failField s).cmd = s.cmd := by rw [failField_eq]
@[simp] theorem failField_arg (s : State) : (failField s).arg = s.arg := by rw [failField_eq]
@[simp] theorem failField_result (s : State) : (failField s).result = s.result := by rw [failField_eq]
@[simp] theorem failField_ovr (s : State) : (failField s).ovr = s.ovr := by rw [failField_eq]
@[simp] theorem failField_err (s : State) : (failField s).err = s.err := by rw [failField_eq]
@[simp] theorem failField_cyccnt (s : State) : (failField s).cyccnt = s.cyccnt := by rw [failField_eq]
@[simp] theorem failField_cycEn (s : State) : (failField s).cycEn = s.cycEn := by rw [failField_eq]
@[simp] theorem failField_irqSuppress (s : State) : (failField s).irqSuppress = s.irqSuppress := by rw [failField_eq]
@[simp] theorem failField_ports (s : State) : (failField s).ports = s.ports := by rw [failField_eq]
@[simp] theorem failField_sub (s : State) : (failField s).sub = s.sub := by rw [failField_eq]
@[simp] theorem failField_t0 (s : State) : (failField s).t0 = s.t0 := by rw [failField_eq]
@[simp] theorem failField_txb (s : State) : (failField s).txb = s.txb := by rw [failField_eq]
@[simp] theorem failField_k (s : State) : (failField s).k = s.k := by rw [failField_eq]
@[simp] theorem failField_j (s : State) : (failField s).j = s.j := by rw [failField_eq]
@[simp] theorem failField_sh (s : State) : (failField s).sh = s.sh := by rw [failField_eq]
@[simp] theorem failField_tout (s : State) : (failField s).tout = s.tout := by rw [failField_eq]
@[simp] theorem failField_rdata (s : State) : (failField s).rdata = s.rdata := by rw [failField_eq]
@[simp] theorem failField_inputs (s : State) : (failField s).inputs = s.inputs := by rw [failField_eq]
@[simp] theorem failField_cycle (s : State) : (failField s).cycle = s.cycle := by rw [failField_eq]

/-! ### Parameters and derived reads -/

@[simp] theorem bp_eq (s : State) : bp s = s.cfg.params.bp := rfl
@[simp] theorem half_eq (s : State) : half s = s.cfg.params.half := rfl
@[simp] theorem guardCycles_eq (s : State) : guardCycles s = s.cfg.params.guard := rfl
@[simp] theorem nPorts_eq (s : State) : nPorts s = s.cfg.params.nPorts := rfl

/-- BUSY is the sub-operation not being idle (R25). -/
theorem busy_iff (s : State) : s.busy = true ↔ s.sub ≠ .idle := by simp [State.busy]

/-- The engine is idle after a retirement (R25). -/
@[simp] theorem retire_busy (e : ErrCode) (s : State) : (retire e s).busy = false := rfl

@[simp] theorem accept_busy (s : State) (w : Word) : (accept s w).busy = true := rfl

end Sys2Proof.Machine
end

