-- ==== Sys2Proof/Laws/Engine.lean ====
section
/-! SUPPORT. What each shared operation of the engine does, said once: the entry checks, FIX, RECV, and the outcomes a
command's cycle can have. -/

namespace Sys2Proof.Machine

/-! ## Entry checks -/

/-- The first error of a list is OK exactly when every entry is. -/
theorem firstError_eq_ok {l : List ErrCode} : firstError l = .ok ↔ ∀ e ∈ l, e = .ok := by
  induction l with
  | nil => simp [firstError]
  | cons e rest ih =>
    by_cases h : e = .ok
    · simp [firstError, h, ih]
    · simp [firstError, h]

/-- A command passes its entry checks exactly under these conditions (R67, R69, R85, R90, R128). -/
theorem entryError_eq_ok {i : Instr} {s : State} :
    entryError i s = .ok ↔
      i.wellFormed s.cfg.params.nPorts = true
        ∧ (∀ axis, axisOf i = some axis → (axisPin s axis).isSome = true)
        ∧ (isTimed i = true → s.cycEn = true)
        ∧ (i = .wait → s.arg.toNat < 2 ^ 31) := by
  have hf : formError i s = .ok ↔ i.wellFormed s.cfg.params.nPorts = true := by
    by_cases h : i.wellFormed s.cfg.params.nPorts = true <;> simp [formError, h]
  have ha : axisError i s = .ok ↔ ∀ axis, axisOf i = some axis → (axisPin s axis).isSome = true := by
    unfold axisError
    cases axisOf i with
    | none => simp
    | some axis => by_cases h : (axisPin s axis).isSome = true <;> simp [h]
  have hi : initError i s = .ok ↔ (isTimed i = true → s.cycEn = true) := by
    unfold initError; cases isTimed i <;> cases s.cycEn <;> simp
  have ho : operandError i s = .ok ↔ (i = .wait → s.arg.toNat < 2 ^ 31) := by
    unfold operandError argCycles
    by_cases h1 : i = .wait
    · by_cases h2 : 2 ^ 31 ≤ s.arg.toNat
      · rw [if_pos ⟨h1, h2⟩]
        exact ⟨fun h => (nomatch h), fun h => absurd (h h1) (by omega)⟩
      · rw [if_neg (fun h => h2 h.2)]
        exact ⟨fun _ _ => by omega, fun _ => rfl⟩
    · simp [h1]
  unfold entryError
  rw [firstError_eq_ok]
  simp [hf, ha, hi, ho]

/-- The entry checks look at the configuration, ARG and CYC_EN alone. -/
theorem entryError_congr {i : Instr} {s t : State} (hc : t.cfg = s.cfg) (ha : t.arg = s.arg)
    (he : t.cycEn = s.cycEn) : entryError i t = entryError i s := by
  unfold entryError formError axisError initError operandError argCycles nPorts axisPin
  rw [hc, ha, he]

theorem entering_ok {i : Instr} {s : State} (body : Host.Outcome State Fault Refusal) (h : entryError i s = .ok) :
    entering i s body = body := by
  simp [entering, h]

theorem entering_err {i : Instr} {s : State} (body : Host.Outcome State Fault Refusal) (h : entryError i s ≠ .ok) :
    entering i s body = raise (entryError i s) s := by
  simp [entering, h]

/-- The pin of an axis depends on the configuration alone. -/
theorem axisPin_congr {s t : State} (hc : t.cfg = s.cfg) (axis : BitVec 4) : axisPin t axis = axisPin s axis := by
  simp [axisPin, hc]

/-! ## FIX -/

/-- FIX has its list exactly when every byte it covers is written, the slave byte included (R121, R126). -/
theorem fixedBytes_isSome {s : State} {n : Nat} :
    (fixedBytes s n).isSome = true ↔ ∀ k, k < n → (txByte s k).isSome = true := by
  unfold fixedBytes
  induction n with
  | zero => simp
  | succ n ih =>
    have key : ((List.range (n + 1)).mapM (fixedByte s)).isSome
        = (((List.range n).mapM (fixedByte s)).isSome && (fixedByte s n).isSome) := by
      rw [List.range_succ, List.mapM_append]
      cases (List.range n).mapM (fixedByte s) <;> cases h : fixedByte s n <;> simp [h]
    rw [key, Bool.and_eq_true, ih]
    rw [show (fixedByte s n).isSome = (txByte s n).isSome from Option.isSome_map]
    constructor
    · rintro ⟨h1, h2⟩ k hk
      rcases Nat.lt_succ_iff_lt_or_eq.mp hk with h | h
      · exact h1 k h
      · exact h ▸ h2
    · intro h
      exact ⟨fun k hk => h k (by omega), h n (by omega)⟩

/-- The fixed byte of a written byte (R121). -/
theorem fixedByte_of_some {s : State} {k : Nat} {b : Byte} (h : txByte s k = some b) :
    fixedByte s k = some (if k = s.cfg.params.slaveIdx then s.cfg.params.slaveAddr else b) := by
  simp [fixedByte, h]

/-- The list FIX computes CHECK over has one entry per index, each the fixed byte there (R121). -/
theorem fixedBytes_get {s : State} {n : Nat} {l : List Byte} (h : fixedBytes s n = some l) :
    l.length = n ∧ ∀ k, k < n → l[k]? = fixedByte s k := by
  unfold fixedBytes at h
  induction n generalizing l with
  | zero => simp at h; subst h; simp
  | succ n ih =>
    rw [List.range_succ, List.mapM_append] at h
    cases h1 : (List.range n).mapM (fixedByte s) with
    | none => simp [h1] at h
    | some l1 =>
      cases h2 : fixedByte s n with
      | none => simp [h1, h2] at h
      | some b =>
        simp [h1, h2] at h
        subst h
        obtain ⟨hl, hg⟩ := ih h1
        refine ⟨by simp [hl], fun k hk => ?_⟩
        rcases Nat.lt_succ_iff_lt_or_eq.mp hk with h | h
        · rw [List.getElem?_append_left (by omega)]; exact hg k h
        · subst h; rw [List.getElem?_append_right (by omega)]; simp [hl, h2]

/-- Entry k of the list FIX computes CHECK over: SLAVE_ADDR at SLAVE_IDX, else TX[k] (R121). -/
theorem fixedBytes_byte {s : State} {n k : Nat} {l : List Byte} (h : fixedBytes s n = some l) (hk : k < n) :
    l[k]? = if k = s.cfg.params.slaveIdx then some s.cfg.params.slaveAddr else txByte s k := by
  obtain ⟨b, hb⟩ := Option.isSome_iff_exists.mp (fixedBytes_isSome.mp (by rw [h]; rfl) k hk)
  rw [(fixedBytes_get h).2 k hk, fixedByte_of_some hb, hb]
  split <;> rfl

/-- FIX touches the memory alone. -/
theorem fix_frame {s t : State} {len : Nat} (h : fix s len = some t) : t = { s with mem := t.mem } := by
  unfold fix at h
  split at h
  · cases h
  · cases h; rfl

/-- FIX(L) is defined exactly when every byte of TX[0..L-2] is written (R126). -/
theorem fix_isSome {s : State} {len : Nat} :
    (fix s len).isSome = true ↔ ∀ k, k < len - 1 → (txByte s k).isSome = true := by
  rw [← fixedBytes_isSome]
  unfold fix
  split <;> rename_i h <;> simp [h]

/-- TX after FIX(L): SLAVE_ADDR, the check byte over the bytes before it, everything else as it was (R121-R123). -/
theorem fix_txByte {s t : State} {len : Nat} (h : fix s len = some t) :
    ∃ l, fixedBytes s (len - 1) = some l
      ∧ ∀ k, txByte t k = if k = len - 1 then some (checkByte s l)
          else if k = s.cfg.params.slaveIdx then some s.cfg.params.slaveAddr else txByte s k := by
  unfold fix at h
  split at h
  · cases h
  · rename_i l hl
    cases h
    exact ⟨l, hl, fun k => by rw [txByte_setTx, txByte_setTx]⟩

/-- Every buffer byte but the slave byte and the check byte is left by FIX. -/
theorem fix_read_ne {s t : State} {len a : Nat} (h : fix s len = some t)
    (h1 : a ≠ txBase + s.cfg.params.slaveIdx) (h2 : a ≠ txBase + (len - 1)) :
    Memory.read t.mem a = Memory.read s.mem a := by
  unfold fix at h
  split at h
  · cases h
  · cases h
    simp only [setTx_mem]
    rw [Memory.read_write_ne _ _ _ _ h2, Memory.read_write_ne _ _ _ _ h1]

/-- FIX keeps the canonical form. -/
theorem fix_wf {s t : State} {len : Nat} (h : fix s len = some t) (hi : s.cfg.params.slaveIdx < 8) (hl : len ≤ 8)
    (hw : Memory.wf s.mem = true) : Memory.wf t.mem = true := by
  unfold fix at h
  split at h
  · cases h
  · cases h
    simp only [setTx_mem]
    refine Memory.wf_write _ _ (by unfold txBase; omega) (by unfold txBase rxBase; omega) ?_
    exact Memory.wf_write _ _ (by unfold txBase; omega) (by unfold txBase rxBase; omega) hw

/-! ## The failure field -/

/-- A run of RX writes of one byte, read back. -/
theorem read_foldl_rx (n off : Nat) (b : Byte) (m : List Host.Cell) (a : Nat) :
    Memory.read ((List.range n).foldl (fun m f => Memory.write m (rxBase + (off + f)) b) m) a
      = if rxBase + off ≤ a ∧ a < rxBase + off + n then some b else Memory.read m a := by
  induction n with
  | zero => simp
  | succ n ih =>
    rw [List.range_succ, List.foldl_append]
    simp only [List.foldl_cons, List.foldl_nil]
    rw [Memory.read_write, ih]
    by_cases h : a = rxBase + (off + n)
    · rw [if_pos h, if_pos (by omega)]
    · rw [if_neg h]
      exact if_congr (by omega) rfl rfl

/-- The bytes of the failure field become 0xFF, every other buffer byte keeps its value (R135). -/
theorem failField_read (s : State) (a : Nat) :
    Memory.read (failField s).mem a =
      if rxBase + s.cfg.params.failOff ≤ a ∧ a < rxBase + s.cfg.params.failOff + s.cfg.params.failLen then some 0xFF
      else Memory.read s.mem a := by
  rw [failField_eq]
  exact read_foldl_rx _ _ _ _ _

/-- The failure field keeps the canonical form. -/
theorem failField_wf {s : State} (hw : Memory.wf s.mem = true) : Memory.wf (failField s).mem = true := by
  rw [failField_eq]
  obtain ⟨-, h2, -, h4⟩ := s.cfg.reply
  suffices h : ∀ n, n ≤ s.cfg.params.failLen →
      Memory.wf ((List.range n).foldl
        (fun m f => Memory.write m (rxBase + (s.cfg.params.failOff + f)) 0xFF) s.mem) = true from h _ (Nat.le_refl _)
  intro n
  induction n with
  | zero => intro _; exact hw
  | succ n ih =>
    intro hn
    rw [List.range_succ, List.foldl_append]
    exact Memory.wf_write _ _ (by unfold txBase rxBase; omega) (by omega) (ih (by omega))

/-! ## RECV -/

/-- The three things a poll does (R111-R113). -/
theorem recvPoll_cases (s : State) (r : PinRef) :
    (line s r = false ∧ recvPoll s r = ({ s with t0 := s.cyccnt, sub := .data }, .running))
      ∨ (line s r = true ∧ s.j + 1 < s.cfg.params.rxTimeout ∧ recvPoll s r = ({ s with j := s.j + 1 }, .running))
      ∨ (line s r = true ∧ s.cfg.params.rxTimeout ≤ s.j + 1 ∧ recvPoll s r = (s, .timeout)) := by
  unfold recvPoll
  cases h : line s r
  · simp
  · by_cases hj : s.j + 1 < s.cfg.params.rxTimeout
    · simp [hj]
    · simp [hj]; omega

/-- The two things a cycle after detection does (R114-R116). -/
theorem recvData_cases (s : State) (r : PinRef) :
    (recvEnds s = false ∧ recvData s r = (recvSample s r, .running))
      ∨ (recvEnds s = true ∧ recvData s r = (recvSample s r, .byte (recvSample s r).sh)) := by
  unfold recvData
  cases h : recvEnds s <;> simp

theorem recvCycle_poll {s : State} {r : PinRef} (h : s.sub = .poll) : recvCycle s r = recvPoll s r := by
  simp [recvCycle, h]

theorem recvCycle_data {s : State} {r : PinRef} (h : s.sub = .data) : recvCycle s r = recvData s r := by
  simp [recvCycle, h]

/-- A cycle of RECV leaves everything but T0, J, SH and SUB. -/
theorem recvCycle_frame (s : State) (r : PinRef) :
    ∃ t0 j sh sub, (recvCycle s r).1 = { s with t0 := t0, j := j, sh := sh, sub := sub } := by
  have hs : ∃ sh, recvSample s r = { s with sh := sh } := by
    unfold recvSample; split
    · exact ⟨_, rfl⟩
    · exact ⟨s.sh, rfl⟩
  by_cases h : s.sub = .data
  · rw [recvCycle_data h]
    obtain ⟨sh, hsh⟩ := hs
    rcases recvData_cases s r with ⟨-, e⟩ | ⟨-, e⟩ <;> rw [e] <;> exact ⟨s.t0, s.j, sh, s.sub, hsh⟩
  · have e : recvCycle s r = recvPoll s r := by
      unfold recvCycle; split
      · exact absurd ‹_› h
      · rfl
    rw [e]
    rcases recvPoll_cases s r with ⟨-, e⟩ | ⟨-, -, e⟩ | ⟨-, -, e⟩ <;> rw [e]
    · exact ⟨s.cyccnt, s.j, s.sh, .data, rfl⟩
    · exact ⟨s.t0, s.j + 1, s.sh, s.sub, rfl⟩
    · exact ⟨s.t0, s.j, s.sh, s.sub, rfl⟩

/-! ## The outcomes of a command's cycle -/

/-- A command raised: the command has retired and nothing else has changed (R146). -/
theorem raise_eq (e : ErrCode) (s : State) : raise e s = .next { s with sub := .idle, err := e } := rfl

end Sys2Proof.Machine
end

