-- ==== Sys2Proof/Laws/Pins.lean ====
section
/-! SUPPORT. The pins: what driving a level and setting a mode do to every pin (R96, R100, R102). -/

namespace Sys2Proof.Machine

/-- A port reads back what was stored. -/
@[simp] theorem port_setPort_same (s : State) (p : BitVec 3) (x : Port) : (s.setPort p x).port p = x := by
  simp [State.port, State.setPort]

/-- Storing one port leaves the others. -/
theorem port_setPort_ne (s : State) (p q : BitVec 3) (x : Port) (h : q ≠ p) :
    (s.setPort p x).port q = s.port q := by
  have hn : p.toNat ≠ q.toNat := fun e => h (BitVec.eq_of_toNat_eq e.symm)
  simp [State.port, State.setPort, Vector.getElem_set_ne _ _ hn]

/-- A port depends on the stored ports alone. -/
theorem port_congr {s t : State} (h : t.ports = s.ports) (p : BitVec 3) : t.port p = s.port p := by
  simp [State.port, h]

/-- A pin's mode after a mode was set in its port. -/
theorem Port.mode_setMode (x : Port) (i k : Nat) (m : BitVec 4) (hi : i < 16) (hk : k < 16) :
    (x.setMode i m).mode k = if k = i then m else x.mode k := by
  unfold Port.setMode Port.mode
  by_cases h1 : i < 8
  · by_cases h2 : k < 8
    · by_cases h3 : k = i
      · subst h3; simp [h1, getField_putField_same _ _ _ h1]
      · simp [h1, h2, h3, getField_putField_ne _ _ _ _ h2 h3]
    · simp [h1, h2, show k ≠ i by omega]
  · by_cases h2 : k < 8
    · simp [h1, h2, show k ≠ i by omega]
    · by_cases h3 : k = i
      · subst h3; simp [h1, getField_putField_same _ (k - 8) _ (by omega)]
      · simp [h1, h2, h3, getField_putField_ne _ _ _ _ (by omega : k - 8 < 8) (by omega : k - 8 ≠ i - 8)]

@[simp] theorem Port.odr_setMode (x : Port) (i : Nat) (m : BitVec 4) : (x.setMode i m).odr = x.odr := by
  unfold Port.setMode; split <;> rfl

@[simp] theorem Port.mode_drive (x : Port) (i k : Nat) (b : Bool) : (x.drive i b).mode k = x.mode k := rfl

/-- An ODR bit after one was driven in its port. -/
theorem Port.odr_drive (x : Port) (i k : Nat) (b : Bool) (hk : k < 16) :
    (x.drive i b).odr.getLsbD k = if k = i then b else x.odr.getLsbD k := by
  simp [Port.drive, getLsbD_putBit _ _ _ _ hk]

theorem pin_toNat_ne {a b : BitVec 4} (h : a ≠ b) : a.toNat ≠ b.toNat := fun e => h (BitVec.eq_of_toNat_eq e)

/-- The ODR bit of every pin after one pin was driven (R19, R102). -/
theorem odrBit_drive (s : State) (r q : PinRef) (b : Bool) :
    odrBit (drive s r b) q = if q = r then b else odrBit s q := by
  obtain ⟨rp, ri⟩ := r
  obtain ⟨qp, qi⟩ := q
  simp only [odrBit, drive, PinRef.mk.injEq]
  by_cases hp : qp = rp
  · subst hp
    rw [port_setPort_same, Port.odr_drive _ _ _ _ qi.isLt]
    by_cases hi : qi = ri
    · subst hi; simp
    · simp [hi, pin_toNat_ne hi]
  · rw [port_setPort_ne _ _ _ _ hp]
    simp [hp]

/-- Driving a pin changes no mode (R97, R102). -/
@[simp] theorem pinMode_drive (s : State) (r q : PinRef) (b : Bool) : pinMode (drive s r b) q = pinMode s q := by
  simp only [pinMode, drive]
  by_cases hp : q.port = r.port
  · rw [hp, port_setPort_same, Port.mode_drive]
  · rw [port_setPort_ne _ _ _ _ hp]

/-- The mode of every pin after one pin's mode was set (R96, R102). -/
theorem pinMode_setMode (s : State) (r q : PinRef) (m : BitVec 4) :
    pinMode (setMode s r m) q = if q = r then m else pinMode s q := by
  obtain ⟨rp, ri⟩ := r
  obtain ⟨qp, qi⟩ := q
  simp only [pinMode, setMode, PinRef.mk.injEq]
  by_cases hp : qp = rp
  · subst hp
    rw [port_setPort_same, Port.mode_setMode _ _ _ _ ri.isLt qi.isLt]
    by_cases hi : qi = ri
    · subst hi; simp
    · simp [hi, pin_toNat_ne hi]
  · rw [port_setPort_ne _ _ _ _ hp]
    simp [hp]

/-- Setting a mode changes no ODR bit (R96). -/
@[simp] theorem odrBit_setMode (s : State) (r q : PinRef) (m : BitVec 4) : odrBit (setMode s r m) q = odrBit s q := by
  simp only [odrBit, setMode]
  by_cases hp : q.port = r.port
  · rw [hp, port_setPort_same, Port.odr_setMode]
  · rw [port_setPort_ne _ _ _ _ hp]

/-- Making a pin an output drives it high and leaves every other ODR bit (R96, R130, R136). -/
theorem odrBit_makeOutHigh (s : State) (r q : PinRef) :
    odrBit (makeOutHigh s r) q = if q = r then true else odrBit s q := by
  rw [makeOutHigh, odrBit_setMode, odrBit_drive]

/-- Making a pin an output sets its mode and no other's. -/
theorem pinMode_makeOutHigh (s : State) (r q : PinRef) :
    pinMode (makeOutHigh s r) q = if q = r then modeOutPp else pinMode s q := by
  rw [makeOutHigh, pinMode_setMode, pinMode_drive]

/-- Floating a pin changes no ODR bit (R96, R133). -/
@[simp] theorem odrBit_makeInFloat (s : State) (r q : PinRef) : odrBit (makeInFloat s r) q = odrBit s q :=
  odrBit_setMode s r q modeInFloat

/-- Floating a pin sets its mode and no other's. -/
theorem pinMode_makeInFloat (s : State) (r q : PinRef) :
    pinMode (makeInFloat s r) q = if q = r then modeInFloat else pinMode s q :=
  pinMode_setMode s r q modeInFloat

/-- The level of a pin by its mode (R100). -/
theorem line_eq (s : State) (r : PinRef) :
    line s r = if pinMode s r = modeOutPp then odrBit s r else (envPort s r.port).getLsbD r.pin.toNat := rfl

/-- An output pin is at its ODR bit (R100). -/
theorem line_of_outPp {s : State} {r : PinRef} (h : pinMode s r = modeOutPp) : line s r = odrBit s r := by
  rw [line_eq, if_pos h]

/-- A floating pin is at ENV (R100). -/
theorem line_of_inFloat {s : State} {r : PinRef} (h : pinMode s r = modeInFloat) :
    line s r = (envPort s r.port).getLsbD r.pin.toNat := by
  rw [line_eq, if_neg (by rw [h]; decide)]

theorem odrBit_congr {s t : State} (h : t.ports = s.ports) (r : PinRef) : odrBit t r = odrBit s r := by
  simp [odrBit, port_congr h]

theorem pinMode_congr {s t : State} (h : t.ports = s.ports) (r : PinRef) : pinMode t r = pinMode s r := by
  simp [pinMode, port_congr h]

end Sys2Proof.Machine
end

