-- ==== Sys2Proof/Laws/Step.lean ====
section
/-! SUPPORT. What a cycle can do, said once: the outcomes of exec, of the host access and of step, and what each
leaves. -/

namespace Sys2Proof.Machine

/-! ## exec -/

/-- What no command's cycle writes: the host's side of the state. -/
theorem SameHostSide.refl (s : State) : SameHostSide s s := ⟨rfl, rfl, rfl, rfl, rfl, rfl, rfl⟩

theorem SameHostSide.trans {s t u : State} (h1 : SameHostSide s t) (h2 : SameHostSide t u) : SameHostSide s u := by
  obtain ⟨a1, a2, a3, a4, a5, a6, a7⟩ := h1
  obtain ⟨b1, b2, b3, b4, b5, b6, b7⟩ := h2
  exact ⟨b1.trans a1, b2.trans a2, b3.trans a3, b4.trans a4, b5.trans a5, b6.trans a6, b7.trans a7⟩

/-- An entry either raises or runs the body (R145, R146). -/
theorem entering_next {i : Instr} {s t : State} {body : Host.Outcome State Fault Refusal}
    (h : entering i s body = .next t) :
    (entryError i s = .ok ∧ body = .next t) ∨ (entryError i s ≠ .ok ∧ t = retire (entryError i s) s) := by
  by_cases he : entryError i s = .ok
  · rw [entering_ok _ he] at h; exact .inl ⟨he, h⟩
  · rw [entering_err _ he] at h
    refine .inr ⟨he, ?_⟩
    simp only [raise, Host.Outcome.next.injEq] at h
    exact h.symm

theorem fix_hostSide {s t : State} {len : Nat} (h : fix s len = some t) : SameHostSide s t := by
  rw [fix_frame h]; exact ⟨rfl, rfl, rfl, rfl, rfl, rfl, rfl⟩

theorem recvCycle_hostSide (s : State) (r : PinRef) : SameHostSide s (recvCycle s r).1 := by
  obtain ⟨_, _, _, _, e⟩ := recvCycle_frame s r
  rw [e]; exact ⟨rfl, rfl, rfl, rfl, rfl, rfl, rfl⟩

theorem txnDeliver_hostSide (p : State × RecvOutcome) : SameHostSide p.1 (txnDeliver p) := by
  obtain ⟨s, o⟩ := p
  cases o with
  | running => exact SameHostSide.refl s
  | byte b =>
    simp only [txnDeliver, SameHostSide]
    split <;> simp
  | timeout => simp [txnDeliver, SameHostSide]

theorem recvbDeliver_hostSide (p : State × RecvOutcome) : SameHostSide p.1 (recvbDeliver p) := by
  obtain ⟨s, o⟩ := p
  cases o <;> exact ⟨rfl, rfl, rfl, rfl, rfl, rfl, rfl⟩

theorem txnSend_hostSide (s : State) (r : PinRef) (len : Nat) (a : SubOp) : SameHostSide s (txnSend s r len a) := by
  unfold txnSend SameHostSide
  split <;> simp

theorem txnGuard_hostSide (s : State) (e : ErrCode) : SameHostSide s (txnGuard s e) := by
  unfold txnGuard
  split <;> exact ⟨rfl, rfl, rfl, rfl, rfl, rfl, rfl⟩

theorem waitCycle_hostSide (s : State) : SameHostSide s (waitCycle s) := by
  unfold waitCycle
  split <;> exact ⟨rfl, rfl, rfl, rfl, rfl, rfl, rfl⟩

theorem txnSetup_next {s t : State} {len : Nat} {r : PinRef} (h : txnSetup s len r = .next t) :
    ∃ u, fix s len = some u ∧ t = { makeOutHigh u r with irqSuppress := true, k := 0, sub := .sendStart } := by
  unfold txnSetup at h
  split at h
  · cases h
  · rename_i u hu
    simp only [Host.Outcome.next.injEq] at h
    exact ⟨u, hu, h.symm⟩

theorem txnSendStart_next {s t : State} {r : PinRef} (h : txnSendStart s r = .next t) :
    ∃ b, txByte s s.k = some b ∧ t = sendEnter s r b := by
  unfold txnSendStart at h
  split at h
  · cases h
  · rename_i b hb
    simp only [Host.Outcome.next.injEq] at h
    exact ⟨b, hb, h.symm⟩

theorem frame_next {s t : State} {len : Nat} (h : frame len s = .next t) : ∃ u, fix s len = some u ∧ t = retire .ok u := by
  unfold frame at h
  split at h
  · cases h
  · rename_i u hu
    simp only [Host.Outcome.next.injEq] at h
    exact ⟨u, hu, h.symm⟩

theorem txnSetup_hostSide {s t : State} {len : Nat} {r : PinRef} (h : txnSetup s len r = .next t) :
    SameHostSide s t := by
  obtain ⟨u, hu, rfl⟩ := txnSetup_next h
  obtain ⟨a1, a2, a3, a4, a5, a6, a7⟩ := fix_hostSide hu
  exact ⟨by simpa using a1, by simpa using a2, by simpa using a3, by simpa using a4, by simpa using a5,
    by simpa using a6, by simpa using a7⟩

/-- No command's cycle writes the host's side of the state: CMD, ARG, OVR, the read data, the inputs, the
configuration (R23, R28, R35, R44). -/
theorem exec_hostSide {i : Instr} {s t : State} (h : exec i s = .next t) : SameHostSide s t := by
  have raised : ∀ e, SameHostSide s (retire e s) := fun e => ⟨rfl, rfl, rfl, rfl, rfl, rfl, rfl⟩
  cases i with
  | nop =>
    simp only [exec, execNop] at h
    rcases entering_next h with ⟨-, e⟩ | ⟨-, rfl⟩
    · cases e; exact raised _
    · exact raised _
  | init =>
    simp only [exec, execInit] at h
    rcases entering_next h with ⟨-, e⟩ | ⟨-, rfl⟩
    · cases e; exact ⟨rfl, rfl, rfl, rfl, rfl, rfl, rfl⟩
    · exact raised _
  | now =>
    simp only [exec, execNow] at h
    rcases entering_next h with ⟨-, e⟩ | ⟨-, rfl⟩
    · cases e; exact ⟨rfl, rfl, rfl, rfl, rfl, rfl, rfl⟩
    · exact raised _
  | elapsed =>
    simp only [exec, execElapsed] at h
    rcases entering_next h with ⟨-, e⟩ | ⟨-, rfl⟩
    · cases e; exact ⟨rfl, rfl, rfl, rfl, rfl, rfl, rfl⟩
    · exact raised _
  | wait =>
    simp only [exec, execWait] at h
    split at h
    · cases h; exact waitCycle_hostSide s
    · rcases entering_next h with ⟨-, e⟩ | ⟨-, rfl⟩
      · cases e; exact waitCycle_hostSide _
      · exact raised _
  | setmode port pin mode =>
    simp only [exec, execSetmode] at h
    rcases entering_next h with ⟨-, e⟩ | ⟨-, rfl⟩
    · cases e
      split <;> exact ⟨rfl, rfl, rfl, rfl, rfl, rfl, rfl⟩
    · exact raised _
  | setlvl port pin lvl =>
    simp only [exec, execSetlvl] at h
    rcases entering_next h with ⟨-, e⟩ | ⟨-, rfl⟩
    · cases e; exact ⟨rfl, rfl, rfl, rfl, rfl, rfl, rfl⟩
    · exact raised _
  | getlvl port pin =>
    simp only [exec, execGetlvl] at h
    rcases entering_next h with ⟨-, e⟩ | ⟨-, rfl⟩
    · cases e; exact ⟨rfl, rfl, rfl, rfl, rfl, rfl, rfl⟩
    · exact raised _
  | sendb port pin =>
    simp only [exec, execSendb] at h
    split at h
    · cases h
      unfold SameHostSide
      split <;> simp
    · rcases entering_next h with ⟨-, e⟩ | ⟨-, rfl⟩
      · cases e; exact ⟨rfl, rfl, rfl, rfl, rfl, rfl, rfl⟩
      · exact raised _
  | recvb port pin =>
    simp only [exec, execRecvb] at h
    split at h
    · cases h; exact (recvCycle_hostSide _ _).trans (recvbDeliver_hostSide _)
    · cases h; exact (recvCycle_hostSide _ _).trans (recvbDeliver_hostSide _)
    · rcases entering_next h with ⟨-, e⟩ | ⟨-, rfl⟩
      · cases e
        have h0 : SameHostSide s (recvEnter s) := ⟨rfl, rfl, rfl, rfl, rfl, rfl, rfl⟩
        exact h0.trans ((recvCycle_hostSide _ _).trans (recvbDeliver_hostSide _))
      · exact raised _
  | framew =>
    simp only [exec, execFramew] at h
    rcases entering_next h with ⟨-, e⟩ | ⟨-, rfl⟩
    · obtain ⟨u, hu, rfl⟩ := frame_next e
      exact (fix_hostSide hu).trans ⟨rfl, rfl, rfl, rfl, rfl, rfl, rfl⟩
    · exact raised _
  | framer =>
    simp only [exec, execFramer] at h
    rcases entering_next h with ⟨-, e⟩ | ⟨-, rfl⟩
    · obtain ⟨u, hu, rfl⟩ := frame_next e
      exact (fix_hostSide hu).trans ⟨rfl, rfl, rfl, rfl, rfl, rfl, rfl⟩
    · exact raised _
  | wrtxn axis =>
    simp only [exec, execWrtxn] at h
    split at h
    · cases h; exact raised _
    · simp only [wrtxnCycle] at h
      split at h
      · obtain ⟨b, -, rfl⟩ := txnSendStart_next h
        exact ⟨rfl, rfl, rfl, rfl, rfl, rfl, rfl⟩
      · cases h; exact txnSend_hostSide _ _ _ _
      · cases h
        have h0 : SameHostSide s { s with t0 := s.cyccnt, sub := .guarding } := ⟨rfl, rfl, rfl, rfl, rfl, rfl, rfl⟩
        exact h0.trans (txnGuard_hostSide _ _)
      · cases h; exact txnGuard_hostSide _ _
      · rcases entering_next h with ⟨-, e⟩ | ⟨-, rfl⟩
        · exact txnSetup_hostSide e
        · exact raised _
  | rdtxn axis =>
    simp only [exec, execRdtxn] at h
    split at h
    · cases h; exact raised _
    · simp only [rdtxnCycle] at h
      split at h
      · obtain ⟨b, -, rfl⟩ := txnSendStart_next h
        exact ⟨rfl, rfl, rfl, rfl, rfl, rfl, rfl⟩
      · cases h; exact txnSend_hostSide _ _ _ _
      · cases h; exact ⟨rfl, rfl, rfl, rfl, rfl, rfl, rfl⟩
      · cases h; exact (recvCycle_hostSide _ _).trans (txnDeliver_hostSide _)
      · cases h; exact (recvCycle_hostSide _ _).trans (txnDeliver_hostSide _)
      · cases h; exact ⟨rfl, rfl, rfl, rfl, rfl, rfl, rfl⟩
      · cases h
        have h0 : SameHostSide s { s with t0 := s.cyccnt, sub := .guarding } := ⟨rfl, rfl, rfl, rfl, rfl, rfl, rfl⟩
        exact h0.trans (txnGuard_hostSide _ _)
      · cases h; exact txnGuard_hostSide _ _
      · rcases entering_next h with ⟨-, e⟩ | ⟨-, rfl⟩
        · have h0 : SameHostSide s { s with tout := false } := ⟨rfl, rfl, rfl, rfl, rfl, rfl, rfl⟩
          exact h0.trans (txnSetup_hostSide e)
        · exact raised _

/-! ## The host access -/

/-- A cycle with no access leaves everything but the read data. -/
theorem serve_none {s : State} (h : (currentInput s).access = none) : serve s = .next { s with rdata := none } := by
  simp [serve, h]

/-- The host access is served or faults; it is never refused. -/
theorem serve_ne_refused (s : State) (r : Refusal) : serve s ≠ .refused r := by
  unfold serve
  split
  · simp
  · split <;> simp
  · split <;> simp

/-- While a command runs, the host changes OVR and the read data and nothing else (R52). -/
theorem serve_busy {s h : State} (hb : s.busy = true) (hs : serve s = .next h) :
    ∃ o d, h = { s with ovr := o, rdata := d } := by
  unfold serve at hs
  split at hs
  · cases hs; exact ⟨s.ovr, none, rfl⟩
  · split at hs
    · cases hs; exact ⟨s.ovr, none, rfl⟩
    · cases hs
    · cases hs; exact ⟨s.ovr, _, rfl⟩
  · split at hs
    · cases hs; exact ⟨s.ovr, none, rfl⟩
    · cases hs
    · cases hs
      simp only [hostWrite, hb, if_true]
      split
      · exact ⟨_, none, rfl⟩
      · exact ⟨true, none, rfl⟩

/-- What the host never writes, idle or busy: RESULT, the counter, IRQ_SUPPRESS, the engine's registers but SUB, the
configuration and the inputs (R24, R32, R33, R39, R44, R46). -/
theorem serve_frame {s h : State} (hs : serve s = .next h) :
    h.cfg = s.cfg ∧ h.result = s.result ∧ h.cyccnt = s.cyccnt ∧ h.cycEn = s.cycEn ∧ h.irqSuppress = s.irqSuppress
      ∧ h.t0 = s.t0 ∧ h.txb = s.txb ∧ h.k = s.k ∧ h.j = s.j ∧ h.sh = s.sh ∧ h.tout = s.tout ∧ h.inputs = s.inputs
      ∧ h.cycle = s.cycle := by
  unfold serve at hs
  split at hs
  · cases hs; and_intros <;> rfl
  · split at hs <;> cases hs
    all_goals and_intros <;> rfl
  · split at hs
    · cases hs; and_intros <;> rfl
    · cases hs
    · rename_i v _ r _
      cases hs
      unfold hostWrite
      split
      · and_intros <;> rfl
      · split
        · and_intros <;> rfl
        · cases r <;> and_intros <;> rfl

/-! ## step -/

/-- What a step that goes on has done, every case of it (R21, R74, R83, R160). -/
theorem step_cases {s t : State} (h : step s = .next t) :
    ((currentInput s).reset = true ∧ t = resetCycle s)
      ∨ ((currentInput s).reset = false ∧ ∃ u, serve s = .next u
          ∧ ((s.busy = false ∧ t = endCycle false u)
            ∨ (s.busy = true ∧ (∃ e, decode u.cmd = .error e) ∧ t = endCycle false (retire .illegalCmd u))
            ∨ (s.busy = true ∧ ∃ i v, decode u.cmd = .ok i ∧ exec i u = .next v
                ∧ t = endCycle (performsInit i) v))) := by
  unfold step at h
  split at h
  · rename_i hr; cases h; exact .inl ⟨hr, rfl⟩
  · rename_i hr
    refine .inr ⟨by simpa using hr, ?_⟩
    split at h
    · cases h
    · cases h
    · rename_i u hu
      refine ⟨u, hu, ?_⟩
      split at h
      · rename_i hb
        unfold engineCycle at h
        split at h
        · rename_i e he; cases h; exact .inr (.inl ⟨hb, ⟨e, he⟩, rfl⟩)
        · rename_i i hi
          split at h
          · rename_i v hv; cases h; exact .inr (.inr ⟨hb, i, v, hi, hv, rfl⟩)
          · cases h
          · cases h
      · rename_i hb; cases h; exact .inl ⟨by simpa using hb, rfl⟩

/-- A quiet cycle of a running command is its cycle of exec, then the counter. -/
theorem step_quiet_exec {s t : State} {i : Instr} (hq : QuietNow s) (hb : s.busy = true) (hd : decode s.cmd = .ok i)
    (he : exec i { s with rdata := none } = .next t) : step s = .next (endCycle (performsInit i) t) := by
  simp [step, hq.1, serve_none hq.2, hb, engineCycle, hd, he]

/-- A quiet cycle of the idle machine: the counter alone. -/
theorem step_quiet_idle {s : State} (hq : QuietNow s) (hb : s.busy = false) :
    step s = .next (endCycle false { s with rdata := none }) := by
  simp [step, hq.1, serve_none hq.2, hb]

/-! ## Quiet runs -/

theorem QuietFor.now {n : Nat} {s : State} (h : QuietFor (n + 1) s) : QuietNow s := by
  unfold QuietNow currentInput
  cases hi : s.inputs with
  | nil => exact ⟨rfl, rfl⟩
  | cons x xs => exact h x (by simp [hi])

theorem QuietFor.mono {n m : Nat} {s : State} (hm : m ≤ n) (h : QuietFor n s) : QuietFor m s := by
  intro x hx
  exact h x ((List.take_prefix_take_left hm).subset hx)

/-- The cycles after the first are quiet too. -/
theorem QuietFor.tail {n : Nat} {s t : State} (h : QuietFor (n + 1) s) (ht : t.inputs = s.inputs.tail) :
    QuietFor n t := by
  intro x hx
  rw [ht] at hx
  cases hi : s.inputs with
  | nil => simp [hi] at hx
  | cons y ys => exact h x (by rw [hi] at hx ⊢; simp only [List.tail_cons] at hx; exact List.mem_cons_of_mem _ hx)

/-- Runs compose. -/
theorem cycles_add {m n : Nat} {s t : State} (h : cycles m s = .next t) : cycles (m + n) s = cycles n t := by
  induction m generalizing s with
  | zero => simp [cycles] at h; subst h; simp
  | succ m ih =>
    rw [Nat.succ_add]
    simp only [cycles] at h ⊢
    split at h
    · exact ih h
    · cases h
    · cases h

/-- One more cycle. -/
theorem cycles_succ {n : Nat} {s t : State} (h : cycles n s = .next t) : cycles (n + 1) s = step t := by
  rw [cycles_add h]
  simp only [cycles]
  cases step t <;> rfl

/-- ENV of the current cycle, as a claim about the coming cycles says it (R100). -/
theorem envPort_eq_envLater (s : State) (r : PinRef) :
    (envPort s r.port).getLsbD r.pin.toNat = envLater s 0 r := by
  unfold envPort envLater currentInput
  cases s.inputs <;> simp

/-- One cycle on, ENV of the m-th cycle ahead is that of the (m+1)-th before. -/
theorem envLater_succ {s t : State} (hi : t.inputs = s.inputs.tail) (hc : t.cycle = s.cycle + 1) (m : Nat)
    (r : PinRef) : envLater t m r = envLater s (m + 1) r := by
  unfold envLater
  rw [hi, hc]
  cases s.inputs with
  | nil => simp [Nat.add_assoc, Nat.add_comm 1 m]
  | cons x xs => simp [Nat.add_assoc, Nat.add_comm 1 m]

end Sys2Proof.Machine
end

