-- ==== Sys2Proof/Laws/Commands.lean ====
section
/-! SUPPORT. What a cycle of each command can do, every case of it: one lemma per command, to be cited in place of
unfolding its meaning. -/

namespace Sys2Proof.Machine

/-! ## Entry checks, by command -/

/-- The commands without an entry check beyond their fields never raise (R86, R87, R124, R125). -/
theorem entryError_plain {i : Instr} (s : State) (h : i = .nop ∨ i = .init ∨ i = .framew ∨ i = .framer) :
    entryError i s = .ok := by
  rw [entryError_eq_ok]
  rcases h with rfl | rfl | rfl | rfl <;> simp [Instr.wellFormed, axisOf, isTimed]

/-- A pin command on an existing port passes its checks (R96-R98). -/
theorem entryError_pin {i : Instr} (s : State) (h : isTimed i = false) (ha : axisOf i = none)
    (hw : i.wellFormed s.cfg.params.nPorts = true) : entryError i s = .ok := by
  rw [entryError_eq_ok]
  refine ⟨hw, by simp [ha], by simp [h], ?_⟩
  rintro rfl
  simp [isTimed] at h

/-- A timed command with legal fields passes its checks when the counter runs (R85, R88-R90, R106, R117). -/
theorem entryError_timed {i : Instr} {s : State} (ha : axisOf i = none) (hc : s.cycEn = true)
    (hw : i.wellFormed s.cfg.params.nPorts = true) (ho : i = .wait → s.arg.toNat < 2 ^ 31) :
    entryError i s = .ok := by
  rw [entryError_eq_ok]
  exact ⟨hw, by simp [ha], fun _ => hc, ho⟩

/-- A transaction on a mapped axis passes its checks when the counter runs (R85, R128). -/
theorem entryError_txn {i : Instr} {s : State} {axis : BitVec 4} {r : PinRef} (ha : axisOf i = some axis)
    (hr : axisPin s axis = some r) (hc : s.cycEn = true) : entryError i s = .ok := by
  rw [entryError_eq_ok]
  cases i <;> simp only [axisOf, Option.some.injEq, reduceCtorEq] at ha
  all_goals subst ha; simp [Instr.wellFormed, axisOf, hr, hc]

/-! ## One lemma per command -/

theorem execNop_eq (s : State) : exec .nop s = .next (retire .ok s) := by
  simp only [exec, execNop, entering_ok _ (entryError_plain s (.inl rfl))]

theorem execInit_eq (s : State) : exec .init s = .next (retire .ok { s with cyccnt := 0, cycEn := true }) := by
  simp only [exec, execInit, entering_ok _ (entryError_plain s (.inr (.inl rfl)))]

theorem execNow_eq {s : State} (h : s.cycEn = true) :
    exec .now s = .next (retire .ok { s with result := s.cyccnt }) := by
  simp only [exec, execNow, entering_ok _ (entryError_timed (i := .now) rfl h rfl (by simp))]

theorem execElapsed_eq {s : State} (h : s.cycEn = true) :
    exec .elapsed s = .next (retire .ok { s with result := s.cyccnt - s.arg }) := by
  simp only [exec, execElapsed, entering_ok _ (entryError_timed (i := .elapsed) rfl h rfl (by simp))]
  rfl

theorem execNow_cases {s t : State} (h : exec .now s = .next t) :
    (entryError .now s = .ok ∧ t = retire .ok { s with result := s.cyccnt })
      ∨ (entryError .now s ≠ .ok ∧ t = retire (entryError .now s) s) := by
  rcases entering_next h with ⟨he, e⟩ | h2
  · cases e; exact .inl ⟨he, rfl⟩
  · exact .inr h2

theorem execElapsed_cases {s t : State} (h : exec .elapsed s = .next t) :
    (entryError .elapsed s = .ok ∧ t = retire .ok { s with result := s.cyccnt - s.arg })
      ∨ (entryError .elapsed s ≠ .ok ∧ t = retire (entryError .elapsed s) s) := by
  rcases entering_next h with ⟨he, e⟩ | h2
  · cases e; exact .inl ⟨he, rfl⟩
  · exact .inr h2

theorem execWait_cases {s t : State} (h : exec .wait s = .next t) :
    (s.sub = .waiting ∧ t = waitCycle s)
      ∨ (s.sub ≠ .waiting ∧ entryError .wait s = .ok ∧ t = waitCycle { s with t0 := s.cyccnt, sub := .waiting })
      ∨ (s.sub ≠ .waiting ∧ entryError .wait s ≠ .ok ∧ t = retire (entryError .wait s) s) := by
  simp only [exec, execWait] at h
  split at h
  · cases h; exact .inl ⟨‹_›, rfl⟩
  · rcases entering_next h with ⟨he, e⟩ | h2
    · cases e; exact .inr (.inl ⟨‹_›, he, rfl⟩)
    · exact .inr (.inr ⟨‹_›, h2⟩)

theorem execSetmode_cases {port : BitVec 3} {pin mode : BitVec 4} {s t : State}
    (h : exec (.setmode port pin mode) s = .next t) :
    (entryError (.setmode port pin mode) s = .ok ∧ mode = modeOutPp ∧ t = retire .ok (makeOutHigh s (pinOf port pin)))
      ∨ (entryError (.setmode port pin mode) s = .ok ∧ mode = modeInFloat
          ∧ t = retire .ok (makeInFloat s (pinOf port pin)))
      ∨ (entryError (.setmode port pin mode) s ≠ .ok ∧ t = retire (entryError (.setmode port pin mode) s) s) := by
  simp only [exec, execSetmode] at h
  rcases entering_next h with ⟨he, e⟩ | h2
  · have hw := (entryError_eq_ok.mp he).1
    simp only [Instr.wellFormed, legalMode, Bool.and_eq_true, Bool.or_eq_true, beq_iff_eq] at hw
    by_cases hm : mode = modeOutPp
    · rw [if_pos hm] at e; cases e; exact .inl ⟨he, hm, rfl⟩
    · rw [if_neg hm] at e; cases e; exact .inr (.inl ⟨he, hw.2.resolve_left hm, rfl⟩)
  · exact .inr (.inr h2)

theorem execSetlvl_cases {port : BitVec 3} {pin : BitVec 4} {lvl : Bool} {s t : State}
    (h : exec (.setlvl port pin lvl) s = .next t) :
    (entryError (.setlvl port pin lvl) s = .ok ∧ t = retire .ok (drive s (pinOf port pin) lvl))
      ∨ (entryError (.setlvl port pin lvl) s ≠ .ok ∧ t = retire (entryError (.setlvl port pin lvl) s) s) := by
  rcases entering_next h with ⟨he, e⟩ | h2
  · cases e; exact .inl ⟨he, rfl⟩
  · exact .inr h2

theorem execGetlvl_cases {port : BitVec 3} {pin : BitVec 4} {s t : State}
    (h : exec (.getlvl port pin) s = .next t) :
    (entryError (.getlvl port pin) s = .ok
        ∧ t = retire .ok { s with result := bitWord (line s (pinOf port pin)) })
      ∨ (entryError (.getlvl port pin) s ≠ .ok ∧ t = retire (entryError (.getlvl port pin) s) s) := by
  rcases entering_next h with ⟨he, e⟩ | h2
  · cases e; exact .inl ⟨he, rfl⟩
  · exact .inr h2

theorem execSendb_cases {port : BitVec 3} {pin : BitVec 4} {s t : State} (h : exec (.sendb port pin) s = .next t) :
    (s.sub = .sending ∧ sendEnds s = true ∧ t = retire .ok (sendEdge s (pinOf port pin)))
      ∨ (s.sub = .sending ∧ sendEnds s = false ∧ t = sendEdge s (pinOf port pin))
      ∨ (s.sub ≠ .sending ∧ entryError (.sendb port pin) s = .ok ∧ t = sendEnter s (pinOf port pin) (argByte s))
      ∨ (s.sub ≠ .sending ∧ entryError (.sendb port pin) s ≠ .ok
          ∧ t = retire (entryError (.sendb port pin) s) s) := by
  simp only [exec, execSendb] at h
  split at h
  · cases he : sendEnds s <;> rw [he] at h <;> cases h
    · exact .inr (.inl ⟨‹_›, rfl, rfl⟩)
    · exact .inl ⟨‹_›, rfl, rfl⟩
  · rcases entering_next h with ⟨he, e⟩ | h2
    · cases e; exact .inr (.inr (.inl ⟨‹_›, he, rfl⟩))
    · exact .inr (.inr (.inr ⟨‹_›, h2⟩))

/-- RECV from its entry polls at once (R112, R117). -/
theorem recvCycle_enter (s : State) (r : PinRef) : recvCycle (recvEnter s) r = recvPoll (recvEnter s) r := rfl

theorem execRecvb_cases {port : BitVec 3} {pin : BitVec 4} {s t : State} (h : exec (.recvb port pin) s = .next t) :
    (s.sub = .poll ∧ t = recvbDeliver (recvPoll s (pinOf port pin)))
      ∨ (s.sub = .data ∧ t = recvbDeliver (recvData s (pinOf port pin)))
      ∨ (s.sub ≠ .poll ∧ s.sub ≠ .data ∧ entryError (.recvb port pin) s = .ok
          ∧ t = recvbDeliver (recvPoll (recvEnter s) (pinOf port pin)))
      ∨ (s.sub ≠ .poll ∧ s.sub ≠ .data ∧ entryError (.recvb port pin) s ≠ .ok
          ∧ t = retire (entryError (.recvb port pin) s) s) := by
  simp only [exec, execRecvb] at h
  split at h
  · rename_i hp; cases h; rw [recvCycle_poll hp]; exact .inl ⟨hp, rfl⟩
  · rename_i hp; cases h; rw [recvCycle_data hp]; exact .inr (.inl ⟨hp, rfl⟩)
  · rename_i h1 h2
    rcases entering_next h with ⟨he, e⟩ | h3
    · cases e; exact .inr (.inr (.inl ⟨h1, h2, he, rfl⟩))
    · exact .inr (.inr (.inr ⟨h1, h2, h3⟩))

theorem execFramew_eq {s t : State} (h : fix s s.cfg.params.writeLen = some t) :
    exec .framew s = .next (retire .ok t) := by
  simp only [exec, execFramew, entering_ok _ (entryError_plain s (.inr (.inr (.inl rfl)))), frame, h]

theorem execFramer_eq {s t : State} (h : fix s s.cfg.params.reqLen = some t) :
    exec .framer s = .next (retire .ok t) := by
  simp only [exec, execFramer, entering_ok _ (entryError_plain s (.inr (.inr (.inr rfl)))), frame, h]

theorem execFramew_cases {s t : State} (h : exec .framew s = .next t) :
    ∃ u, fix s s.cfg.params.writeLen = some u ∧ t = retire .ok u := by
  simp only [exec, execFramew, entering_ok _ (entryError_plain s (.inr (.inr (.inl rfl))))] at h
  exact frame_next h

theorem execFramer_cases {s t : State} (h : exec .framer s = .next t) :
    ∃ u, fix s s.cfg.params.reqLen = some u ∧ t = retire .ok u := by
  simp only [exec, execFramer, entering_ok _ (entryError_plain s (.inr (.inr (.inr rfl))))] at h
  exact frame_next h

/-- What a cycle of a write transaction on the pin `r` leaves, by the sub-operation it is in (R137). -/
inductive WrtxnCycle (axis : BitVec 4) (r : PinRef) (s : State) : State → Prop
  | sendStart {b : Byte} (hs : s.sub = .sendStart) (hb : txByte s s.k = some b) :
      WrtxnCycle axis r s (sendEnter s r b)
  | sending (hs : s.sub = .sending) : WrtxnCycle axis r s (txnSend s r s.cfg.params.writeLen .guardStart)
  | guardStart (hs : s.sub = .guardStart) : WrtxnCycle axis r s (txnGuardStart s .ok)
  | guarding (hs : s.sub = .guarding) : WrtxnCycle axis r s (txnGuard s .ok)
  | setup {u : State} (hs : s.sub ∉ subOps (.wrtxn axis)) (he : entryError (.wrtxn axis) s = .ok)
      (hu : fix s s.cfg.params.writeLen = some u) :
      WrtxnCycle axis r s { makeOutHigh u r with irqSuppress := true, k := 0, sub := .sendStart }
  | raised (hs : s.sub ∉ subOps (.wrtxn axis)) (he : entryError (.wrtxn axis) s ≠ .ok) :
      WrtxnCycle axis r s (retire (entryError (.wrtxn axis) s) s)

theorem execWrtxn_cases {axis : BitVec 4} {s t : State} (h : exec (.wrtxn axis) s = .next t) :
    (axisPin s axis = none ∧ t = retire .unsupportedAxis s)
      ∨ ∃ r, axisPin s axis = some r ∧ WrtxnCycle axis r s t := by
  simp only [exec, execWrtxn] at h
  split at h
  · cases h; exact .inl ⟨‹_›, rfl⟩
  · rename_i r hr
    refine .inr ⟨r, hr, ?_⟩
    simp only [wrtxnCycle] at h
    split at h
    · obtain ⟨b, hb, rfl⟩ := txnSendStart_next h; exact .sendStart ‹_› hb
    · cases h; exact .sending ‹_›
    · cases h; exact .guardStart ‹_›
    · cases h; exact .guarding ‹_›
    · have hs : s.sub ∉ subOps (.wrtxn axis) := by
        simp [subOps]
        and_intros <;> assumption
      rcases entering_next h with ⟨he, e⟩ | ⟨he, rfl⟩
      · obtain ⟨u, hu, rfl⟩ := txnSetup_next e; exact .setup hs he hu
      · exact .raised hs he

/-- What a cycle of a read transaction on the pin `r` leaves, by the sub-operation it is in (R138). -/
inductive RdtxnCycle (axis : BitVec 4) (r : PinRef) (s : State) : State → Prop
  | sendStart {b : Byte} (hs : s.sub = .sendStart) (hb : txByte s s.k = some b) :
      RdtxnCycle axis r s (sendEnter s r b)
  | sending (hs : s.sub = .sending) : RdtxnCycle axis r s (txnSend s r s.cfg.params.reqLen .turn)
  | turn (hs : s.sub = .turn) : RdtxnCycle axis r s (txnTurn s r)
  | poll (hs : s.sub = .poll) : RdtxnCycle axis r s (txnDeliver (recvPoll s r))
  | data (hs : s.sub = .data) : RdtxnCycle axis r s (txnDeliver (recvData s r))
  | restore (hs : s.sub = .restore) : RdtxnCycle axis r s (txnRestore s r)
  | guardStart (hs : s.sub = .guardStart) : RdtxnCycle axis r s (txnGuardStart s (readCode s))
  | guarding (hs : s.sub = .guarding) : RdtxnCycle axis r s (txnGuard s (readCode s))
  | setup {u : State} (hs : s.sub ∉ subOps (.rdtxn axis)) (he : entryError (.rdtxn axis) s = .ok)
      (hu : fix { s with tout := false } s.cfg.params.reqLen = some u) :
      RdtxnCycle axis r s { makeOutHigh u r with irqSuppress := true, k := 0, sub := .sendStart }
  | raised (hs : s.sub ∉ subOps (.rdtxn axis)) (he : entryError (.rdtxn axis) s ≠ .ok) :
      RdtxnCycle axis r s (retire (entryError (.rdtxn axis) s) s)

theorem execRdtxn_cases {axis : BitVec 4} {s t : State} (h : exec (.rdtxn axis) s = .next t) :
    (axisPin s axis = none ∧ t = retire .unsupportedAxis s)
      ∨ ∃ r, axisPin s axis = some r ∧ RdtxnCycle axis r s t := by
  simp only [exec, execRdtxn] at h
  split at h
  · cases h; exact .inl ⟨‹_›, rfl⟩
  · rename_i r hr
    refine .inr ⟨r, hr, ?_⟩
    simp only [rdtxnCycle] at h
    split at h
    · obtain ⟨b, hb, rfl⟩ := txnSendStart_next h; exact .sendStart ‹_› hb
    · cases h; exact .sending ‹_›
    · cases h; exact .turn ‹_›
    · rename_i hp; cases h; rw [recvCycle_poll hp]; exact .poll hp
    · rename_i hp; cases h; rw [recvCycle_data hp]; exact .data hp
    · cases h; exact .restore ‹_›
    · cases h; exact .guardStart ‹_›
    · cases h; exact .guarding ‹_›
    · have hs : s.sub ∉ subOps (.rdtxn axis) := by
        simp [subOps]
        and_intros <;> assumption
      rcases entering_next h with ⟨he, e⟩ | ⟨he, rfl⟩
      · obtain ⟨u, hu, rfl⟩ := txnSetup_next e; exact .setup hs he hu
      · exact .raised hs he

/-! ## The cycles of the longer commands, by sub-operation -/

theorem execWait_entry {s : State} (hs : s.sub = .entry) (hc : s.cycEn = true) (ha : s.arg.toNat < 2 ^ 31) :
    exec .wait s = .next (waitCycle { s with t0 := s.cyccnt, sub := .waiting }) := by
  have he : entryError .wait s = .ok := entryError_timed rfl hc rfl fun _ => ha
  simp only [exec, execWait]
  split
  · rename_i h; rw [hs] at h; cases h
  · exact entering_ok _ he

theorem execWait_waiting {s : State} (hs : s.sub = .waiting) : exec .wait s = .next (waitCycle s) := by
  simp [exec, execWait, hs]

theorem execSendb_entry {s : State} {port : BitVec 3} {pin : BitVec 4} (hs : s.sub = .entry) (hc : s.cycEn = true)
    (hp : port.toNat < s.cfg.params.nPorts) :
    exec (.sendb port pin) s = .next (sendEnter s ⟨port, pin⟩ (argByte s)) := by
  have he : entryError (.sendb port pin) s = .ok :=
    entryError_timed rfl hc (by simp [Instr.wellFormed, legalPort, hp]) (by simp)
  simp only [exec, execSendb]
  split
  · rename_i h; rw [hs] at h; cases h
  · exact entering_ok _ he

theorem execSendb_sending {s : State} {port : BitVec 3} {pin : BitVec 4} (hs : s.sub = .sending) :
    exec (.sendb port pin) s
      = .next (if sendEnds s then retire .ok (sendEdge s ⟨port, pin⟩) else sendEdge s ⟨port, pin⟩) := by
  simp [exec, execSendb, hs, pinOf]

theorem execRecvb_entry {s : State} {port : BitVec 3} {pin : BitVec 4} (hs : s.sub = .entry) (hc : s.cycEn = true)
    (hp : port.toNat < s.cfg.params.nPorts) :
    exec (.recvb port pin) s = .next (recvbDeliver (recvPoll (recvEnter s) ⟨port, pin⟩)) := by
  have he : entryError (.recvb port pin) s = .ok :=
    entryError_timed rfl hc (by simp [Instr.wellFormed, legalPort, hp]) (by simp)
  simp only [exec, execRecvb]
  split
  · rename_i h; rw [hs] at h; cases h
  · rename_i h; rw [hs] at h; cases h
  · exact entering_ok _ he

theorem execRecvb_poll {s : State} {port : BitVec 3} {pin : BitVec 4} (hs : s.sub = .poll) :
    exec (.recvb port pin) s = .next (recvbDeliver (recvPoll s ⟨port, pin⟩)) := by
  simp only [exec, execRecvb, hs, recvCycle_poll hs]; rfl

theorem execRecvb_data {s : State} {port : BitVec 3} {pin : BitVec 4} (hs : s.sub = .data) :
    exec (.recvb port pin) s = .next (recvbDeliver (recvData s ⟨port, pin⟩)) := by
  simp only [exec, execRecvb, hs, recvCycle_data hs]; rfl

section
variable {s : State} {axis : BitVec 4} {r : PinRef}

theorem execWrtxn_entry (hr : axisPin s axis = some r) (hs : s.sub = .entry) (hc : s.cycEn = true) :
    exec (.wrtxn axis) s = txnSetup s s.cfg.params.writeLen r := by
  unfold exec execWrtxn
  simp only [hr]
  unfold wrtxnCycle
  split <;> first | (rename_i h; rw [hs] at h; cases h) | exact entering_ok _ (entryError_txn rfl hr hc)

theorem execRdtxn_entry (hr : axisPin s axis = some r) (hs : s.sub = .entry) (hc : s.cycEn = true) :
    exec (.rdtxn axis) s = txnSetup { s with tout := false } s.cfg.params.reqLen r := by
  unfold exec execRdtxn
  simp only [hr]
  unfold rdtxnCycle
  split <;> first | (rename_i h; rw [hs] at h; cases h) | exact entering_ok _ (entryError_txn rfl hr hc)

theorem execWrtxn_sendStart (hr : axisPin s axis = some r) (hs : s.sub = .sendStart) :
    exec (.wrtxn axis) s = txnSendStart s r := by
  simp only [exec, execWrtxn, hr, wrtxnCycle, hs]

theorem execRdtxn_sendStart (hr : axisPin s axis = some r) (hs : s.sub = .sendStart) :
    exec (.rdtxn axis) s = txnSendStart s r := by
  simp only [exec, execRdtxn, hr, rdtxnCycle, hs]

theorem execWrtxn_sending (hr : axisPin s axis = some r) (hs : s.sub = .sending) :
    exec (.wrtxn axis) s = .next (txnSend s r s.cfg.params.writeLen .guardStart) := by
  simp only [exec, execWrtxn, hr, wrtxnCycle, hs]

theorem execRdtxn_sending (hr : axisPin s axis = some r) (hs : s.sub = .sending) :
    exec (.rdtxn axis) s = .next (txnSend s r s.cfg.params.reqLen .turn) := by
  simp only [exec, execRdtxn, hr, rdtxnCycle, hs]

theorem execRdtxn_turn (hr : axisPin s axis = some r) (hs : s.sub = .turn) :
    exec (.rdtxn axis) s = .next (txnTurn s r) := by
  simp only [exec, execRdtxn, hr, rdtxnCycle, hs]

theorem execRdtxn_poll (hr : axisPin s axis = some r) (hs : s.sub = .poll) :
    exec (.rdtxn axis) s = .next (txnDeliver (recvPoll s r)) := by
  simp only [exec, execRdtxn, hr, rdtxnCycle, hs, recvCycle_poll hs]

theorem execRdtxn_data (hr : axisPin s axis = some r) (hs : s.sub = .data) :
    exec (.rdtxn axis) s = .next (txnDeliver (recvData s r)) := by
  simp only [exec, execRdtxn, hr, rdtxnCycle, hs, recvCycle_data hs]

theorem execRdtxn_restore (hr : axisPin s axis = some r) (hs : s.sub = .restore) :
    exec (.rdtxn axis) s = .next (txnRestore s r) := by
  simp only [exec, execRdtxn, hr, rdtxnCycle, hs]

theorem execWrtxn_guardStart (hr : axisPin s axis = some r) (hs : s.sub = .guardStart) :
    exec (.wrtxn axis) s = .next (txnGuardStart s .ok) := by
  simp only [exec, execWrtxn, hr, wrtxnCycle, hs]

theorem execRdtxn_guardStart (hr : axisPin s axis = some r) (hs : s.sub = .guardStart) :
    exec (.rdtxn axis) s = .next (txnGuardStart s (readCode s)) := by
  simp only [exec, execRdtxn, hr, rdtxnCycle, hs]

theorem execWrtxn_guarding (hr : axisPin s axis = some r) (hs : s.sub = .guarding) :
    exec (.wrtxn axis) s = .next (txnGuard s .ok) := by
  simp only [exec, execWrtxn, hr, wrtxnCycle, hs]

theorem execRdtxn_guarding (hr : axisPin s axis = some r) (hs : s.sub = .guarding) :
    exec (.rdtxn axis) s = .next (txnGuard s (readCode s)) := by
  simp only [exec, execRdtxn, hr, rdtxnCycle, hs]

end

/-! ## What exec keeps, over all commands -/

/-- RECV's delivery and its cycles leave the counter alone. -/
theorem recvbDeliver_timer (p : State × RecvOutcome) : SameTimer p.1 (recvbDeliver p) := by
  obtain ⟨s, o⟩ := p
  cases o <;> exact ⟨rfl, rfl⟩

theorem txnDeliver_timer (p : State × RecvOutcome) : SameTimer p.1 (txnDeliver p) := by
  obtain ⟨s, o⟩ := p
  cases o with
  | running => exact ⟨rfl, rfl⟩
  | byte b => simp only [txnDeliver]; split <;> exact ⟨by simp, by simp⟩
  | timeout => exact ⟨by simp [txnDeliver], by simp [txnDeliver]⟩

theorem recvPoll_timer (s : State) (r : PinRef) : SameTimer s (recvPoll s r).1 := by
  rcases recvPoll_cases s r with ⟨-, e⟩ | ⟨-, -, e⟩ | ⟨-, -, e⟩ <;> rw [e] <;> exact ⟨rfl, rfl⟩

theorem recvData_timer (s : State) (r : PinRef) : SameTimer s (recvData s r).1 := by
  rcases recvData_cases s r with ⟨-, e⟩ | ⟨-, e⟩ <;> rw [e] <;> exact ⟨by simp, by simp⟩

theorem txnSend_timer (s : State) (r : PinRef) (len : Nat) (a : SubOp) : SameTimer s (txnSend s r len a) := by
  unfold txnSend SameTimer; split <;> simp

theorem txnGuard_timer (s : State) (e : ErrCode) : SameTimer s (txnGuard s e) := by
  unfold txnGuard; split <;> exact ⟨rfl, rfl⟩

theorem waitCycle_timer (s : State) : SameTimer s (waitCycle s) := by
  unfold waitCycle; split <;> exact ⟨rfl, rfl⟩

theorem fix_timer {s t : State} {len : Nat} (h : fix s len = some t) : SameTimer s t := by
  rw [fix_frame h]; exact ⟨rfl, rfl⟩

theorem SameTimer.trans {s t u : State} (h1 : SameTimer s t) (h2 : SameTimer t u) : SameTimer s u :=
  ⟨h2.1.trans h1.1, h2.2.trans h1.2⟩

/-- No command but INIT writes the counter or CYC_EN (R80, R92). -/
theorem exec_timer {i : Instr} {s t : State} (h : exec i s = .next t) (hi : i ≠ .init) : SameTimer s t := by
  cases i with
  | nop => rw [execNop_eq] at h; cases h; exact ⟨rfl, rfl⟩
  | init => exact absurd rfl hi
  | now => rcases execNow_cases h with ⟨-, rfl⟩ | ⟨-, rfl⟩ <;> exact ⟨rfl, rfl⟩
  | elapsed => rcases execElapsed_cases h with ⟨-, rfl⟩ | ⟨-, rfl⟩ <;> exact ⟨rfl, rfl⟩
  | wait =>
    rcases execWait_cases h with ⟨-, rfl⟩ | ⟨-, -, rfl⟩ | ⟨-, -, rfl⟩
    · exact waitCycle_timer s
    · exact SameTimer.trans ⟨rfl, rfl⟩ (waitCycle_timer _)
    · exact ⟨rfl, rfl⟩
  | setmode _ _ _ => rcases execSetmode_cases h with ⟨-, -, rfl⟩ | ⟨-, -, rfl⟩ | ⟨-, rfl⟩ <;> exact ⟨rfl, rfl⟩
  | setlvl _ _ _ => rcases execSetlvl_cases h with ⟨-, rfl⟩ | ⟨-, rfl⟩ <;> exact ⟨rfl, rfl⟩
  | getlvl _ _ => rcases execGetlvl_cases h with ⟨-, rfl⟩ | ⟨-, rfl⟩ <;> exact ⟨rfl, rfl⟩
  | sendb _ _ =>
    obtain ⟨-, -, e⟩ | ⟨-, -, e⟩ | h2 := execSendb_cases h
    · exact e ▸ ⟨by simp, by simp⟩
    · exact e ▸ ⟨by simp, by simp⟩
    · obtain ⟨-, -, e⟩ | ⟨-, -, e⟩ := h2 <;> exact e ▸ ⟨rfl, rfl⟩
  | recvb _ _ =>
    rcases execRecvb_cases h with ⟨-, rfl⟩ | ⟨-, rfl⟩ | ⟨-, -, -, rfl⟩ | ⟨-, -, -, rfl⟩
    · exact (recvPoll_timer _ _).trans (recvbDeliver_timer _)
    · exact (recvData_timer _ _).trans (recvbDeliver_timer _)
    · exact SameTimer.trans ⟨rfl, rfl⟩ ((recvPoll_timer (recvEnter s) _).trans (recvbDeliver_timer _))
    · exact ⟨rfl, rfl⟩
  | framew => obtain ⟨u, hu, rfl⟩ := execFramew_cases h; exact (fix_timer hu).trans ⟨rfl, rfl⟩
  | framer => obtain ⟨u, hu, rfl⟩ := execFramer_cases h; exact (fix_timer hu).trans ⟨rfl, rfl⟩
  | wrtxn axis =>
    rcases execWrtxn_cases h with ⟨-, rfl⟩ | ⟨r, -, hc⟩
    · exact ⟨rfl, rfl⟩
    cases hc with
    | sendStart => exact ⟨rfl, rfl⟩
    | sending => exact txnSend_timer _ _ _ _
    | guardStart => exact SameTimer.trans ⟨rfl, rfl⟩ (txnGuard_timer _ _)
    | guarding => exact txnGuard_timer _ _
    | setup _ _ hu => exact (fix_timer hu).trans ⟨rfl, rfl⟩
    | raised => exact ⟨rfl, rfl⟩
  | rdtxn axis =>
    rcases execRdtxn_cases h with ⟨-, rfl⟩ | ⟨r, -, hc⟩
    · exact ⟨rfl, rfl⟩
    cases hc with
    | sending => exact txnSend_timer _ _ _ _
    | poll => exact (recvPoll_timer _ _).trans (txnDeliver_timer _)
    | data => exact (recvData_timer _ _).trans (txnDeliver_timer _)
    | guardStart => exact SameTimer.trans ⟨rfl, rfl⟩ (txnGuard_timer _ _)
    | guarding => exact txnGuard_timer _ _
    | setup _ _ hu => exact SameTimer.trans (t := { s with tout := false }) ⟨rfl, rfl⟩ ((fix_timer hu).trans ⟨rfl, rfl⟩)
    | sendStart | turn | restore | raised => exact ⟨rfl, rfl⟩

/-! ## Where exec stops -/

theorem entering_stops {i : Instr} {s : State} {body : Host.Outcome State Fault Refusal} :
    (∀ r, entering i s body = .refused r → body = .refused r) ∧ (∀ f, entering i s body = .fault f → body = .fault f) := by
  unfold entering raise
  split <;> simp

/-- No command is refused, and a command faults over an unwritten TX byte alone: a framing command, the entry cycle of a
transaction, or the entry cycle of a transaction's SEND (R43, R126). -/
theorem exec_stops (i : Instr) (s : State) :
    (∀ r, exec i s ≠ .refused r)
      ∧ ∀ f, exec i s = .fault f → f = .unwrittenTx
        ∧ (i = .framew ∨ i = .framer
          ∨ ∃ axis, (i = .wrtxn axis ∨ i = .rdtxn axis)
            ∧ (s.sub ∉ subOps i ∨ (s.sub = .sendStart ∧ txByte s s.k = none))) := by
  have next : ∀ (i : Instr) (t : State), (∀ r, entering i s (.next t) ≠ .refused r) ∧ ∀ f, entering i s (.next t) ≠ .fault f :=
    fun i t => ⟨fun r h => (by cases entering_stops.1 r h), fun f h => (by cases entering_stops.2 f h)⟩
  have framing : ∀ (i : Instr) (len : Nat), (∀ r, entering i s (frame len s) ≠ .refused r)
      ∧ ∀ f, entering i s (frame len s) = .fault f → f = .unwrittenTx := by
    intro i len
    refine ⟨fun r h => ?_, fun f h => ?_⟩
    · have h := entering_stops.1 r h
      unfold frame at h; split at h <;> cases h
    · have h := entering_stops.2 f h
      unfold frame at h; split at h <;> cases h; rfl
  have setup : ∀ (i : Instr) (u : State) (len : Nat) (p : PinRef), (∀ r, entering i s (txnSetup u len p) ≠ .refused r)
      ∧ ∀ f, entering i s (txnSetup u len p) = .fault f → f = .unwrittenTx := by
    intro i u len p
    refine ⟨fun r h => ?_, fun f h => ?_⟩
    · have h := entering_stops.1 r h
      unfold txnSetup at h; split at h <;> cases h
    · have h := entering_stops.2 f h
      unfold txnSetup at h; split at h <;> cases h; rfl
  have start : ∀ p : PinRef, (∀ r, txnSendStart s p ≠ .refused r)
      ∧ ∀ f, txnSendStart s p = .fault f → f = .unwrittenTx ∧ txByte s s.k = none := by
    intro p
    unfold txnSendStart
    refine ⟨fun r h => ?_, fun f h => ?_⟩ <;> split at h <;> cases h
    exact ⟨rfl, ‹_›⟩
  cases i with
  | nop => rw [execNop_eq]; exact ⟨nofun, nofun⟩
  | init => rw [execInit_eq]; exact ⟨nofun, nofun⟩
  | now => exact ⟨(next .now _).1, fun f h => absurd h ((next .now _).2 f)⟩
  | elapsed => exact ⟨(next .elapsed _).1, fun f h => absurd h ((next .elapsed _).2 f)⟩
  | wait =>
    simp only [exec, execWait]
    split
    · exact ⟨nofun, nofun⟩
    · exact ⟨(next .wait _).1, fun f h => absurd h ((next .wait _).2 f)⟩
  | setmode port pin mode => exact ⟨(next (.setmode port pin mode) _).1, fun f h => absurd h ((next (.setmode port pin mode) _).2 f)⟩
  | setlvl port pin lvl => exact ⟨(next (.setlvl port pin lvl) _).1, fun f h => absurd h ((next (.setlvl port pin lvl) _).2 f)⟩
  | getlvl port pin => exact ⟨(next (.getlvl port pin) _).1, fun f h => absurd h ((next (.getlvl port pin) _).2 f)⟩
  | sendb port pin =>
    simp only [exec, execSendb]
    split
    · exact ⟨nofun, nofun⟩
    · exact ⟨(next (.sendb port pin) _).1, fun f h => absurd h ((next (.sendb port pin) _).2 f)⟩
  | recvb port pin =>
    simp only [exec, execRecvb]
    split
    · exact ⟨nofun, nofun⟩
    · exact ⟨nofun, nofun⟩
    · exact ⟨(next (.recvb port pin) _).1, fun f h => absurd h ((next (.recvb port pin) _).2 f)⟩
  | framew => exact ⟨(framing .framew _).1, fun f h => ⟨(framing .framew _).2 f h, .inl rfl⟩⟩
  | framer => exact ⟨(framing .framer _).1, fun f h => ⟨(framing .framer _).2 f h, .inr (.inl rfl)⟩⟩
  | wrtxn axis =>
    simp only [exec, execWrtxn]
    split
    · exact ⟨nofun, nofun⟩
    · rename_i p _
      simp only [wrtxnCycle]
      split
      · refine ⟨(start p).1, fun f h => ⟨((start p).2 f h).1, .inr (.inr ⟨axis, .inl rfl, .inr ⟨‹_›, ((start p).2 f h).2⟩⟩)⟩⟩
      on_goal 4 =>
        refine ⟨(setup (.wrtxn axis) _ _ _).1, fun f h => ⟨(setup (.wrtxn axis) _ _ _).2 f h, .inr (.inr ⟨axis, .inl rfl, .inl ?_⟩)⟩⟩
        simp [subOps]
        and_intros <;> assumption
      all_goals exact ⟨nofun, nofun⟩
  | rdtxn axis =>
    simp only [exec, execRdtxn]
    split
    · exact ⟨nofun, nofun⟩
    · rename_i p _
      simp only [rdtxnCycle]
      split
      · refine ⟨(start p).1, fun f h => ⟨((start p).2 f h).1, .inr (.inr ⟨axis, .inr rfl, .inr ⟨‹_›, ((start p).2 f h).2⟩⟩)⟩⟩
      on_goal 8 =>
        refine ⟨(setup (.rdtxn axis) _ _ _).1, fun f h => ⟨(setup (.rdtxn axis) _ _ _).2 f h, .inr (.inr ⟨axis, .inr rfl, .inl ?_⟩)⟩⟩
        simp [subOps]
        and_intros <;> assumption
      all_goals exact ⟨nofun, nofun⟩

end Sys2Proof.Machine
end

