-- ==== Sys2Proof/Laws/Decode.lean ====
section
/-! SUPPORT. The two ways a word can decode, case by case (R73, R74). -/

namespace Sys2Proof

/-- A word that decodes matches a row of R73, and decodes to that row's command with its fields. -/
theorem decode_cases {w : Word} {i : Instr} (h : decode w = .ok i) :
    (w &&& maskN = 0x00000000 ∧ i = .nop) ∨ (w &&& maskN = 0x00000001 ∧ i = .init)
      ∨ (w &&& maskN = 0x00000002 ∧ i = .now) ∨ (w &&& maskN = 0x00000003 ∧ i = .elapsed)
      ∨ (w &&& maskN = 0x00000004 ∧ i = .wait)
      ∨ (w &&& maskSetmode = 0x00000010 ∧ i = .setmode (portField w) (pinField w) (modeField w))
      ∨ (w &&& maskSetlvl = 0x00000011 ∧ i = .setlvl (portField w) (pinField w) (lvlField w))
      ∨ (w &&& maskP = 0x00000012 ∧ i = .getlvl (portField w) (pinField w))
      ∨ (w &&& maskP = 0x00000020 ∧ i = .sendb (portField w) (pinField w))
      ∨ (w &&& maskP = 0x00000021 ∧ i = .recvb (portField w) (pinField w))
      ∨ (w &&& maskN = 0x00000030 ∧ i = .framew) ∨ (w &&& maskN = 0x00000031 ∧ i = .framer)
      ∨ (w &&& maskA = 0x00000040 ∧ i = .wrtxn (axisField w))
      ∨ (w &&& maskA = 0x00000041 ∧ i = .rdtxn (axisField w)) := by
  have row : ∀ {p : Prop} {d : Decidable p} {j : Instr} {rest : Except IllegalWord Instr},
      (if p then .ok j else rest) = .ok i → (p ∧ i = j) ∨ rest = .ok i := by
    intro p d j rest h
    by_cases hp : p
    · rw [if_pos hp] at h; cases h; exact .inl ⟨hp, rfl⟩
    · rw [if_neg hp] at h; exact .inr h
  iterate 13
    refine (row h).imp_right ?_
    clear h
    intro h
  refine (row h).elim id fun h => ?_
  by_cases hk : knownOpcode (opcField w) = true
  · rw [if_pos hk] at h; cases h
  · rw [if_neg hk] at h; cases h

/-- A word that matches no row is a reserved encoding, by the kind of its fault (R74). -/
theorem decode_error {w : Word} {e : IllegalWord} (h : decode w = .error e) :
    e = if knownOpcode (opcField w) then .reservedBits else .reservedOpcode := by
  have row : ∀ {p : Prop} {d : Decidable p} {j : Instr} {rest : Except IllegalWord Instr},
      (if p then .ok j else rest) = .error e → rest = .error e := by
    intro p d j rest h
    by_cases hp : p
    · rw [if_pos hp] at h; cases h
    · rwa [if_neg hp] at h
  iterate 14 replace h := row h
  by_cases hk : knownOpcode (opcField w) = true
  · rw [if_pos hk] at h ⊢; cases h; rfl
  · rw [if_neg hk] at h ⊢; cases h; rfl

end Sys2Proof
end

