-- ==== Sys2Proof/Laws/HostSide.lean ====
section
/-! SUPPORT. A command's cycle does not look at OVR, at the read data or at the host access of its cycle: it runs alike
whatever they are (R21, R50, R52). -/

namespace Sys2Proof.Machine

/-- The state with another OVR, other read data and other inputs. -/
def State.withHost (s : State) (o : Bool) (d : Option Word) (ins : List CycleInput) : State :=
  { s with ovr := o, rdata := d, inputs := ins }

variable {s : State} {o : Bool} {d : Option Word} {ins : List CycleInput}

/-- ENV is the same under both input lists. -/
def SameEnv (s : State) (ins : List CycleInput) : Prop :=
  (currentInput { s with inputs := ins }).env = (currentInput s).env

theorem line_withHost (he : SameEnv s ins) (r : PinRef) : line (s.withHost o d ins) r = line s r := by
  have : envPort (s.withHost o d ins) r.port = envPort s r.port := by
    unfold envPort
    have h : (currentInput (s.withHost o d ins)).env = (currentInput s).env := he
    rw [h]
  unfold line
  rw [this]
  rfl

theorem sendEdge_withHost (r : PinRef) : sendEdge (s.withHost o d ins) r = (sendEdge s r).withHost o d ins := by
  unfold sendEdge
  have h1 : sinceT0 (s.withHost o d ins) = sinceT0 s := rfl
  have h2 : bp (s.withHost o d ins) = bp s := rfl
  rw [h1, h2]
  split <;> rfl

theorem fix_withHost (len : Nat) :
    fix (s.withHost o d ins) len = (fix s len).map (fun t => t.withHost o d ins) := by
  have h : fixedBytes (s.withHost o d ins) (len - 1) = fixedBytes s (len - 1) := rfl
  unfold fix
  rw [h]
  cases fixedBytes s (len - 1) <;> rfl

theorem recvSample_withHost (he : SameEnv s ins) (r : PinRef) :
    recvSample (s.withHost o d ins) r = (recvSample s r).withHost o d ins := by
  unfold recvSample
  rw [line_withHost he]
  have h1 : sinceT0 (s.withHost o d ins) = sinceT0 s := rfl
  have h2 : bp (s.withHost o d ins) = bp s := rfl
  have h3 : half (s.withHost o d ins) = half s := rfl
  rw [h1, h2, h3]
  split <;> rfl

theorem recvPoll_withHost (he : SameEnv s ins) (r : PinRef) :
    recvPoll (s.withHost o d ins) r = ((recvPoll s r).1.withHost o d ins, (recvPoll s r).2) := by
  unfold recvPoll
  rw [line_withHost he]
  have h1 : (s.withHost o d ins).j = s.j := rfl
  have h2 : (s.withHost o d ins).cfg = s.cfg := rfl
  rw [h1, h2]
  split
  · rfl
  · split <;> rfl

theorem recvData_withHost (he : SameEnv s ins) (r : PinRef) :
    recvData (s.withHost o d ins) r = ((recvData s r).1.withHost o d ins, (recvData s r).2) := by
  unfold recvData
  rw [recvSample_withHost he]
  have h1 : recvEnds (s.withHost o d ins) = recvEnds s := rfl
  rw [h1]
  split <;> rfl

theorem recvCycle_withHost (he : SameEnv s ins) (r : PinRef) :
    recvCycle (s.withHost o d ins) r = ((recvCycle s r).1.withHost o d ins, (recvCycle s r).2) := by
  unfold recvCycle
  have h1 : (s.withHost o d ins).sub = s.sub := rfl
  rw [h1]
  split
  · exact recvData_withHost he r
  · exact recvPoll_withHost he r

theorem recvbDeliver_withHost (t : State) (x : RecvOutcome) :
    recvbDeliver (t.withHost o d ins, x) = (recvbDeliver (t, x)).withHost o d ins := by
  cases x <;> rfl

theorem failField_withHost : failField (s.withHost o d ins) = (failField s).withHost o d ins := by
  rw [failField_eq, failField_eq]
  rfl

theorem txnDeliver_withHost (t : State) (x : RecvOutcome) :
    txnDeliver (t.withHost o d ins, x) = (txnDeliver (t, x)).withHost o d ins := by
  cases x with
  | running => rfl
  | byte b =>
    simp only [txnDeliver]
    have h1 : (t.withHost o d ins).k = t.k := rfl
    have h2 : (t.withHost o d ins).cfg = t.cfg := rfl
    rw [h1, h2]
    split <;> rfl
  | timeout => simp only [txnDeliver, failField_withHost]; rfl

theorem waitCycle_withHost : waitCycle (s.withHost o d ins) = (waitCycle s).withHost o d ins := by
  unfold waitCycle
  have h1 : endsAt (s.withHost o d ins) (argCycles (s.withHost o d ins)) = endsAt s (argCycles s) := rfl
  rw [h1]
  split <;> rfl

theorem txnSend_withHost (r : PinRef) (len : Nat) (a : SubOp) :
    txnSend (s.withHost o d ins) r len a = (txnSend s r len a).withHost o d ins := by
  unfold txnSend
  have h1 : sendEnds (s.withHost o d ins) = sendEnds s := rfl
  rw [h1, sendEdge_withHost]
  split <;> rfl

theorem txnGuard_withHost (e : ErrCode) : txnGuard (s.withHost o d ins) e = (txnGuard s e).withHost o d ins := by
  unfold txnGuard
  have h1 : guardEnds (s.withHost o d ins) = guardEnds s := rfl
  rw [h1]
  split <;> rfl

/-- What an outcome becomes under another host side. -/
def mapHost (o : Bool) (d : Option Word) (ins : List CycleInput) :
    Host.Outcome State Fault Refusal → Host.Outcome State Fault Refusal
  | .next t => .next (t.withHost o d ins)
  | .fault f => .fault f
  | .refused r => .refused r

theorem entering_withHost (i : Instr) {b b' : Host.Outcome State Fault Refusal} (h : b' = mapHost o d ins b) :
    entering i (s.withHost o d ins) b' = mapHost o d ins (entering i s b) := by
  have he : entryError i (s.withHost o d ins) = entryError i s := entryError_congr rfl rfl rfl
  unfold entering
  rw [he, h]
  split <;> rfl

theorem frame_withHost (len : Nat) : frame len (s.withHost o d ins) = mapHost o d ins (frame len s) := by
  unfold frame
  rw [fix_withHost]
  cases fix s len <;> rfl

theorem txnSetup_withHost (len : Nat) (r : PinRef) :
    txnSetup (s.withHost o d ins) len r = mapHost o d ins (txnSetup s len r) := by
  unfold txnSetup
  rw [fix_withHost]
  cases fix s len <;> rfl

theorem txnSendStart_withHost (r : PinRef) :
    txnSendStart (s.withHost o d ins) r = mapHost o d ins (txnSendStart s r) := by
  unfold txnSendStart
  have h : txByte (s.withHost o d ins) (s.withHost o d ins).k = txByte s s.k := rfl
  rw [h]
  cases txByte s s.k <;> rfl

/-- A command's cycle under another OVR, other read data and another input list with the same ENV ends in the same way,
and leaves those three as they are. -/
theorem exec_withHost (i : Instr) (he : SameEnv s ins) :
    exec i (s.withHost o d ins) = mapHost o d ins (exec i s) := by
  have hsub : (s.withHost o d ins).sub = s.sub := rfl
  have hcfg : (s.withHost o d ins).cfg = s.cfg := rfl
  cases i with
  | nop => rw [execNop_eq, execNop_eq]; rfl
  | init => rw [execInit_eq, execInit_eq]; rfl
  | now => exact entering_withHost _ rfl
  | elapsed => exact entering_withHost _ rfl
  | wait =>
    simp only [exec, execWait, hsub]
    split
    · rw [waitCycle_withHost]; rfl
    · refine entering_withHost _ ?_
      have h := @waitCycle_withHost { s with t0 := s.cyccnt, sub := .waiting } o d ins
      exact congrArg Host.Outcome.next h
  | setmode port pin mode =>
    simp only [exec, execSetmode]
    refine entering_withHost _ ?_
    split <;> rfl
  | setlvl port pin lvl => exact entering_withHost _ rfl
  | getlvl port pin =>
    simp only [exec, execGetlvl]
    refine entering_withHost _ ?_
    rw [line_withHost he]; rfl
  | sendb port pin =>
    simp only [exec, execSendb, hsub]
    split
    · rw [sendEdge_withHost]
      have h : sendEnds (s.withHost o d ins) = sendEnds s := rfl
      rw [h]
      split <;> rfl
    · exact entering_withHost _ rfl
  | recvb port pin =>
    simp only [exec, execRecvb, hsub]
    split
    · rw [recvCycle_withHost he, recvbDeliver_withHost]; rfl
    · rw [recvCycle_withHost he, recvbDeliver_withHost]; rfl
    · refine entering_withHost _ ?_
      have h0 : recvEnter (s.withHost o d ins) = (recvEnter s).withHost o d ins := rfl
      rw [h0, recvCycle_withHost (s := recvEnter s) he, recvbDeliver_withHost]; rfl
  | framew =>
    simp only [exec, execFramew, hcfg]
    exact entering_withHost _ (frame_withHost _)
  | framer =>
    simp only [exec, execFramer, hcfg]
    exact entering_withHost _ (frame_withHost _)
  | wrtxn axis =>
    have ha : axisPin (s.withHost o d ins) axis = axisPin s axis := rfl
    simp only [exec, execWrtxn, ha]
    split
    · rfl
    · simp only [wrtxnCycle, hsub, hcfg]
      split
      · exact txnSendStart_withHost _
      · rw [txnSend_withHost]; rfl
      · have h := @txnGuard_withHost { s with t0 := s.cyccnt, sub := .guarding } o d ins .ok
        exact congrArg Host.Outcome.next h
      · rw [txnGuard_withHost]; rfl
      · exact entering_withHost _ (txnSetup_withHost _ _)
  | rdtxn axis =>
    have ha : axisPin (s.withHost o d ins) axis = axisPin s axis := rfl
    have hc : readCode (s.withHost o d ins) = readCode s := rfl
    simp only [exec, execRdtxn, ha]
    split
    · rfl
    · simp only [rdtxnCycle, hsub, hcfg, hc]
      split
      · exact txnSendStart_withHost _
      · rw [txnSend_withHost]; rfl
      · rfl
      · rw [recvCycle_withHost he, txnDeliver_withHost]; rfl
      · rw [recvCycle_withHost he, txnDeliver_withHost]; rfl
      · rfl
      · have h := @txnGuard_withHost { s with t0 := s.cyccnt, sub := .guarding } o d ins (readCode s)
        exact congrArg Host.Outcome.next h
      · rw [txnGuard_withHost]; rfl
      · refine entering_withHost _ ?_
        have h := @txnSetup_withHost { s with tout := false } o d ins s.cfg.params.reqLen ‹_›
        exact h

end Sys2Proof.Machine
end

