-- ==== Sys2Proof/Laws/HostPort.lean ====
section
/-! SUPPORT. The host's side of a cycle: the buffers' words and bytes, IDR bit by bit, CFG field by field, and what an
access does to the cycle it falls in. -/

namespace Sys2Proof.Machine

/-- A buffer register has word number 0 or 1 (R46). -/
theorem target_txbuf {c : Config} {addr width : Nat} {r : Reg} (h : target c addr width = .reg r) :
    (∀ w, r = .txbuf w → w < 2) ∧ (∀ w, r = .rxbuf w → w < 2) := by
  unfold target at h
  split at h
  · cases h
  split at h
  · cases h
  split at h
  · cases h
  split at h
  · cases h
  · rename_i r' hr
    cases h
    unfold regAt at hr
    repeat' split at hr
    all_goals first | (cases hr; constructor <;> intro w hw <;> cases hw <;> omega) | skip
    unfold portReg at hr
    repeat' split at hr
    all_goals (cases hr; try (constructor <;> intro w hw <;> cases hw))

/-- A register is reached by a 4-byte access alone (R47). -/
theorem target_width {c a w r} (h : target c a w = .reg r) : w = 4 := by
  unfold target at h
  split at h
  · cases h
  · split at h
    · cases h
    · omega

/-- An access faults by a bus error response alone (R47, R48). -/
theorem serve_fault {s : State} {f : Fault} (h : serve s = .fault f)
    : (f = .busWidth ∨ f = .busUnaligned ∨ f = .busUnmapped) ∧ (currentInput s).access ≠ none := by
  have tgt : ∀ c a w f, target c a w = .error f → f = .busWidth ∨ f = .busUnaligned ∨ f = .busUnmapped := by
    intro c a w f h
    unfold target at h
    repeat' split at h
    all_goals cases h <;> simp
  unfold serve at h
  split at h
  · cases h
  · rename_i ha; split at h <;> cases h
    rename_i ht; exact ⟨tgt _ _ _ _ ht, by rw [ha]; simp⟩
  · rename_i ha; split at h <;> cases h
    rename_i ht; exact ⟨tgt _ _ _ _ ht, by rw [ha]; simp⟩

/-- A write to a register of the window. -/
theorem serve_write {s : State} {r v addr} (ha : (currentInput s).access = some (.write addr 4 v))
    (ht : target s.cfg addr 4 = .reg r) :
    serve s = .next { hostWrite s v r with rdata := none } := by
  unfold serve; rw [ha]; simp [ht]

/-- A write to a register other than STATUS leaves OVR (R28). -/
theorem writeReg_ovr (s : State) (v : Word) (r : Reg) (h : r ≠ .status) : (writeReg s v r).ovr = s.ovr := by
  cases r <;> first | rfl | exact absurd rfl h

/-- A buffer word keeps the canonical form. -/
theorem setBufWord_wf {s : State} {a : Nat} {v : Word} (h : Memory.wf s.mem = true) (h1 : txBase ≤ a)
    (h2 : a + 3 < rxBase + 8) :
    Memory.wf (setBufWord s a v).mem = true := by
  simp only [setBufWord, State.setMem_mem]
  iterate 4 refine Memory.wf_write _ _ (by omega) (by omega) ?_
  exact h

/-- A stored word, byte by byte (R53). -/
theorem buf_bytes {s : State} {a : Nat} {v : Word} (i : Nat) (hi : i < 4)
    : Memory.read (setBufWord s a v).mem (a + i) = some (v.extractLsb' (8 * i) 8) := by
  simp only [setBufWord, State.setMem_mem, Memory.read_write]
  interval_cases i
  · simp
  · rw [if_neg (by omega), if_neg (by omega), if_pos rfl]
  · rw [if_neg (by omega), if_pos rfl]
  · rw [if_pos rfl]

/-- A stored word touches its four bytes alone. -/
theorem buf_other {s : State} {a c : Nat} {v : Word} (h : c ∉ [a, a+1, a+2, a+3])
    : Memory.read (setBufWord s a v).mem c = Memory.read s.mem c := by
  simp only [List.mem_cons, List.not_mem_nil, or_false, not_or] at h
  simp only [setBufWord, State.setMem_mem, Memory.read_write]
  rw [if_neg h.2.2.2, if_neg h.2.2.1, if_neg h.2.1, if_neg h.1]

/-- A buffer word, bit by bit (R53). -/
theorem bufWord_bit (s : State) (a i n : Nat) (hi : i < 4) (hn : n < 8) : (bufWord s a).getLsbD (8 * i + n)
    = (hostByte s (a + i)).getLsbD n := by
  have e4 : ∀ (c : Byte) n, (c.setWidth 32 : Word).getLsbD n = c.getLsbD n := by
    intro c n; rw [BitVec.getLsbD_setWidth]; by_cases h : n < 32
    · simp [h]
    · simp [h, BitVec.getLsbD_of_ge c n (by omega)]
  have hz : ∀ (c : Byte) n, 8 ≤ n → c.getLsbD n = false := fun c n h => BitVec.getLsbD_of_ge c n h
  simp only [bufWord, BitVec.getLsbD_or, BitVec.getLsbD_shiftLeft, e4]
  interval_cases i
  · simp [show n < 16 by omega, show n < 24 by omega, hn]
  · have : n < 16 := by omega
    rw [hz _ (8 * 1 + n) (by omega)]
    simp [show 8 + n < 32 by omega, show 8 + n < 16 by omega, show 8 + n < 24 by omega]
  · rw [hz _ (8 * 2 + n) (by omega), hz _ (8 * 2 + n - 8) (by omega)]
    simp [show 16 + n < 32 by omega, show 16 + n < 24 by omega]
  · rw [hz _ (8 * 3 + n) (by omega), hz _ (8 * 3 + n - 8) (by omega), hz _ (8 * 3 + n - 16) (by omega)]
    simp [show 24 + n < 32 by omega]

/-- A buffer word, byte by byte (R53). -/
theorem bufWord_byte (s : State) (a i : Nat) (hi : i < 4) : (bufWord s a).extractLsb' (8 * i) 8 = hostByte s (a + i)
    := by
  apply BitVec.eq_of_getLsbD_eq
  intro n hn
  rw [BitVec.getLsbD_extractLsb', bufWord_bit _ _ _ _ hi hn]; simp [hn]

/-- A word whose four bytes are written reads back. -/
theorem bufWord_eq (s : State) (a : Nat) (v : Word) (h : ∀ i, i < 4 → Memory.read s.mem (a + i)
    = some (v.extractLsb' (8 * i) 8)) : bufWord s a = v := by
  apply BitVec.eq_of_getLsbD_eq
  intro n hn
  have hb := bufWord_bit s a (n / 8) (n % 8) (by omega) (by omega)
  rw [show 8 * (n / 8) + n % 8 = n by omega] at hb
  rw [hb, hostByte, h _ (by omega)]
  simp [show n % 8 < 8 by omega, show 8 * (n / 8) + n % 8 = n by omega]

/-- IDR, bit by bit (R38). -/
theorem idr_bit (s : State) (p : BitVec 3) (n : Nat) (hn : n < 32) :
    (idrValue s p).getLsbD n = if n < 16 then (s.port p).level (envPort s p) n else false := by
  have : ∀ m, m ≤ 16 → ((List.range m).foldl (fun acc i => putBit acc i ((s.port p).level (envPort s p) i))
      (0 : Word)).getLsbD n = if n < m then (s.port p).level (envPort s p) n else false := by
    intro m
    induction m with
    | zero => simp
    | succ m ih =>
      intro hm
      rw [List.range_succ, List.foldl_append]
      simp only [List.foldl_cons, List.foldl_nil]
      rw [getLsbD_putBit _ _ _ _ hn, ih (by omega)]
      by_cases h : n = m
      · subst h; simp
      · simp only [h, if_false]; exact if_congr (by omega) rfl rfl
  exact this 16 (by omega)

/-- Every port at reset (R42). -/
theorem reset_port (p : BitVec 3) : State.reset.port p = Port.reset := by
  simp [State.port, State.reset]

/-- A CFGL write, pin by pin (R95). -/
theorem Port.mode_cfgl (x : Port) (v : Word) (i : Nat) : ({ x with cfgl := warl x.cfgl v }
    : Port).mode i = if i < 8 then (if legalMode (getField v i) then getField v i else x.mode i) else x.mode i := by
  unfold Port.mode
  by_cases h : i < 8
  · simp [h, getField_warl _ _ _ h]
  · simp [h]

/-- A CFGH write, pin by pin (R95). -/
theorem Port.mode_cfgh (x : Port) (v : Word) (i : Nat) (hi : i < 16) : ({ x with cfgh := warl x.cfgh v }
    : Port).mode i = if i < 8 then x.mode i else (if legalMode (getField v (i-8)) then getField v (i-8)
    else x.mode i) := by
  unfold Port.mode
  by_cases h : i < 8
  · simp [h]
  · simp [h, getField_warl _ _ (i - 8) (by omega)]

/-- Only INIT writes CYCCNT itself (R80). -/
theorem performsInit_eq {i : Instr} (h : i ≠ .init) : performsInit i = false := by
  cases i <;> first | rfl | exact absurd rfl h

/-- CYCCNT after a cycle that does not perform INIT (R80). -/
theorem endFalse_cyc (u : State) : (endCycle false u).cyccnt = if u.cycEn then u.cyccnt + 1 else u.cyccnt := by
  cases hc : u.cycEn <;> simp [endCycle, countCycle, hc]

/-- While a command runs no access changes CMD (R52). -/
theorem busy_cmd {s h : State} (hb : s.busy = true) (hs : serve s = .next h) : h.cmd = s.cmd := by
  obtain ⟨o, d, rfl⟩ := serve_busy hb hs; rfl

/-- The input of a cycle without its access. -/
theorem cur_without (s : State) : currentInput (withoutAccess s) = { currentInput s with access := none } := rfl

/-- Leaving the access out leaves ENV. -/
theorem sameEnv_without (s : State) : SameEnv s (withoutAccess s).inputs := rfl

/-- A cycle with an access is a listed one. -/
theorem inputs_ne {s : State} {a : HostAccess} (h : (currentInput s).access = some a) : s.inputs ≠ [] := by
  intro hn; simp [currentInput, hn] at h

/-- A cycle without its access, as one term. -/
theorem step_without {s : State} (hr : (currentInput s).reset = false) :
    step (withoutAccess s) = if s.busy then engineCycle (s.withHost s.ovr none (withoutAccess s).inputs)
        else .next (endCycle false (s.withHost s.ovr none (withoutAccess s).inputs)) := by
  have h1 : serve (withoutAccess s) = .next (s.withHost s.ovr none (withoutAccess s).inputs) := serve_none rfl
  have h2 : (currentInput (withoutAccess s)).reset = false := hr
  unfold step
  rw [h1, h2]
  rfl

/-- OVR and the read data as a host side. -/
theorem withHost_self (s : State) (o d) : { s with ovr := o, rdata := d } = s.withHost o d s.inputs := rfl

/-- The engine's cycle under two host sides. -/
theorem engine_two {s : State} {o1 o2 : Bool} {d1 d2} {i2 : List CycleInput} (he : SameEnv s i2)
    (ht : i2.tail = s.inputs.tail) {t : State}
    (h : engineCycle (s.withHost o2 d2 i2) = .next t) :
    engineCycle (s.withHost o1 d1 s.inputs) = .next { t with ovr := o1, rdata := d1 } ∧ t.ovr = o2 := by
  unfold engineCycle at h ⊢
  have hc : ∀ o d i, (s.withHost o d i).cmd = s.cmd := fun _ _ _ => rfl
  rw [hc] at h ⊢
  cases hd : decode s.cmd with
  | error e =>
    rw [hd] at h
    simp only [Host.Outcome.next.injEq] at h ⊢
    subst h
    unfold endCycle countCycle retire
    cases hc : s.cycEn <;> simp [State.withHost, hc, ht]
  | ok i =>
    rw [hd] at h
    simp only at h ⊢
    rw [exec_withHost i he] at h
    rw [exec_withHost i rfl]
    cases hx : exec i s with
    | fault f => rw [hx] at h; cases h
    | refused f => rw [hx] at h; cases h
    | next v =>
      rw [hx] at h
      simp only [mapHost, Host.Outcome.next.injEq] at h ⊢
      subst h
      unfold endCycle countCycle
      cases performsInit i <;> cases hc : v.cycEn <;> simp [State.withHost, hc, ht]

/-- A cycle whose access changes OVR and the read data alone, from the cycle without the access. -/
theorem step_served {s : State} (hr : (currentInput s).reset = false) {o d}
    (hs : serve s = .next (s.withHost o d s.inputs)) {t : State}
    (h : step (withoutAccess s) = .next t) : step s = .next { t with ovr := if s.busy then o else o, rdata := d } ∧
        t.ovr = s.ovr := by
  rw [step_without hr] at h
  have h2 : step s = if s.busy then engineCycle (s.withHost o d s.inputs)
      else .next (endCycle false (s.withHost o d s.inputs)) := by
    unfold step; rw [hr, hs]; rfl
  rw [h2]
  cases hb : s.busy
  · simp only [hb, if_false, Bool.false_eq_true, Host.Outcome.next.injEq] at h ⊢
    subst h
    unfold endCycle countCycle
    cases hc : s.cycEn <;> simp [State.withHost, hc, withoutAccess]
  · simp only [hb, if_true] at h ⊢
    exact engine_two (sameEnv_without s) rfl h

/-- Without an access nothing is read. -/
theorem rdata_without {s t : State} (hr : (currentInput s).reset = false) (h : step (withoutAccess s) = .next t)
    : t.rdata = none := by
  have h1 : serve (withoutAccess s) = .next { withoutAccess s with rdata := none } := serve_none rfl
  rcases step_cases h with ⟨hr', -⟩ | ⟨-, u, hu, h3⟩
  · rw [cur_without] at hr'; simp [hr] at hr'
  · rw [h1] at hu; cases hu
    rcases h3 with ⟨hb, rfl⟩ | ⟨hb, ⟨e, he⟩, rfl⟩ | ⟨hb, i, v, hd, hv, rfl⟩
    · simp
    · simp
    · have := exec_hostSide hv
      simp [this.2.2.2.2.1]

/-- OVR after a cycle is OVR after its access. -/
theorem ovr_step {s t : State} (hr : (currentInput s).reset = false) (h : step s = .next t) : ∃ u,
    serve s = .next u ∧ t.ovr = u.ovr := by
  rcases step_cases h with ⟨hr', -⟩ | ⟨-, u, hu, h3⟩
  · rw [hr] at hr'; cases hr'
  refine ⟨u, hu, ?_⟩
  rcases h3 with ⟨hb, rfl⟩ | ⟨hb, ⟨e, he⟩, rfl⟩ | ⟨hb, i, v, hd, hv, rfl⟩
  · simp
  · simp
  · simp [(exec_hostSide hv).2.2.2.1]

/-- An idle cycle whose access writes buffer bytes, ports or the read data alone leaves the other registers (R51). -/
theorem SameRegisters.idle {s u : State} (h : u = { s with mem := u.mem, ports := u.ports, rdata := u.rdata }) :
    SameRegisters s (endCycle false u) := by
  have hc := endFalse_cyc u
  rw [h] at hc ⊢
  simpa [SameRegisters, SameOutputs, State.busy] using hc

/-- An idle cycle is its access and the counter. -/
theorem idle_step {s u : State} (hr : (currentInput s).reset = false) (hb : s.busy = false) (hs : serve s = .next u)
    : step s = .next (endCycle false u) := by
  unfold step; rw [hr, hs]; simp [hb]

end Sys2Proof.Machine
end

