-- ==== Sys2Proof/Laws/Timer.lean ====
section
/-! SUPPORT. The deadline test as plain arithmetic (R81, R84). -/

namespace Sys2Proof.Machine

/-- The unsigned form of the deadline test (R81). -/
theorem reached_iff (now t : Word) : reached now t = true ↔ (now - t).toNat < 2 ^ 31 := by
  have h := (now - t).isLt
  rw [reached, decide_eq_true_eq, BitVec.toInt_eq_toNat_cond]
  split <;> omega

/-- With `x` cycles gone since T0, `sinceT0` is `x`. -/
theorem sinceT0_of_eq {s : State} {x : Nat} (h : s.cyccnt = s.t0 + BitVec.ofNat 32 x) (hx : x < 2 ^ 32) :
    sinceT0 s = x := by
  rw [sinceT0, elapsed, h]
  simp
  omega

/-- With `x` cycles gone since T0, a sub-operation of `d` cycles is in its last one exactly when `d ≤ x + 1`
(R84). -/
theorem endsAt_of_eq {s : State} {x d : Nat} (h : s.cyccnt = s.t0 + BitVec.ofNat 32 x) (hx : x + 1 < 2 ^ 31)
    (hd : d < 2 ^ 31) : endsAt s (BitVec.ofNat 32 d) = true ↔ d ≤ x + 1 := by
  rw [endsAt, reached_iff, h]
  have e : s.t0 + BitVec.ofNat 32 x + 1 - (s.t0 + BitVec.ofNat 32 d)
      = BitVec.ofNat 32 (x + 1) - BitVec.ofNat 32 d := by
    rw [BitVec.ofNat_add]
    generalize BitVec.ofNat 32 x = a
    generalize BitVec.ofNat 32 d = c
    generalize s.t0 = t
    have : BitVec.ofNat 32 1 = 1 := rfl
    rw [this]
    bv_omega
  rw [e, BitVec.toNat_sub, BitVec.toNat_ofNat, BitVec.toNat_ofNat, Nat.mod_eq_of_lt (by omega : x + 1 < 2 ^ 32),
    Nat.mod_eq_of_lt (by omega : d < 2 ^ 32)]
  omega

/-- The counter's next value keeps count of the cycles since T0. -/
theorem count_succ {c t : Word} {x : Nat} (h : c = t + BitVec.ofNat 32 x) : c + 1 = t + BitVec.ofNat 32 (x + 1) := by
  rw [h, BitVec.ofNat_add]
  have : BitVec.ofNat 32 1 = 1 := rfl
  rw [this]
  bv_omega

end Sys2Proof.Machine
end

