-- ==== Sys2Proof/Laws/Serial.lean ====
section
/-! SUPPORT. The serial engine: the cycles since T0, the ends of the timed sub-operations, what a bit edge and a sample write, and
what framing does to its bytes. -/

namespace Sys2Proof.Machine

/-- T0 captured in this cycle: no cycle has gone. -/
theorem since_zero {v : State} (h : v.t0 = v.cyccnt) : sinceT0 v = 0 := by simp [sinceT0, elapsed, h]

/-- The cycles since T0 depend on CYCCNT and T0 alone. -/
theorem since_congr {a b : State} (h1 : a.cyccnt = b.cyccnt) (h2 : a.t0 = b.t0)
    : sinceT0 a = sinceT0 b := by simp [sinceT0, elapsed, h1, h2]

/-- A cycle later, one cycle more since T0. -/
theorem since_end {v : State} (hc : v.cycEn = true) (h : sinceT0 v + 1 < 2 ^ 32) : sinceT0 (endCycle false v)
    = sinceT0 v + 1 := by
  unfold sinceT0 elapsed at *
  simp only [endCycle_cyccnt, endCycle_t0, hc, countCycle, if_true, if_false, Bool.false_eq_true]
  generalize v.cyccnt = c at *; generalize v.t0 = t at *
  bv_omega

/-- A sub-operation of `d` cycles is in its last one exactly when `d ≤ sinceT0 + 1` (R84). -/
theorem endsAt_since {s : State} {d : Nat} (hx : sinceT0 s + 1 < 2 ^ 31) (hd : d < 2 ^ 31)
    : endsAt s (BitVec.ofNat 32 d) = true ↔ d ≤ sinceT0 s + 1 := by
  refine endsAt_of_eq (x := sinceT0 s) ?_ hx hd
  unfold sinceT0 elapsed
  rw [BitVec.ofNat_toNat, BitVec.setWidth_eq]
  generalize s.cyccnt = a; generalize s.t0 = b
  bv_omega

/-- WAIT's end (R90). -/
theorem wait_ends {u : State} (ha : u.arg.toNat < 2 ^ 31) (hx : sinceT0 u + 1 < 2 ^ 31) : endsAt u (argCycles u)
    = true ↔ u.arg.toNat ≤ sinceT0 u + 1 := by
  have := endsAt_since (s := u) (d := u.arg.toNat) hx ha
  rwa [show BitVec.ofNat 32 u.arg.toNat = argCycles u by simp [argCycles]] at this

/-- SEND's end (R106). -/
theorem send_ends {s : State} (hx : sinceT0 s < 10 * bp s) : sendEnds s = true ↔ 10 * bp s ≤ sinceT0 s + 1 := by
  have hbl : 10 * bp s < 2 ^ 31 := s.cfg.bp_lt
  exact endsAt_since (by omega) hbl

/-- RECV's end after detection (R115). -/
theorem recv_ends {s : State} (hx : sinceT0 s + 1 < 2 ^ 31) : recvEnds s = true ↔
    9 * bp s + 2 * half s ≤ sinceT0 s + 1 := by
  have hbl : 10 * bp s < 2 ^ 31 := s.cfg.bp_lt
  have h2 : 2 * half s ≤ bp s := s.cfg.two_half_le
  exact endsAt_since hx (by omega)

/-- RECV's end, from the clockwork's bound. -/
theorem recvEnds_iff {h : State} (t2 : sinceT0 h < 9 * bp h + 2 * half h) : recvEnds h = true ↔
    9 * bp h + 2 * half h ≤ sinceT0 h + 1 := by
  have hbl : 10 * bp h < 2 ^ 31 := h.cfg.bp_lt
  have h2 : 2 * half h ≤ bp h := h.cfg.two_half_le
  exact endsAt_since (by omega) (by omega)

/-- GUARD_HOLD's end (R132). -/
theorem guard_ends {s : State} (hx : sinceT0 s + 1 < 2 ^ 31) : guardEnds s = true ↔ guardCycles s ≤ sinceT0 s + 1 :=
  endsAt_since hx s.cfg.guard_lt

/-- At deadline `m*BP` the edge writes frame bit `m` (R106). -/
theorem edge_at {s : State} {r : PinRef} {m : Nat} (hm : sinceT0 s = m * bp s) : odrBit (sendEdge s r)
    r = frameBit s.txb m := by
  have hb : 0 < bp s := s.cfg.bp_pos
  unfold sendEdge
  rw [hm, if_pos (Nat.mul_mod_left m (bp s)), odrBit_drive, if_pos rfl, Nat.mul_div_cancel _ hb]

/-- Between the deadlines SEND does nothing (R106). -/
theorem edge_not {s : State} {r : PinRef} (hx : sinceT0 s < 10 * bp s) (hm : ∀ m, m < 10 → sinceT0 s ≠ m * bp s)
    : sendEdge s r = s := by
  have hb : 0 < bp s := s.cfg.bp_pos
  unfold sendEdge
  rw [if_neg]
  intro h
  refine hm (sinceT0 s / bp s) ?_ ?_
  · rw [Nat.div_lt_iff_lt_mul hb]; exact hx
  · rw [Nat.div_mul_cancel (Nat.dvd_of_mod_eq_zero h)]

/-- If the ODR bit is the frame bit due, it is so after this cycle's edge (R108). -/
theorem edge_odr {s : State} {r : PinRef} (h1 : 1 ≤ sinceT0 s) (h2 : odrBit s r = frameBit s.txb ((sinceT0 s - 1)
    / bp s)) :
    odrBit (sendEdge s r) r = frameBit s.txb (sinceT0 s / bp s) := by
  have hb : 1 ≤ bp s := s.cfg.bp_pos
  unfold sendEdge
  split
  · rw [odrBit_drive, if_pos rfl]
  · rename_i hm
    rw [h2]; congr 1
    have hb : 0 < bp s := hb
    have e := Nat.div_add_mod (sinceT0 s) (bp s)
    rw [Nat.div_eq_of_lt_le] <;> rw [Nat.mul_comm]
    · omega
    · have := Nat.mod_lt (sinceT0 s) hb
      rw [Nat.mul_add]; omega

/-- An edge leaves the host's side. -/
theorem edge_SameHost (s : State) (r) : SameHostSide s (sendEdge s r) := by
  unfold SameHostSide; and_intros <;> simp

/-- A sample writes the line into SH at its deadline and no other bit (R114). -/
theorem sample_bits (s : State) (r : PinRef) (q : Nat) (hq : q < 8) : (recvSample s r).sh.getLsbD q =
          if sinceT0 s = bp s + half s + q * bp s then line s r else s.sh.getLsbD q := by
  have hb : 0 < bp s := s.cfg.bp_pos
  unfold recvSample
  split
  · rename_i h
    obtain ⟨h1, h2, h3⟩ := h
    rw [getLsbD_putBit _ _ _ _ hq]
    refine if_congr ?_ rfl rfl
    have e := Nat.div_mul_cancel (Nat.dvd_of_mod_eq_zero h2)
    constructor
    · intro h; rw [h]; omega
    · intro h
      have : sinceT0 s - (bp s + half s) = q * bp s := by omega
      rw [this, Nat.mul_div_cancel _ hb]
  · rename_i h
    rw [if_neg]
    intro he
    refine h ⟨by omega, ?_, ?_⟩
    · rw [show sinceT0 s - (bp s + half s) = q * bp s by omega]; exact Nat.mul_mod_left _ _
    · rw [show sinceT0 s - (bp s + half s) = q * bp s by omega, Nat.mul_div_cancel _ hb]; exact hq

/-- An edge sets no mode (R107). -/
theorem pinMode_sendEdge (s : State) (r q : PinRef) : pinMode (sendEdge s r) q = pinMode s q := by
  unfold sendEdge; split
  · exact pinMode_drive _ _ _ _
  · rfl

/-- A sample sets no mode. -/
theorem pinMode_recvSample (s : State) (r q : PinRef) : pinMode (recvSample s r) q = pinMode s q := by
  unfold recvSample; split <;> rfl

/-- A drive leaves every other pin. -/
theorem pins_drive (s : State) (r q : PinRef) (b : Bool) (h : q ≠ r) : odrBit (drive s r b) q = odrBit s q ∧
    pinMode (drive s r b) q = pinMode s q := by
  rw [odrBit_drive, if_neg h, pinMode_drive]; exact ⟨rfl, rfl⟩

/-- Making a pin an output leaves every other pin. -/
theorem pins_out (s : State) (r q : PinRef) (h : q ≠ r) : odrBit (makeOutHigh s r) q = odrBit s q ∧
    pinMode (makeOutHigh s r) q = pinMode s q := by
  rw [odrBit_makeOutHigh, if_neg h, pinMode_makeOutHigh, if_neg h]; exact ⟨rfl, rfl⟩

/-- Floating a pin leaves every other pin. -/
theorem pins_in (s : State) (r q : PinRef) (h : q ≠ r) : odrBit (makeInFloat s r) q = odrBit s q ∧
    pinMode (makeInFloat s r) q = pinMode s q := by
  rw [odrBit_makeInFloat, pinMode_makeInFloat, if_neg h]; exact ⟨rfl, rfl⟩

/-- An edge leaves every other pin. -/
theorem pins_edge (s : State) (r q : PinRef) (h : q ≠ r) : odrBit (sendEdge s r) q = odrBit s q ∧
    pinMode (sendEdge s r) q = pinMode s q := by
  unfold sendEdge; split
  · exact pins_drive _ _ _ _ h
  · exact ⟨rfl, rfl⟩

/-- The same port registers: the same pins. -/
theorem pins_eq {s t : State} (h : t.ports = s.ports) (q : PinRef) : odrBit t q = odrBit s q ∧
    pinMode t q = pinMode s q :=
  ⟨odrBit_congr h q, pinMode_congr h q⟩

/-- A poll writes no port register. -/
theorem recvPoll_ports (s : State) (r : PinRef) : (recvPoll s r).1.ports = s.ports := by
  rcases recvPoll_cases s r with ⟨-, e⟩ | ⟨-, -, e⟩ | ⟨-, -, e⟩ <;> rw [e]

/-- A cycle of sampling writes no port register. -/
theorem recvData_ports (s : State) (r : PinRef) : (recvData s r).1.ports = s.ports := by
  rcases recvData_cases s r with ⟨-, e⟩ | ⟨-, e⟩ <;> rw [e] <;> simp

/-- RECVB's delivery writes no port register. -/
theorem recvbDeliver_ports (p : State × RecvOutcome) : (recvbDeliver p).ports = p.1.ports := by
  obtain ⟨s, o⟩ := p; cases o <;> rfl

/-- A reply byte's delivery writes no port register. -/
theorem txnDeliver_ports (p : State × RecvOutcome) : (txnDeliver p).ports = p.1.ports := by
  obtain ⟨s, o⟩ := p
  cases o with
  | running => rfl
  | byte b => simp only [txnDeliver]; split <;> rfl
  | timeout => simp [txnDeliver]

/-- TX[k] depends on the buffer memory alone. -/
theorem txByte_congr {s t : State} (h : t.mem = s.mem) (k : Nat) : txByte t k = txByte s k := by simp [txByte, h]

/-- Behind FIX every byte of the datagram is written. -/
theorem fix_all {s u : State} {len : Nat} (h : fix s len = some u) (n : Nat) (hn : n < len)
    : (txByte u n).isSome = true := by
  obtain ⟨l, hl, hx⟩ := fix_txByte h
  have hs := fix_isSome.mp (by rw [h]; rfl : (fix s len).isSome = true)
  rw [hx]
  by_cases h1 : n = len - 1
  · simp [h1]
  · by_cases h2 : n = s.cfg.params.slaveIdx
    · rw [if_neg h1, if_pos h2]; rfl
    · rw [if_neg h1, if_neg h2]; exact hs n (by omega)

/-- FIX(L) with a byte of TX[0..L-2] unwritten has no result (R126). -/
theorem fix_none {s : State} {len k : Nat} (hn : txByte s k = none) (hk : k < len - 1) : fix s len = none := by
  cases h : fix s len with
  | none => rfl
  | some u =>
    have := fix_isSome.mp (by rw [h]; rfl : (fix s len).isSome = true) k hk
    rw [hn] at this; cases this

/-- An axis has one pin. -/
theorem axisPin_inj {s : State} {a : BitVec 4} {r r' : PinRef} (h : axisPin s a = some r)
    (h' : axisPin s a = some r') : r = r' := by
  rw [h] at h'; exact Option.some.inj h'

/-- The transactions are timed commands (R85). -/
theorem axis_timed {i : Instr} {axis} (h : axisOf i = some axis) : isTimed i = true := by
  cases i <;> simp only [axisOf, reduceCtorEq] at h <;> rfl

/-- A timed command that passes its entry checks has CYC_EN = 1 (R85). -/
theorem timedCyc {i : Instr} {s : State} (ht : isTimed i = true) (he : entryError i s = .ok) : s.cycEn = true :=
  (entryError_eq_ok.mp he).2.2.1 ht

/-- A port below N_PORTS is legal (R67). -/
theorem legalP {s : State} {port : BitVec 3} (h : port.toNat < s.cfg.params.nPorts)
    : legalPort s.cfg.params.nPorts port = true := by
  simp [legalPort, h]

/-- The entry cycle of a transaction that passes its checks, as one state (R130). -/
theorem setup_exec {s : State} {axis} {r} {i} {len} (hi : (i = .wrtxn axis ∧ len = s.cfg.params.writeLen)
    ∨ (i = .rdtxn axis ∧ len = s.cfg.params.reqLen))
   (hs : s.sub = .entry) (hr : axisPin s axis = some r) (hc : s.cycEn = true) {u : State} (hu : fix s len = some u) :
   ∃ b, exec i s = .next { makeOutHigh { u with tout := b } r with irqSuppress := true, k := 0, sub := .sendStart }
       := by
  rcases hi with ⟨rfl, rfl⟩ | ⟨rfl, rfl⟩
  · refine ⟨u.tout, ?_⟩
    simp only [exec, execWrtxn, hr, wrtxnCycle, hs, entering_ok _ (entryError_txn (i := .wrtxn axis) rfl hr hc),
        txnSetup, hu]
  · refine ⟨false, ?_⟩
    have : fix { s with tout := false } s.cfg.params.reqLen = some { u with tout := false } := by
      unfold fix at hu ⊢
      have h : fixedBytes { s with tout := false } (s.cfg.params.reqLen - 1)
          = fixedBytes s (s.cfg.params.reqLen - 1) := rfl
      rw [h]
      split at hu
      · cases hu
      · cases hu; simp [*]; rfl
    simp only [exec, execRdtxn, hr, rdtxnCycle, hs, entering_ok _ (entryError_txn (i := .rdtxn axis) rfl hr hc)]
    unfold txnSetup; simp only [hs] at this; rw [this]

end Sys2Proof.Machine
end

