-- ==== Sys2Proof/Laws/Invariant.lean ====
section
/-! SUPPORT. The invariant and the clockwork across the shared operations, the host access, reset and the end of the cycle. -/

namespace Sys2Proof.Machine

/-- An idle engine is in order. -/
theorem EngineOk.idle {s : State} (hk : s.k ≤ 8) (hs : s.sub = .idle) (hi : s.irqSuppress = false) : EngineOk s :=
  ⟨hk, fun _ => hi, fun h => by simp [hs] at h, fun h => absurd hs h⟩

/-- A retired engine is in order. -/
theorem EngineOk.retire {s : State} (e : ErrCode) (hk : s.k ≤ 8) (hi : s.irqSuppress = false)
    : EngineOk (retire e s) :=
  EngineOk.idle hk rfl hi

/-- A running engine in order, from its parts. -/
theorem EngineOk.mid {t : State} {i : Instr} (hk : t.k ≤ 8) (hd : decode t.cmd = .ok i) (hs : t.sub ∈ subOps i)
    (he : entryError i t = .ok) (hc : t.cycEn = true) (hr : t.err = .ok) (hi : t.irqSuppress = (axisOf i).isSome)
    (hx : IndexOk t i) (hp : TxnPinOk t i) : EngineOk t := by
  refine ⟨hk, fun h => ?_, fun h => ?_, fun _ _ => ⟨i, hd, hs, he, hc, hr, hi, hx, hp⟩⟩
  · rw [h] at hs; cases i <;> simp [subOps] at hs
  · rw [h] at hs; cases i <;> simp [subOps] at hs

/-- A running command is in its entry cycle or in a sub-operation of its own. -/
theorem sub_mem_or_entry {s : State} {i : Instr} (he : EngineOk s) (hb : s.busy = true) (hd : decode s.cmd = .ok i) :
    (s.sub = .entry ∧ s.irqSuppress = false ∧ s.err = .ok) ∨ (s.sub ∈ subOps i ∧ entryError i s = .ok ∧
        s.cycEn = true ∧ s.err = .ok
      ∧ s.irqSuppress = (axisOf i).isSome ∧ IndexOk s i ∧ TxnPinOk s i) := by
  obtain ⟨-, -, h3, h4⟩ := he
  by_cases hs : s.sub = .entry
  · exact .inl ⟨hs, h3 hs⟩
  · obtain ⟨j, hj, rest⟩ := h4 ((busy_iff s).mp hb) hs
    rw [hd] at hj; cases hj
    exact .inr rest

/-- A one-cycle command runs with IRQ_SUPPRESS = 0. -/
theorem one_cycle {h : State} {i : Instr} (heng : EngineOk h) (hb : h.busy = true) (hd : decode h.cmd = .ok i)
    (hi : subOps i = []) : h.irqSuppress = false := by
  rcases sub_mem_or_entry heng hb hd with ⟨-, h2, -⟩ | ⟨h1, -⟩
  · exact h2
  · simp [hi] at h1

/-- The modes depend on the port registers alone. -/
theorem ModesOk.congr {s t : State} (h : t.ports = s.ports) (hm : ModesOk s) : ModesOk t := by
  intro r; rw [pinMode_congr h]; exact hm r

/-- Making a pin an output keeps legal modes. -/
theorem ModesOk.out {s : State} (r : PinRef) (hm : ModesOk s) : ModesOk (makeOutHigh s r) := by
  intro q; rw [pinMode_makeOutHigh]; split
  · rfl
  · exact hm q

/-- Floating a pin keeps legal modes. -/
theorem ModesOk.inp {s : State} (r : PinRef) (hm : ModesOk s) : ModesOk (makeInFloat s r) := by
  intro q; rw [pinMode_makeInFloat]; split
  · rfl
  · exact hm q

/-- Driving a level keeps legal modes. -/
theorem ModesOk.drv {s : State} (r : PinRef) (b : Bool) (hm : ModesOk s) : ModesOk (drive s r b) := by
  intro q; rw [pinMode_drive]; exact hm q

/-- A port of legal modes keeps legal modes. -/
theorem ModesOk.setPort {s : State} {p : BitVec 3} {x : Port} (h : ModesOk s) (hx : ∀ i, i < 16 →
    legalMode (x.mode i) = true) : ModesOk (s.setPort p x) := by
  intro q
  unfold pinMode
  by_cases hp : q.port = p
  · rw [hp, port_setPort_same]; exact hx _ q.pin.isLt
  · rw [port_setPort_ne _ _ _ _ hp]; exact h q

/-- The clauses of a transaction say nothing of another command. -/
theorem noAxis {t : State} {i : Instr} (h : axisOf i = none) : IndexOk t i ∧ TxnPinOk t i :=
  ⟨⟨fun h' => by simp [h] at h', fun h' => by simp [h] at h'⟩, fun a r h' => by simp [h] at h'⟩

/-- A datagram has at most 8 bytes (R9). -/
theorem sendLen_le (s : State) (i : Instr) : sendLen s i ≤ 8 := by
  obtain ⟨-, h1, -, h2, -⟩ := s.cfg.layout
  cases i <;> simp [sendLen] <;> assumption

/-- The fields SETUP writes besides are not the modes. -/
theorem pinMode_out (u : State) (r q : PinRef) (b c d)
    : pinMode { makeOutHigh u r with irqSuppress := b, k := c, sub := d } q = pinMode (makeOutHigh u r) q := rfl

/-- SETUP keeps the invariant (R130). -/
theorem setup_inv {h u : State} {i : Instr} {axis} {r} (hm : MemOk h) (hmo : ModesOk h) (hd : decode h.cmd = .ok i)
    (ha : axisOf i = some axis) (hr : axisPin h axis = some r) (hen : entryError i h = .ok) (herr : h.err = .ok)
    (hsub : SubOp.sendStart ∈ subOps i) (b : Bool) (hf : fix { h with tout := b } (sendLen h i) = some u) :
    Inv { makeOutHigh u r with irqSuppress := true, k := 0, sub := .sendStart } := by
  have hfr := fix_frame hf
  have hcfg : u.cfg = h.cfg := by rw [hfr]
  have hlay := h.cfg.layout
  have hwf : Memory.wf u.mem = true := fix_wf hf (by show h.cfg.params.slaveIdx < 8; omega) (sendLen_le h i) hm
  have hlen2 : 2 ≤ sendLen h i := by
    cases i <;> simp only [axisOf, reduceCtorEq] at ha <;> simp [sendLen] <;> omega
  have hlen : ∀ t : State, t.cfg = h.cfg → sendLen t i = sendLen h i := by
    intro t ht; cases i <;> simp [sendLen, ht]
  refine ⟨by simpa [MemOk] using hwf, ?_, EngineOk.mid (i := i) (by simp) ?_ hsub ?_ ?_ ?_ ?_ ?_ ?_⟩
  · exact ModesOk.congr (s := makeOutHigh u r) rfl (ModesOk.out r (ModesOk.congr (s := h) (by rw [hfr]) hmo))
  · simp; rw [hfr]; exact hd
  · rw [entryError_congr (s := h)]
    · exact hen
    · simpa using hcfg
    · simp; rw [hfr]
    · simp; rw [hfr]
  · simp; rw [hfr]; exact timedCyc (axis_timed ha) hen
  · simp; rw [hfr]; exact herr
  · simp [ha]
  · constructor
    · intro _ _
      rw [hlen _ (by simpa using hcfg)]
      refine ⟨by simp; omega, fun n hn => ?_⟩
      rw [txByte_congr (s := u) (by simp)]
      exact fix_all hf n hn
    · simp
  · intro axis' r' ha' hr'
    rw [ha] at ha'; cases ha'
    rw [axisPin_congr (s := h) (by simpa using hcfg)] at hr'
    have := axisPin_inj hr hr'; subst this
    refine ⟨fun _ => ?_, by simp⟩
    rw [pinMode_out, pinMode_makeOutHigh, if_pos rfl]

/-- A running transaction in order, from what its cycle keeps. -/
theorem txn_mid {h t : State} {i : Instr} {axis} {r} (hd : decode h.cmd = .ok i) (ha : axisOf i = some axis)
    (hr : axisPin h axis = some r) (hen : entryError i h = .ok) (herr : h.err = .ok) (hirq : h.irqSuppress = true)
    (hH : SameHostSide h t) (hT : SameTimer h t) (hE : t.err = h.err) (hI : t.irqSuppress = h.irqSuppress)
    (hsub : t.sub ∈ subOps i) (hk : t.k ≤ 8) (hx : IndexOk t i)
    (hp1 : t.sub = .sendStart ∨ t.sub = .sending ∨ t.sub = .turn ∨ t.sub = .guardStart ∨ t.sub = .guarding →
        pinMode t r = modeOutPp)
    (hp2 : t.sub = .poll ∨ t.sub = .data ∨ t.sub = .restore → pinMode t r = modeInFloat) : EngineOk t := by
  obtain ⟨a1, a2, a3, a4, a5, a6, a7⟩ := hH
  refine EngineOk.mid (i := i) hk (by rw [a2]; exact hd) hsub ?_ ?_ (by rw [hE, herr]) (by rw [hI, hirq, ha]; rfl)
      hx ?_
  · rw [entryError_congr a1 a3 hT.2, hen]
  · rw [hT.2]; exact timedCyc (axis_timed ha) hen
  · intro axis' r' ha' hr'
    rw [ha] at ha'; cases ha'
    rw [axisPin_congr a1] at hr'
    have := axisPin_inj hr hr'; subst this
    exact ⟨hp1, hp2⟩

/-- K and the datagram stay in order through SEND (R131). -/
theorem IndexOk.send {h t : State} {i : Instr} (hx : IndexOk h i) (hc : t.cfg = h.cfg) (hm : t.mem = h.mem)
    (hk : t.k < sendLen h i)
   (hs : h.sub = .sendStart ∨ h.sub = .sending) (ht : t.sub = .sendStart ∨ t.sub = .sending) : IndexOk t i := by
  have hl : sendLen t i = sendLen h i := by cases i <;> simp [sendLen, hc]
  constructor
  · intro ha _
    obtain ⟨-, h2⟩ := hx.1 ha hs
    rw [hl]
    exact ⟨hk, fun n hn => by rw [txByte_congr hm]; exact h2 n hn⟩
  · intro _ h; rcases ht with ht | ht <;> simp [ht] at h

/-- Outside SEND and RECV K is free. -/
theorem IndexOk.none {t : State} {i : Instr} (h : t.sub ≠ .sendStart ∧ t.sub ≠ .sending ∧ t.sub ≠ .poll ∧
    t.sub ≠ .data) : IndexOk t i :=
  ⟨fun _ h' => by rcases h' with h' | h' <;> simp_all, fun _ h' => by rcases h' with h' | h' <;> simp_all⟩

/-- K stays in order through RECV (R134). -/
theorem IndexOk.recv {t : State} {i : Instr} (hs : t.sub = .poll ∨ t.sub = .data) (hk : t.k < t.cfg.params.replyLen)
    : IndexOk t i :=
  ⟨fun _ h' => by rcases h' with h' | h' <;> rcases hs with hs | hs <;> simp [hs] at h', fun _ _ => hk⟩

/-- SEND's entry cycle keeps the invariant (R131). -/
theorem send_inv {h : State} {i : Instr} {axis} {r} {b} (hi : Inv h) (hd : decode h.cmd = .ok i)
    (ha : axisOf i = some axis)
    (hr : axisPin h axis = some r) (hen : entryError i h = .ok) (herr : h.err = .ok) (hirq : h.irqSuppress = true)
    (hx : IndexOk h i) (hp : TxnPinOk h i) (hs : h.sub = .sendStart) (hsub : SubOp.sending ∈ subOps i)
        : Inv (sendEnter h r b) := by
  obtain ⟨hm, hmo, heng⟩ := hi
  refine ⟨hm, ModesOk.drv _ _ (ModesOk.congr (s := h) rfl hmo), ?_⟩
  have hxk := hx.1 (by rw [ha]; rfl) (.inl hs)
  refine txn_mid hd ha hr hen herr hirq ⟨rfl, rfl, rfl, rfl, rfl, rfl, rfl⟩ ⟨rfl, rfl⟩ rfl rfl hsub heng.1
     (IndexOk.send hx rfl rfl hxk.1 (.inl hs) (.inr rfl)) (fun _ => ?_) ?_
  · have := (hp axis r ha hr).1 (.inl hs)
    unfold sendEnter; rw [pinMode_drive]; exact this
  · rintro (h | h | h) <;> cases h

/-- A later cycle of SEND keeps the invariant (R131). -/
theorem txnSend_inv {h : State} {i : Instr} {axis} {r} {after} (hi : Inv h) (hd : decode h.cmd = .ok i)
    (ha : axisOf i = some axis)
    (hr : axisPin h axis = some r) (hen : entryError i h = .ok) (herr : h.err = .ok) (hirq : h.irqSuppress = true)
    (hx : IndexOk h i) (hp : TxnPinOk h i) (hs : h.sub = .sending) (hsub : SubOp.sending ∈ subOps i)
        (hsub2 : SubOp.sendStart ∈ subOps i)
    (hsub3 : after ∈ subOps i) (haf : after = .turn ∨ after = .guardStart) : Inv (txnSend h r (sendLen h i) after)
        := by
  obtain ⟨hm, hmo, heng⟩ := hi
  have hxk := hx.1 (by rw [ha]; rfl) (.inr hs)
  have hout := (hp axis r ha hr).1 (.inr (.inl hs))
  have hl := sendLen_le h i
  have hme : Memory.wf (sendEdge h r).mem = true := by unfold MemOk at hm; simpa using hm
  have hmo' : ModesOk (sendEdge h r) := fun q => by rw [pinMode_sendEdge]; exact hmo q
  have hH : SameHostSide h (sendEdge h r) := edge_SameHost h r
  unfold txnSend
  split
  · refine ⟨hme, ModesOk.congr (s := sendEdge h r) rfl hmo', ?_⟩
    have hpin : pinMode { sendEdge h r with k := h.k + 1, sub := if h.k + 1 < sendLen h i then .sendStart else after } r = modeOutPp := by
      have : pinMode (sendEdge h r) r = modeOutPp := by rw [pinMode_sendEdge]; exact hout
      exact this
    refine txn_mid hd ha hr hen herr hirq hH ⟨by simp, by simp⟩ (by simp) (by simp) ?_ ?_ ?_ (fun _ => hpin) ?_
    · simp only []; split <;> assumption
    · simp only []; omega
    · by_cases hlt : h.k + 1 < sendLen h i
      · exact IndexOk.send hx (by simp) (by simp) hlt (.inr hs) (.inl (by simp [hlt]))
      · refine IndexOk.none ?_
        simp only [if_neg hlt]
        rcases haf with rfl | rfl <;> simp
    · intro hq
      simp only [] at hq
      split at hq
      · simp at hq
      · rcases haf with rfl | rfl <;> simp at hq
  · refine ⟨hme, hmo', ?_⟩
    refine txn_mid hd ha hr hen herr hirq hH ⟨by simp, by simp⟩ (by simp) (by simp) (by simpa [hs] using hsub)
        (by simpa using heng.1)
      (IndexOk.send hx (by simp) (by simp) (by simpa using hxk.1) (.inr hs) (.inr (by simpa using hs)))
          (fun _ => by rw [pinMode_sendEdge]; exact hout) ?_
    simp [hs]

/-- A cycle of GUARD_HOLD keeps the invariant (R132). -/
theorem txnGuard_inv {h : State} {i : Instr} {axis} {r} {e} (hm : MemOk h) (hmo : ModesOk h) (hk : h.k ≤ 8)
    (hd : decode h.cmd = .ok i) (ha : axisOf i = some axis)
    (hr : axisPin h axis = some r) (hen : entryError i h = .ok) (herr : h.err = .ok) (hirq : h.irqSuppress = true)
    (hout : pinMode h r = modeOutPp) (hs : h.sub = .guarding) (hsub : SubOp.guarding ∈ subOps i)
        : Inv (txnGuard h e) := by
  unfold txnGuard; split
  · exact ⟨hm, hmo, EngineOk.retire _ hk rfl⟩
  · refine ⟨hm, hmo, txn_mid hd ha hr hen herr hirq (SameHostSide.refl h) ⟨rfl,
        rfl⟩ rfl rfl (by rw [hs]; exact hsub) hk
       (IndexOk.none (by simp [hs])) (fun _ => hout) (by simp [hs])⟩

/-- The end of the cycle keeps the invariant. -/
theorem Inv_endCycle {v : State} (b : Bool) (h : Inv v) : Inv (endCycle b v) := by
  obtain ⟨hm, hmo, heng⟩ := h
  unfold Machine.endCycle countCycle
  have : ∀ x y z, Machine.Inv { v with cyccnt := x, inputs := y, cycle := z } := fun _ _ _ => ⟨hm, hmo, heng⟩
  split
  · exact this _ _ _
  · split <;> exact this _ _ _

/-- An idle machine in order, from its parts. -/
theorem Inv.idle {s t : State} (hs : s.sub = .idle) (h : Inv s) (h1 : t.sub = .idle) (h2 : t.k = s.k)
    (h3 : t.irqSuppress = s.irqSuppress)
   (hm : MemOk t) (hmo : ModesOk t) : Inv t :=
  ⟨hm, hmo, EngineOk.idle (by rw [h2]; exact h.2.2.1) h1 (by rw [h3]; exact h.2.2.2.1 hs)⟩

/-- The host access keeps the invariant. -/
theorem serve_inv {s h : State} (hi : Inv s) (hs : serve s = .next h) : Inv h := by
  by_cases hb : s.busy = true
  · obtain ⟨o, d, rfl⟩ := serve_busy hb hs
    exact hi
  · have hb' : s.busy = false := by simpa using hb
    have hid : s.sub = .idle := by simpa [State.busy] using hb'
    unfold serve at hs
    split at hs
    · cases hs; exact hi
    · split at hs <;> cases hs <;> exact hi
    · split at hs
      · cases hs; exact hi
      · cases hs
      · rename_i v _ _ r hr
        cases hs
        suffices h' : Inv (hostWrite s v r) by exact h'
        obtain ⟨ht1, ht2⟩ := target_txbuf hr
        have hm := hi.1
        have hmo := hi.2.1
        unfold hostWrite
        split
        · exact hi
        · try rw [if_neg hb]
          have old : ∀ p : BitVec 3, ∀ i, i < 16 → legalMode ((s.port p).mode i) = true := fun p i hi => by
            have := hmo ⟨p, BitVec.ofNat 4 i⟩
            simp only [pinMode, BitVec.toNat_ofNat, Nat.mod_eq_of_lt hi] at this; exact this
          cases r with
          | cmd =>
            refine ⟨hm, hmo, hi.2.2.1, fun h => (by cases h), fun _ => ⟨hi.2.2.2.1 hid, rfl⟩, fun _ h => absurd rfl h⟩
          | arg => exact Inv.idle hid hi hid rfl rfl hm hmo
          | result => exact hi
          | status => exact hi
          | cyccnt => exact hi
          | bitper => exact hi
          | txbuf w =>
            have := ht1 w rfl
            exact Inv.idle hid hi hid rfl rfl (setBufWord_wf hm (by omega) (by unfold rxBase txBase; omega)) hmo
          | rxbuf w =>
            have := ht2 w rfl
            exact Inv.idle hid hi hid rfl rfl (setBufWord_wf hm (by unfold rxBase txBase; omega) (by omega)) hmo
          | cfgl p =>
            refine Inv.idle hid hi hid rfl rfl hm (ModesOk.setPort hmo fun i hi => ?_)
            rw [Port.mode_cfgl]; split
            · split
              · assumption
              · exact old p i hi
            · exact old p i hi
          | cfgh p =>
            refine Inv.idle hid hi hid rfl rfl hm (ModesOk.setPort hmo fun i hi => ?_)
            rw [Port.mode_cfgh _ _ _ hi]; split
            · exact old p i hi
            · split
              · assumption
              · exact old p i hi
          | odr p =>
            refine Inv.idle hid hi hid rfl rfl hm (ModesOk.setPort hmo fun i hi => ?_)
            exact old p i hi
          | idr p => exact hi

/-- The command's pin is the same in the next cycle. -/
theorem pin_end (v : State) (i : Instr) (b) : commandPin (endCycle b v) i = commandPin v i := by
  cases i <;> simp [commandPin, axisPin]

/-- The ODR bits are those the engine left. -/
theorem odr_end (v : State) (b) r : odrBit (endCycle b v) r = odrBit v r := odrBit_congr (by simp) r

/-- No clause of the clockwork applies to an idle engine, an entry cycle or RESTORE. -/
theorem TimingOk.quiet {t : State} (h : t.sub = .idle ∨ t.sub = .entry ∨ t.sub = .restore) : TimingOk t := by
  unfold TimingOk
  rcases h with h | h | h <;> simp [h]

/-- In SEND only the second clause of the clockwork applies (R108). -/
theorem TimingOk.only_sending {t : State} (hs : t.sub = .sending)
    (h : 1 ≤ sinceT0 t ∧ sinceT0 t < 10 * bp t ∧ ∀ i r, decode t.cmd = .ok i → commandPin t i = some r →
      odrBit t r = frameBit t.txb ((sinceT0 t - 1) / bp t)) : TimingOk t := by
  simpa [TimingOk, hs] using h

/-- A retired engine keeps the clockwork. -/
theorem TimingOk.retire (b) (e) (v : State) : TimingOk (endCycle b (retire e v))
    := TimingOk.quiet (.inl (by simp [Machine.retire]))

/-- The clockwork in SEND (R108). -/
theorem sending_time {h u : State} {i : Instr} {r} (hd : decode h.cmd = .ok i) (hr : commandPin h i = some r)
    (hc : u.cycEn = true)
    (hx : sinceT0 u + 1 < 10 * bp u) (hu : u.sub = .sending) (hcmd : u.cmd = h.cmd) (hcfg : u.cfg = h.cfg)
    (ho : odrBit u r = frameBit u.txb (sinceT0 u / bp u)) : TimingOk (endCycle false u) := by
  have hbl : 10 * bp u < 2 ^ 31 := u.cfg.bp_lt
  have hse := since_end (v := u) hc (by omega)
  have hbp : bp (endCycle false u) = bp u := by simp
  refine TimingOk.only_sending (by simpa using hu) ?_
  rw [hse, hbp]
  refine ⟨by omega, hx, ?_⟩
  intro j r' hj hr'
  rw [show (endCycle false u).cmd = u.cmd by simp, hcmd, hd] at hj; cases hj
  rw [pin_end] at hr'
  have : commandPin u i = commandPin h i := by cases i <;> simp [commandPin, axisPin, hcfg]
  rw [this, hr] at hr'; cases hr'
  rw [odr_end, ho]; simp

/-- The clockwork after detection (R115). -/
theorem data_time {u : State} (hc : u.cycEn = true) (hs : u.sub = .data)
    (hx : sinceT0 u + 1 < 9 * bp u + 2 * half u) : TimingOk (endCycle false u) := by
  have hbl : 10 * bp u < 2 ^ 31 := u.cfg.bp_lt
  have h2 : 2 * half u ≤ bp u := u.cfg.two_half_le
  have hse := since_end (v := u) hc (by omega)
  simpa [TimingOk, hs, hse, bp, half] using hx

/-- The clockwork of the polls (R112). -/
theorem poll_time {u : State} (hs : u.sub = .poll) (hj : u.j < u.cfg.params.rxTimeout) : TimingOk (endCycle false u)
    := by
  simpa [TimingOk, hs] using hj

/-- The pin of the command, still high after the cycle (R109, R132). -/
theorem pin_high {u : State} {i} {r} (hd : decode u.cmd = .ok i) (hr : commandPin u i = some r) (ho : odrBit u r = true) :
    ∀ j r', decode (endCycle false u).cmd = .ok j → commandPin (endCycle false u) j = some r' →
      odrBit (endCycle false u) r' = true := by
  intro j r' hj hr'
  rw [show (endCycle false u).cmd = u.cmd by simp, hd] at hj; cases hj
  rw [pin_end, hr] at hr'; cases hr'
  rw [odr_end, ho]

/-- The clockwork between characters and at the guard's start (R109, R132). -/
theorem high_time {u : State} {i} {r} (hs : u.sub = .sendStart ∨ u.sub = .turn ∨ u.sub = .guardStart)
    (hd : decode u.cmd = .ok i)
    (hr : commandPin u i = some r) (ho : odrBit u r = true) : TimingOk (endCycle false u) := by
  have hp := pin_high hd hr ho
  unfold TimingOk
  rcases hs with hs | hs | hs <;> simpa [hs] using hp

/-- The clockwork in GUARD_HOLD (R132). -/
theorem guard_time {u : State} {e} {i} {r} (hs : u.sub = .guarding) (hd : decode u.cmd = .ok i) (hc : u.cycEn = true)
    (hr : commandPin u i = some r) (ho : odrBit u r = true) (hx : sinceT0 u < guardCycles u)
        : TimingOk (endCycle false (txnGuard u e)) := by
  have hg : guardCycles u < 2 ^ 31 := u.cfg.guard_lt
  have := endsAt_since (s := u) (d := guardCycles u) (by omega) hg
  unfold txnGuard
  split
  · exact TimingOk.retire _ _ _
  · rename_i hn
    have hn : ¬ endsAt u (BitVec.ofNat 32 (guardCycles u)) = true := hn
    rw [this] at hn
    have hp := pin_high hd hr ho
    have hse := since_end (v := u) hc (by omega)
    unfold TimingOk
    have hlt : sinceT0 u + 1 < guardCycles u := by omega
    simpa [hs, hse] using And.intro hlt hp

/-- The clockwork through a later cycle of SEND (R131). -/
theorem txnSend_time {h : State} {i : Instr} {r} {len after} (ht : TimingOk h) (hd : decode h.cmd = .ok i)
    (hr : commandPin h i = some r) (hc : h.cycEn = true) (hs : h.sub = .sending)
        (haf : after = .turn ∨ after = .guardStart) :
    TimingOk (endCycle false (txnSend h r len after)) := by
  have hb1 : 1 ≤ bp h := h.cfg.bp_pos
  have hbl : 10 * bp h < 2 ^ 31 := h.cfg.bp_lt
  obtain ⟨t1, t2, t3⟩ := ht.2.1 hs
  have hsi : sinceT0 (sendEdge h r) = sinceT0 h := by simp [sinceT0, elapsed]
  have := endsAt_since (s := h) (d := 10 * bp h) (by omega) hbl
  have ho := edge_odr t1 (t3 _ _ hd hr)
  have hp : ∀ u : State, u.cfg = h.cfg → commandPin u i = commandPin h i := fun u hu => by cases i <;> simp [commandPin, axisPin, hu]
  unfold txnSend
  split
  · rename_i hen
    have hen := this.mp hen
    have hdiv : sinceT0 h / bp h = 9 := by
      rw [Nat.div_eq_of_lt_le] <;> omega
    rw [hdiv] at ho
    refine high_time (i := i) (r := r) ?_ (by simpa using hd) (by rw [hp _ (by simp), hr]) ?_
    · by_cases hk : h.k + 1 < len
      · simp [hk]
      · rcases haf with rfl | rfl <;> simp [hk]
    · exact ho
  · rename_i hen
    have hen := mt this.mpr hen
    refine sending_time (h := h) hd hr (by simpa using hc) ?_ (by simpa using hs) (by simp) (by simp) ?_
    · rw [hsi]; simp at *; omega
    · rw [ho, hsi]; simp

/-- The clockwork through SEND's entry cycle (R131). -/
theorem sendEnter_time {h : State} {i : Instr} {r b} (hd : decode h.cmd = .ok i)
    (hr : commandPin h i = some r) (hc : h.cycEn = true) : TimingOk (endCycle false (sendEnter h r b)) := by
  have hb1 : 1 ≤ bp h := h.cfg.bp_pos
  refine sending_time (h := h) hd hr ?_ ?_ rfl rfl rfl ?_
  · exact hc
  · rw [since_zero rfl]; show 0 + 1 < 10 * bp h; omega
  · rw [since_zero rfl]; unfold sendEnter; rw [odrBit_drive, if_pos rfl]; simp [frameBit]

end Sys2Proof.Machine
end

