-- ==== Sys2Proof/Laws/PerInstr.lean ====
section
/-! SUPPORT. Statements made once per command of the table. -/

namespace Sys2Proof

/-- The opcode-map row of a command: its match and its mask (R73). -/
def rowOf : Instr → Word × Word
  | .nop => (0x00000000, maskN)
  | .init => (0x00000001, maskN)
  | .now => (0x00000002, maskN)
  | .elapsed => (0x00000003, maskN)
  | .wait => (0x00000004, maskN)
  | .setmode _ _ _ => (0x00000010, maskSetmode)
  | .setlvl _ _ _ => (0x00000011, maskSetlvl)
  | .getlvl _ _ => (0x00000012, maskP)
  | .sendb _ _ => (0x00000020, maskP)
  | .recvb _ _ => (0x00000021, maskP)
  | .framew => (0x00000030, maskN)
  | .framer => (0x00000031, maskN)
  | .wrtxn _ => (0x00000040, maskA)
  | .rdtxn _ => (0x00000041, maskA)

end Sys2Proof

namespace Sys2Proof.Laws.EncodeFitsRow

/-- The encoding of a command fits its row: `(w & mask) = match` (R73). -/
def Statement (i : Instr) : Prop := encode i &&& (rowOf i).2 = (rowOf i).1

theorem nop : Statement .nop := by unfold Statement; decide
theorem init : Statement .init := by unfold Statement; decide
theorem now : Statement .now := by unfold Statement; decide
theorem elapsed : Statement .elapsed := by unfold Statement; decide
theorem wait : Statement .wait := by unfold Statement; decide
theorem setmode (port : BitVec 3) (pin mode : BitVec 4) : Statement (.setmode port pin mode) := by
  unfold Statement; revert port pin mode; decide +kernel
theorem setlvl (port : BitVec 3) (pin : BitVec 4) (lvl : Bool) : Statement (.setlvl port pin lvl) := by
  unfold Statement; revert port pin lvl; decide +kernel
theorem getlvl (port : BitVec 3) (pin : BitVec 4) : Statement (.getlvl port pin) := by
  unfold Statement; revert port pin; decide +kernel
theorem sendb (port : BitVec 3) (pin : BitVec 4) : Statement (.sendb port pin) := by
  unfold Statement; revert port pin; decide +kernel
theorem recvb (port : BitVec 3) (pin : BitVec 4) : Statement (.recvb port pin) := by
  unfold Statement; revert port pin; decide +kernel
theorem framew : Statement .framew := by unfold Statement; decide
theorem framer : Statement .framer := by unfold Statement; decide
theorem wrtxn (axis : BitVec 4) : Statement (.wrtxn axis) := by
  unfold Statement; revert axis; decide +kernel
theorem rdtxn (axis : BitVec 4) : Statement (.rdtxn axis) := by
  unfold Statement; revert axis; decide +kernel

end Sys2Proof.Laws.EncodeFitsRow
end

