-- ==== Sys2Proof/Laws/Runs.lean ====
section
/-! SUPPORT. Runs of several cycles: the inputs a run has used up, and the whole of SEND, of the polls, of the samples and of
GUARD_HOLD, whatever command they belong to. -/

namespace Sys2Proof.Machine

/-- Every cycle takes one input and counts one. -/
theorem step_clock {s t : State} (h : step s = .next t) : t.inputs = s.inputs.tail ∧ t.cycle = s.cycle + 1 ∧
    t.cfg = s.cfg := by
  rcases step_cases h with ⟨-, rfl⟩ | ⟨-, u, hu, h3⟩
  · exact ⟨rfl, rfl, rfl⟩
  obtain ⟨f1, -, -, -, -, -, -, -, -, -, -, f12, f13⟩ := serve_frame hu
  rcases h3 with ⟨hb, rfl⟩ | ⟨hb, ⟨e, he⟩, rfl⟩ | ⟨hb, i, v, hd, hv, rfl⟩
  · simp [f1, f12, f13]
  · simp [f1, f12, f13]
  · obtain ⟨a1, -, -, -, -, a6, a7⟩ := exec_hostSide hv
    simp [a1, a6, a7, f1, f12, f13]

/-- `n` cycles take `n` inputs. -/
theorem cycles_clock {n : Nat} {s t : State} (h : cycles n s = .next t) : t.inputs = s.inputs.drop n ∧
    t.cycle = s.cycle + n ∧ t.cfg = s.cfg := by
  induction n generalizing s with
  | zero => simp [cycles] at h; subst h; simp
  | succ n ih =>
    simp only [cycles] at h
    split at h
    · rename_i u hu
      obtain ⟨a, b, c⟩ := step_clock hu
      obtain ⟨a', b', c'⟩ := ih h
      refine ⟨?_, by omega, c'.trans c⟩
      rw [a', a]; simp
    · cases h
    · cases h

/-- The quiet left after `n` cycles. -/
theorem quiet_after {N n : Nat} {s t : State} (hq : QuietFor N s) (h : cycles n s = .next t) : QuietFor (N - n)
    t := by
  intro x hx
  rw [(cycles_clock h).1] at hx
  refine hq x ?_
  rw [← List.drop_take] at hx
  exact List.mem_of_mem_drop hx

/-- A cycle inside the quiet. -/
theorem quiet_now_after {N n : Nat} {s t : State} (hq : QuietFor N s) (hn : n < N) (h : cycles n s = .next t)
    : QuietNow t :=
  QuietFor.now (n := N - n - 1) (by rw [show N - n - 1 + 1 = N - n by omega]; exact quiet_after hq h)

/-- ENV as a later cycle sees it. -/
theorem env_after {n : Nat} {s t : State} (h : cycles n s = .next t) (m : Nat) (r : PinRef)
    : envLater t m r = envLater s (n + m) r := by
  obtain ⟨a, b, -⟩ := cycles_clock h
  unfold envLater
  rw [a, b, List.getElem?_drop, Nat.add_assoc]

/-- The line of a floating pin in a later cycle is ENV (R100). -/
theorem line_after {n : Nat} {s t : State} {r : PinRef} (h : cycles n s = .next t) (hm : pinMode t r = modeInFloat)
    : line t r = envLater s n r := by
  rw [line_of_inFloat hm, envPort_eq_envLater, env_after h]; rfl

/-- One quiet cycle more of a command other than INIT. -/
theorem run_succ {n N : Nat} {s t v : State} {i : Instr} (hq : QuietFor N s) (hn : n < N) (h : cycles n s = .next t)
    (hb : t.busy = true) (hd : decode t.cmd = .ok i) (hi : i ≠ .init) (he : exec i { t with rdata := none }
        = .next v) :
    cycles (n + 1) s = .next (endCycle false v) := by
  rw [cycles_succ h, step_quiet_exec (quiet_now_after hq hn h) hb hd he, performsInit_eq hi]

/-- Counting one cycle more. -/
theorem cyc_succ (a : Word) (n : Nat) : a + BitVec.ofNat 32 n + 1 = a + BitVec.ofNat 32 (n + 1) := by
  rw [BitVec.ofNat_add]
  have : BitVec.ofNat 32 1 = 1 := rfl
  rw [this, BitVec.add_assoc]

/-- What a cycle inside a character leaves. -/
structure CharKeeps (s t : State) : Prop where
  cfg : t.cfg = s.cfg
  cmd : t.cmd = s.cmd
  arg : t.arg = s.arg
  result : t.result = s.result
  err : t.err = s.err
  cycEn : t.cycEn = s.cycEn
  irq : t.irqSuppress = s.irqSuppress
  mem : t.mem = s.mem
  k : t.k = s.k
  tout : t.tout = s.tout

/-- Nothing happened. -/
theorem CharKeeps.refl (s : State) : CharKeeps s s := by constructor <;> rfl

/-- One after the other. -/
theorem CharKeeps.trans {s t u : State} (a : CharKeeps s t) (b : CharKeeps t u) : CharKeeps s u :=
  ⟨b.1.trans a.1, b.2.trans a.2, b.3.trans a.3, b.4.trans a.4, b.5.trans a.5, b.6.trans a.6, b.7.trans a.7,
      b.8.trans a.8, b.9.trans a.9, b.10.trans a.10⟩

/-- The end of the cycle leaves it too. -/
theorem CharKeeps.fin {s t : State} (a : CharKeeps s t) : CharKeeps s (endCycle false t) :=
  by cases a; constructor <;> simp [*]

/-- An edge leaves it. -/
theorem CharKeeps.edge (s : State) (r) (d) : CharKeeps s (sendEdge { s with rdata := d } r) :=
  by constructor <;> simp

/-- SEND from its second cycle: frame bit `(n - 1) / BP` in its cycle `n`, and `last` in its last one (R106-R109). -/
theorem send_run {s t1 : State} {i : Instr} {r : PinRef} {b : Byte} {N a : Nat} {last : State → State}
    (hq : QuietFor N s) (hN : a + 10 * bp s ≤ N) (h1 : cycles (a + 1) s = .next t1) (hd : decode t1.cmd = .ok i)
        (hi : i ≠ .init)
    (hs : t1.sub = .sending) (hx : sinceT0 t1 = 1) (hb : t1.txb = b) (ho : odrBit t1 r = false) (hc : t1.cycEn = true)
    (hex : ∀ u : State, u.cfg = s.cfg → u.sub = .sending →
        exec i u = .next (if sendEnds u then last u else sendEdge u r)) :
    (∀ n, 1 ≤ n → n < 10 * bp s → ∃ t, cycles (a + n) s = .next t ∧ CharKeeps t1 t ∧ t.sub = .sending ∧
        sinceT0 t = n ∧ t.txb = b
        ∧ odrBit t r = frameBit b ((n - 1) / bp s) ∧ (∀ q, pinMode t q = pinMode t1 q) ∧ SamePinsBut r t1 t)
    ∧ ∃ t, CharKeeps t1 t ∧ t.sub = .sending ∧ t.txb = b ∧ odrBit (sendEdge t r) r = true ∧ (∀ q,
        pinMode t q = pinMode t1 q) ∧ SamePinsBut r t1 t
        ∧ cycles (a + 10 * bp s) s = .next (endCycle false (last t)) := by
  have hcfg := (cycles_clock h1).2.2
  have hb1 : 1 ≤ bp s := s.cfg.bp_pos
  have hbl : 10 * bp s < 2 ^ 31 := s.cfg.bp_lt
  have key : ∀ n, 1 ≤ n → n < 10 * bp s → ∃ t, cycles (a + n) s = .next t ∧ CharKeeps t1 t ∧ t.sub = .sending ∧
      sinceT0 t = n ∧ t.txb = b
        ∧ odrBit t r = frameBit b ((n - 1) / bp s) ∧ (∀ q, pinMode t q = pinMode t1 q) ∧ SamePinsBut r t1 t := by
    intro n hn
    induction n, hn using Nat.le_induction with
    | base =>
      intro _
      exact ⟨t1, h1, CharKeeps.refl _, hs, hx, hb, by rw [ho]; simp [frameBit], fun _ => rfl, fun _ _ => ⟨rfl, rfl⟩⟩
    | succ n hn ih =>
      intro hlt
      obtain ⟨t, ht, hr, hsub, hsi, htx, hodr, hm, hp⟩ := ih (by omega)
      have hcfgt : t.cfg = s.cfg := hr.cfg.trans hcfg
      have hbt : bp t = bp s := by unfold bp; rw [hcfgt]
      obtain ⟨u, hu⟩ : ∃ u : State, u = { t with rdata := none } := ⟨_, rfl⟩
      have husi : sinceT0 u = n := by rw [hu]; exact hsi
      have hubt : bp u = bp s := by rw [hu]; exact hbt
      have hutx : u.txb = b := by rw [hu]; exact htx
      have huo : odrBit u r = frameBit b ((n - 1) / bp s) := by rw [hu]; exact hodr
      have hse := send_ends (s := u) (by rw [husi, hubt]; omega)
      have hne : sendEnds u = false := by
        cases h : sendEnds u
        · rfl
        · have := hse.mp h; rw [husi, hubt] at this; omega
      have he : exec i u = .next (sendEdge u r) := by
        rw [hex u (by rw [hu]; exact hcfgt) (by rw [hu]; exact hsub), hne]; rfl
      have hedge := edge_odr (s := u) (r := r) (by omega) (by rw [husi, huo, hutx, hubt])
      rw [husi, hutx, hubt] at hedge
      subst hu
      refine ⟨_, run_succ (n := a + n) hq (by omega) ht (by simp [State.busy, hsub]) (by rw [hr.cmd]; exact hd)
          hi he, (hr.trans (CharKeeps.edge t r none)).fin, by simp [hsub], ?_, by simp [htx], ?_, fun q => ?_,
          fun q hq => ?_⟩
      · rw [since_end (by simp; rw [hr.cycEn]; exact hc) (by rw [since_congr (b := t) (by simp) (by simp)]; omega),
            since_congr (b := t) (by simp) (by simp), hsi]
      · rw [odr_end, hedge]; rfl
      · rw [pinMode_congr (s := sendEdge { t with rdata := none } r) (by simp), pinMode_sendEdge]; exact hm q
      · have h1 := pins_edge { t with rdata := none } r q hq
        have h2 := hp q hq
        rw [odr_end, pinMode_congr (s := sendEdge { t with rdata := none } r) (by simp)]
        exact ⟨h1.1.trans h2.1, h1.2.trans h2.2⟩
  refine ⟨key, ?_⟩
  obtain ⟨t, ht, hr, hsub, hsi, htx, hodr, hm, hp⟩ := key (10 * bp s - 1) (by omega) (by omega)
  have hcfgt : t.cfg = s.cfg := hr.cfg.trans hcfg
  have hbt : bp t = bp s := by unfold bp; rw [hcfgt]
  obtain ⟨u, hu⟩ : ∃ u : State, u = { t with rdata := none } := ⟨_, rfl⟩
  have husi : sinceT0 u = 10 * bp s - 1 := by rw [hu]; exact hsi
  have hubt : bp u = bp s := by rw [hu]; exact hbt
  have hutx : u.txb = b := by rw [hu]; exact htx
  have huo : odrBit u r = frameBit b ((10 * bp s - 1 - 1) / bp s) := by rw [hu]; exact hodr
  have hse : sendEnds u = true := (send_ends (s := u) (by omega)).mpr (by omega)
  have he : exec i u = .next (last u) := by
    rw [hex u (by rw [hu]; exact hcfgt) (by rw [hu]; exact hsub), hse]; rfl
  have hedge := edge_odr (s := u) (r := r) (by omega) (by rw [husi, huo, hutx, hubt])
  rw [husi, hutx, hubt] at hedge
  have h9 : (10 * bp s - 1) / bp s = 9 := by rw [Nat.div_eq_of_lt_le] <;> omega
  rw [h9] at hedge
  have hrun := run_succ (N := N) hq (by omega) ht (by simp [State.busy, hsub]) (by rw [hr.cmd]; exact hd)
      hi (by rw [← hu]; exact he)
  rw [show a + (10 * bp s - 1) + 1 = a + 10 * bp s by omega] at hrun
  refine ⟨u, ?_, by rw [hu]; exact hsub, hutx, hedge, by rw [hu]; exact hm, by rw [hu]; exact hp, hrun⟩
  rw [hu]; exact ⟨hr.1, hr.2, hr.3, hr.4, hr.5, hr.6, hr.7, hr.8, hr.9, hr.10⟩

/-- A pin that floats all along reads ENV in a later cycle (R100). -/
theorem line_floats {s p t : State} {r : PinRef} {n : Nat} (hm : pinMode p r = modeInFloat)
    (ht : cycles n s = .next t) (hpo : t.ports = p.ports) : line t r = envLater s n r :=
  line_after ht ((pinMode_congr hpo r).trans hm)

/-- The polls that read 1, and the state in which poll `u` is made (R112). -/
theorem poll_run {s p : State} {i : Instr} {r : PinRef} {N a u : Nat} {deliver : State × RecvOutcome → State}
    (hdl : ∀ x, deliver (x, .running) = x)
    (hq : QuietFor N s) (hN : a + u ≤ N) (hu : u < s.cfg.params.rxTimeout) (hp : cycles a s = .next p)
        (hb : p.busy = true) (hd : decode p.cmd = .ok i) (hi : i ≠ .init)
    (hex0 : ∀ d, exec i { p with rdata := d } = .next (deliver (recvPoll { p with rdata := d, j := 0, sub := .poll }
        r)))
    (hex : ∀ u : State, u.cfg = s.cfg → u.sub = .poll → exec i u = .next (deliver (recvPoll u r)))
    (hline : ∀ m t, m < u → cycles (a + m) s = .next t → t.ports = p.ports → line t r = true) :
    ∀ n, n ≤ u → ∃ t, cycles (a + n) s = .next t ∧ CharKeeps p t ∧ t.ports = p.ports ∧ t.busy = true ∧ (1 ≤ n →
        t.sub = .poll) ∧ (n = 0 → t = p) ∧ t.sh = p.sh
        ∧ exec i { t with rdata := none } = .next (deliver (recvPoll { t with rdata := none, j := n, sub := .poll }
            r)) := by
  intro n
  induction n with
  | zero => intro _; exact ⟨p, hp, CharKeeps.refl _, rfl, hb, fun h => absurd h (by omega), fun _ => rfl, rfl,
        hex0 none⟩
  | succ n ih =>
    intro hn
    obtain ⟨t, ht, hr, hpo, htb, -, -, hsh, hext⟩ := ih (by omega)
    have hcfg := (cycles_clock ht).2.2
    have hl : line t r = true := hline n t (by omega) ht hpo
    obtain ⟨w, hw⟩ : ∃ w : State, w = { t with rdata := none, j := n, sub := .poll } := ⟨_, rfl⟩
    have hwl : line w r = true := by rw [hw]; exact hl
    have hwj : w.j = n := by rw [hw]
    have hwc : w.cfg = s.cfg := by rw [hw]; exact hcfg
    have hrp : recvPoll w r = ({ w with j := n + 1 }, .running) := by
      rcases recvPoll_cases w r with ⟨h, -⟩ | ⟨-, -, h⟩ | ⟨-, h, -⟩
      · rw [hwl] at h; cases h
      · rw [h, hwj]
      · rw [hwj, hwc] at h; omega
    rw [← hw, hrp, hdl] at hext
    have hrun := run_succ (n := a + n) hq (by omega) ht htb (by rw [hr.cmd]; exact hd) hi hext
    have hrest : CharKeeps t w := by rw [hw]; constructor <;> rfl
    have hrest2 : CharKeeps w { w with j := n + 1 } := by constructor <;> rfl
    have hsub : w.sub = .poll := by rw [hw]
    refine ⟨_, hrun, ((hr.trans hrest).trans hrest2).fin, ?_, ?_, fun _ => by simp [hsub],
        fun h => absurd h (by omega), ?_, ?_⟩
    · simp [hw]; exact hpo
    · simp [State.busy, hsub]
    · simp [hw]; exact hsh
    · obtain ⟨v, hv⟩ : ∃ v : State, v = { endCycle false { w with j := n + 1 } with rdata := none } := ⟨_, rfl⟩
      have e1 : { v with j := n + 1, sub := .poll } = v := by
        rw [hv]; unfold endCycle countCycle; cases w.cycEn <;> simp [hsub]
      rw [← hv]
      rw [hex v (by rw [hv]; simp [hwc]) (by rw [hv]; simp [hsub])]
      have e2 : ({ endCycle false { w with j := n + 1 } with rdata := none, j := n + 1, sub := .poll } : State)
          = v := by
        rw [← e1, hv]
      rw [e2]

/-- The cycles after detection: each bit from its deadline on is ENV at its deadline, and the last cycle delivers the
byte (R114-R116). -/
theorem data_run {s t1 : State} {i : Instr} {r : PinRef} {N b : Nat} {deliver : State × RecvOutcome → State}
    (hdl : ∀ x, deliver (x, .running) = x)
    (hq : QuietFor N s) (hN : b + 9 * bp s + 2 * half s ≤ N) (h1 : cycles (b + 1) s = .next t1)
        (hd : decode t1.cmd = .ok i) (hi : i ≠ .init)
    (hs : t1.sub = .data) (hx : sinceT0 t1 = 1) (hm : pinMode t1 r = modeInFloat) (hc : t1.cycEn = true)
    (hex : ∀ u : State, u.cfg = s.cfg → u.sub = .data → exec i u = .next (deliver (recvData u r))) :
    (∀ n, 1 ≤ n → n < 9 * bp s + 2 * half s → ∃ t, cycles (b + n) s = .next t ∧ CharKeeps t1 t ∧
        t.ports = t1.ports ∧ t.sub = .data ∧ sinceT0 t = n
        ∧ ∀ q, q < 8 → t.sh.getLsbD q = if bp s + half s + q * bp s < n then envLater s (b + (bp s + half s + q * bp s)) r else t1.sh.getLsbD q)
    ∧ ∃ t, CharKeeps t1 t ∧ t.ports = t1.ports ∧ (∀ q, q < 8 →
        t.sh.getLsbD q = envLater s (b + (bp s + half s + q * bp s)) r)
        ∧ cycles (b + 9 * bp s + 2 * half s) s = .next (endCycle false (deliver (t, .byte t.sh))) := by
  have hcfg := (cycles_clock h1).2.2
  have hb1 : 1 ≤ bp s := s.cfg.bp_pos
  have hbl : 10 * bp s < 2 ^ 31 := s.cfg.bp_lt
  have h2 : 2 * half s ≤ bp s := s.cfg.two_half_le
  -- one sampling step on a state u
  have samp : ∀ n t, cycles (b + n) s = .next t → pinMode t r = modeInFloat → sinceT0 t = n → ∀ d,
      (∀ q, q < 8 → t.sh.getLsbD q = if bp s + half s + q * bp s < n then envLater s (b + (bp s + half s + q * bp s)) r else t1.sh.getLsbD q) →
      ∀ q, q < 8 → (recvSample { t with rdata := d }
          r).sh.getLsbD q = if bp s + half s + q * bp s < n + 1 then envLater s (b + (bp s + half s + q * bp s))
          r else t1.sh.getLsbD q := by
    intro n t ht hmt hsi d hsh q hq8
    have hcfgt := (cycles_clock ht).2.2
    rw [sample_bits _ _ _ hq8]
    have hl : line { t with rdata := d } r = envLater s (b + n) r := (show line t r = _ from line_after ht hmt)
    rw [hl]
    have e1 : sinceT0 { t with rdata := d } = n := hsi
    have e2 : bp { t with rdata := d } = bp s := by unfold bp; rw [show ({ t with rdata := d }
        : State).cfg = s.cfg from hcfgt]
    have e3 : half { t with rdata := d } = half s := by unfold half; rw [show ({ t with rdata := d }
        : State).cfg = s.cfg from hcfgt]
    rw [e1, e2, e3]
    by_cases h : n = bp s + half s + q * bp s
    · rw [if_pos h, if_pos (by omega), ← h]
    · rw [if_neg h]
      show t.sh.getLsbD q = _
      rw [hsh q hq8]
      exact if_congr (by omega) rfl rfl
  have key : ∀ n, 1 ≤ n → n < 9 * bp s + 2 * half s → ∃ t, cycles (b + n) s = .next t ∧ CharKeeps t1 t ∧
      t.ports = t1.ports ∧ t.sub = .data ∧ sinceT0 t = n
        ∧ ∀ q, q < 8 → t.sh.getLsbD q = if bp s + half s + q * bp s < n then envLater s (b + (bp s + half s + q * bp s)) r else t1.sh.getLsbD q := by
    intro n hn
    induction n, hn using Nat.le_induction with
    | base =>
      intro _
      refine ⟨t1, h1, CharKeeps.refl _, rfl, hs, hx, fun q _ => ?_⟩
      rw [if_neg]; omega
    | succ n hn ih =>
      intro hlt
      obtain ⟨t, ht, hr, hpo, hsub, hsi, hsh⟩ := ih (by omega)
      have hcfgt : t.cfg = s.cfg := (cycles_clock ht).2.2
      have hmt : pinMode t r = modeInFloat := by rw [pinMode_congr hpo]; exact hm
      have hs' := samp n t ht hmt hsi none hsh
      obtain ⟨u, hu⟩ : ∃ u : State, u = { t with rdata := none } := ⟨_, rfl⟩
      have husi : sinceT0 u = n := by rw [hu]; exact hsi
      have hucfg : u.cfg = s.cfg := by rw [hu]; exact hcfgt
      have hre := recv_ends (s := u) (by omega)
      have hbpu : bp u = bp s := by unfold bp; rw [hucfg]
      have hhu : half u = half s := by unfold half; rw [hucfg]
      have hne : recvEnds u = false := by
        cases h : recvEnds u
        · rfl
        · have := hre.mp h; omega
      have hrd : recvData u r = (recvSample u r, .running) := by
        rcases recvData_cases u r with ⟨-, h⟩ | ⟨h, -⟩
        · exact h
        · rw [hne] at h; cases h
      have he : exec i u = .next (recvSample u r) := by
        rw [hex u hucfg (by rw [hu]; exact hsub), hrd, hdl]
      have hrun := run_succ (n := b + n) hq (by omega) ht (by simp [State.busy, hsub]) (by rw [hr.cmd]; exact hd)
          hi (by rw [← hu]; exact he)
      have hrest : CharKeeps t (recvSample u r) := by rw [hu]; constructor <;> simp
      refine ⟨_, hrun, (hr.trans hrest).fin, ?_, ?_, ?_, fun q hq8 => ?_⟩
      · simp [hu]; exact hpo
      · simp [hu]; exact hsub
      · rw [since_end (by simp [hu]; rw [hr.cycEn]; exact hc)
            (by rw [since_congr (b := u) (by simp) (by simp)]; omega), since_congr (b := u) (by simp) (by simp), husi]
      · simp only [endCycle_sh]; rw [hu]; exact hs' q hq8
  refine ⟨key, ?_⟩
  obtain ⟨t, ht, hr, hpo, hsub, hsi, hsh⟩ := key (9 * bp s + 2 * half s - 1) (by omega) (by omega)
  have hcfgt : t.cfg = s.cfg := (cycles_clock ht).2.2
  have hmt : pinMode t r = modeInFloat := by rw [pinMode_congr hpo]; exact hm
  have hs' := samp _ t ht hmt hsi none hsh
  obtain ⟨u, hu⟩ : ∃ u : State, u = { t with rdata := none } := ⟨_, rfl⟩
  have husi : sinceT0 u = 9 * bp s + 2 * half s - 1 := by rw [hu]; exact hsi
  have hucfg : u.cfg = s.cfg := by rw [hu]; exact hcfgt
  have hbpu : bp u = bp s := by unfold bp; rw [hucfg]
  have hhu : half u = half s := by unfold half; rw [hucfg]
  have hye : recvEnds u = true := (recv_ends (s := u) (by omega)).mpr (by omega)
  have hrd : recvData u r = (recvSample u r, .byte (recvSample u r).sh) := by
    rcases recvData_cases u r with ⟨h, -⟩ | ⟨-, h⟩
    · rw [hye] at h; cases h
    · exact h
  have he : exec i u = .next (deliver (recvSample u r, .byte (recvSample u r).sh)) := by
    rw [hex u hucfg (by rw [hu]; exact hsub), hrd]
  have hrun := run_succ (n := b + (9 * bp s + 2 * half s - 1)) hq (by omega) ht (by simp [State.busy, hsub])
      (by rw [hr.cmd]; exact hd) hi (by rw [← hu]; exact he)
  rw [show b + (9 * bp s + 2 * half s - 1) + 1 = b + 9 * bp s + 2 * half s by omega] at hrun
  have hrest : CharKeeps t (recvSample u r) := by rw [hu]; constructor <;> simp
  refine ⟨recvSample u r, hr.trans hrest, by simp [hu]; exact hpo, fun q hq8 => ?_, hrun⟩
  rw [hu, hs' q hq8, if_pos]
  have : q * bp s ≤ 7 * bp s := Nat.mul_le_mul_right _ (by omega)
  omega

/-- What a transaction's SENDs and GUARD_HOLD leave. -/
structure TxnKeeps (s t : State) : Prop where
  cfg : t.cfg = s.cfg
  cmd : t.cmd = s.cmd
  result : t.result = s.result
  err : t.err = s.err
  cycEn : t.cycEn = s.cycEn
  irq : t.irqSuppress = s.irqSuppress
  mem : t.mem = s.mem
  tout : t.tout = s.tout
  arg : t.arg = s.arg

/-- A character leaves it. -/
theorem CharKeeps.txn {s t : State} (a : CharKeeps s t) : TxnKeeps s t := ⟨a.cfg, a.cmd, a.result, a.err, a.cycEn,
    a.irq, a.mem, a.tout, a.arg⟩

/-- Nothing happened. -/
theorem TxnKeeps.refl (s : State) : TxnKeeps s s := by constructor <;> rfl

/-- One after the other. -/
theorem TxnKeeps.trans {s t u : State} (a : TxnKeeps s t) (b : TxnKeeps t u) : TxnKeeps s u :=
  ⟨b.1.trans a.1, b.2.trans a.2, b.3.trans a.3, b.4.trans a.4, b.5.trans a.5, b.6.trans a.6, b.7.trans a.7,
      b.8.trans a.8, b.9.trans a.9⟩

/-- The end of the cycle leaves it too. -/
theorem TxnKeeps.fin {s t : State} (a : TxnKeeps s t) : TxnKeeps s (endCycle false t) :=
  by cases a; constructor <;> simp [*]

/-- The SENDs of a transaction back to back: where each starts, its wire, and where it leaves the next (R131). -/
theorem bytes_run {s p : State} {i : Instr} {r : PinRef} {N len : Nat} {after : SubOp}
    (hq : QuietFor N s) (hN : 1 + 10 * bp s * len ≤ N) (hp : cycles 1 s = .next p) (hd : decode p.cmd = .ok i)
        (hi : i ≠ .init)
    (hc : p.cycEn = true) (hs : p.sub = .sendStart) (hk : p.k = 0) (hlen : 0 < len) (hm : pinMode p r = modeOutPp)
        (ho : odrBit p r = true)
    (hall : ∀ k, k < len → ∃ b, txByte p k = some b)
    (hex0 : ∀ u : State, u.cfg = s.cfg → u.sub = .sendStart → exec i u = txnSendStart u r)
    (hex : ∀ u : State, u.cfg = s.cfg → u.sub = .sending → exec i u = .next (txnSend u r len after)) :
    ∀ k, k ≤ len → ∃ t, cycles (1 + 10 * bp s * k) s = .next t ∧ TxnKeeps p t ∧ t.k = k ∧ pinMode t r = modeOutPp ∧
        odrBit t r = true
      ∧ t.sub = (if k < len then .sendStart else after)
      ∧ (k < len → ∀ b, txByte p k = some b →
          (∀ n, 1 ≤ n → n < 10 * bp s → ∃ v, cycles (1 + 10 * bp s * k + n) s = .next v ∧ TxnKeeps p v ∧
              v.sub = .sending ∧ pinMode v r = modeOutPp
             ∧ odrBit v r = frameBit b ((n - 1) / bp s))
          ∧ ∃ v, cycles (1 + 10 * bp s * (k + 1)) s = .next v ∧ TxnKeeps p v ∧ v.k = k + 1 ∧
              pinMode v r = modeOutPp ∧ odrBit v r = true ∧ v.sub = (if k + 1 < len then .sendStart else after)) := by
  have hb1 : 1 ≤ bp s := s.cfg.bp_pos
  have hbl : 10 * bp s < 2 ^ 31 := s.cfg.bp_lt
  have one : ∀ k t, k < len → cycles (1 + 10 * bp s * k) s = .next t → TxnKeeps p t → t.k = k →
      pinMode t r = modeOutPp → t.sub = .sendStart → ∀ b, txByte p k = some b →
      (∀ n, 1 ≤ n → n < 10 * bp s → ∃ v, cycles (1 + 10 * bp s * k + n) s = .next v ∧ TxnKeeps p v ∧
          v.sub = .sending ∧ pinMode v r = modeOutPp
             ∧ odrBit v r = frameBit b ((n - 1) / bp s))
          ∧ ∃ v, cycles (1 + 10 * bp s * (k + 1)) s = .next v ∧ TxnKeeps p v ∧ v.k = k + 1 ∧
              pinMode v r = modeOutPp ∧ odrBit v r = true ∧ v.sub = (if k + 1 < len then .sendStart else after) := by
    intro k t hk ht hst htk htm hts b hb
    have hkb : 10 * bp s * (k + 1) ≤ 10 * bp s * len := Nat.mul_le_mul_left _ hk
    have hmul : 10 * bp s * (k + 1) = 10 * bp s * k + 10 * bp s := by rw [Nat.mul_add]; omega
    have hcfg := (cycles_clock ht).2.2
    have he : exec i { t with rdata := none } = .next (sendEnter { t with rdata := none } r b) := by
      rw [hex0 { t with rdata := none } hcfg hts]
      have : txByte { t with rdata := none }
          t.k = some b := by rw [htk]; unfold txByte; show Memory.read t.mem _ = _; rw [hst.mem]; exact hb
      unfold txnSendStart
      rw [show ({ t with rdata := none } : State).k = t.k from rfl, this]
    have hrun := run_succ (n := 1 + 10 * bp s * k) hq (by omega) ht (by simp [State.busy, hts])
        (by rw [hst.cmd]; exact hd) hi he
    have hse : TxnKeeps t (endCycle false (sendEnter { t with rdata := none } r b)) := TxnKeeps.fin ⟨rfl, rfl, rfl,
        rfl, rfl, rfl, rfl, rfl, rfl⟩
    have hmE : pinMode (endCycle false (sendEnter { t with rdata := none } r b)) r = modeOutPp := by
      rw [pinMode_congr (s := sendEnter { t with rdata := none } r b)
          (by simp)]; unfold sendEnter; rw [pinMode_drive]; exact htm
    have hcE : t.cycEn = true := hst.cycEn.trans hc
    obtain ⟨mid, tl, q1, q2, q3, q4, q5, q6, q7⟩ := send_run (a := 1 + 10 * bp s * k) (b := b) (r := r) (i := i)
      (last := fun u => { sendEdge u r with k := u.k + 1, sub := if u.k + 1 < len then .sendStart else after })
          hq (by omega) hrun (by rw [hse.cmd, hst.cmd]; exact hd) hi
      (by simp) (by
        have h0 : sinceT0 (sendEnter { t with rdata := none } r b) = 0 := since_zero rfl
        rw [since_end (by simpa using hcE) (by omega), h0]) (by simp)
            (by rw [odr_end]; unfold sendEnter; rw [odrBit_drive, if_pos rfl]) (by simpa using hcE) (by
          intro u hu hus
          rw [hex u hu hus]
          unfold txnSend
          cases sendEnds u <;> rfl)
    refine ⟨fun n h1 h2 => ?_, ?_⟩
    · obtain ⟨v, v1, v2, v3, v4, v5, v6, v7, -⟩ := mid n h1 h2
      exact ⟨v, v1, (hst.trans hse).trans v2.txn, v3, by rw [v7]; exact hmE, v6⟩
    · have hk' : tl.k = k := by rw [q1.k]; simp [htk]
      rw [show 1 + 10 * bp s * k + 10 * bp s = 1 + 10 * bp s * (k + 1) by omega] at q7
      refine ⟨_, q7, ?_, by simp [hk'], ?_, ?_, by simp [hk']⟩
      · refine ((hst.trans hse).trans q1.txn).trans ?_
        exact TxnKeeps.fin (by constructor <;> simp)
      · rw [pinMode_congr (s := sendEdge tl r) (by simp), pinMode_sendEdge, q5]; exact hmE
      · rw [odr_end]; exact q4
  intro k
  induction k with
  | zero =>
    intro _
    obtain ⟨b, hb⟩ := hall 0 hlen
    have := one 0 p hlen hp (TxnKeeps.refl _) hk hm hs
    exact ⟨p, hp, TxnKeeps.refl _, hk, hm, ho, by rw [if_pos hlen]; exact hs, fun _ => this⟩
  | succ k ih =>
    intro hk1
    obtain ⟨t, -, -, -, -, -, -, hnext⟩ := ih (by omega)
    obtain ⟨b, hb⟩ := hall k (by omega)
    obtain ⟨-, v, v1, v2, v3, v4, v5, v6⟩ := hnext (by omega) b hb
    exact ⟨v, v1, v2, v3, v4, v5, v6, fun hk2 => one (k + 1) v hk2 v1 v2 v3 v4 (by rw [v6, if_pos hk2])⟩

/-- GUARD_HOLD from its entry cycle to the retirement (R132). -/
theorem guard_run {s p : State} {i : Instr} {N a : Nat} {code : ErrCode}
    (hq : QuietFor N s) (hN : a + guardCycles s ≤ N) (hp : cycles a s = .next p) (hd : decode p.cmd = .ok i)
        (hi : i ≠ .init)
    (hc : p.cycEn = true) (hs : p.sub = .guardStart)
    (hex0 : ∀ u : State, u.cfg = s.cfg → u.tout = p.tout → u.sub = .guardStart →
        exec i u = .next (txnGuardStart u code))
    (hex : ∀ u : State, u.cfg = s.cfg → u.tout = p.tout → u.sub = .guarding → exec i u = .next (txnGuard u code)) :
    (∀ n, n < guardCycles s → ∃ t, cycles (a + n) s = .next t ∧ TxnKeeps p t ∧ t.ports = p.ports ∧ t.busy = true)
    ∧ ∃ t, cycles (a + guardCycles s) s = .next t ∧ Retired code t ∧ t.irqSuppress = false ∧ t.ports = p.ports ∧
        t.mem = p.mem ∧ t.result = p.result := by
  have hg := s.cfg.guard_pos
  have hgl : guardCycles s < 2 ^ 31 := s.cfg.guard_lt
  have hg' : 1 ≤ guardCycles s := hg
  -- one cycle on u with since x
  have one : ∀ n t u, cycles (a + n) s = .next t → TxnKeeps p t → t.ports = p.ports → t.busy = true →
      n < guardCycles s → u.sub = .guarding → sinceT0 u = n → TxnKeeps p u → u.ports = p.ports →
      exec i { t with rdata := none } = .next (txnGuard u code) →
      (n + 1 < guardCycles s → ∃ v, cycles (a + (n + 1)) s = .next v ∧ TxnKeeps p v ∧ v.ports = p.ports ∧
          v.sub = .guarding ∧ sinceT0 v = n + 1)
      ∧ (n + 1 = guardCycles s → ∃ t, cycles (a + guardCycles s) s = .next t ∧ Retired code t ∧
          t.irqSuppress = false ∧ t.ports = p.ports ∧ t.mem = p.mem ∧ t.result = p.result) := by
    intro n t u ht hst hpo hb hn hus hux hstu hpu he
    have hucfg : u.cfg = s.cfg := hstu.cfg.trans (cycles_clock hp).2.2
    have hgu : guardCycles u = guardCycles s := by unfold guardCycles; rw [hucfg]
    have hge := guard_ends (s := u) (by omega)
    rw [hux, hgu] at hge
    have hrun := run_succ (n := a + n) hq (by omega) ht hb (by rw [hst.cmd]; exact hd) hi he
    refine ⟨fun hlt => ?_, fun heq => ?_⟩
    · have hne : txnGuard u code = u := by unfold txnGuard; rw [if_neg (fun h => by have := hge.mp h; omega)]
      rw [hne] at hrun
      refine ⟨_, hrun, hstu.fin, by simp [hpu], by simp [hus], ?_⟩
      rw [since_end (hstu.cycEn.trans hc) (by omega), hux]
    · have hye : txnGuard u code = retire code { u with irqSuppress := false }
          := by unfold txnGuard; rw [if_pos (hge.mpr (by omega))]
      rw [hye] at hrun
      rw [← heq]
      exact ⟨_, hrun, ⟨by simp [State.busy, retire], by simp [retire]⟩, by simp [retire], by simp [retire, hpu],
          by simp [retire, hstu.mem], by simp [retire, hstu.result]⟩
  have first := one 0 p { p with rdata := none, t0 := p.cyccnt, sub := .guarding } hp (TxnKeeps.refl _)
      rfl (by simp [State.busy, hs]) (by omega) rfl (since_zero rfl) (by constructor <;> rfl) rfl
    (hex0 { p with rdata := none } (cycles_clock hp).2.2 rfl hs)
  have key : ∀ n, 1 ≤ n → n < guardCycles s → ∃ v, cycles (a + n) s = .next v ∧ TxnKeeps p v ∧ v.ports = p.ports ∧
      v.sub = .guarding ∧ sinceT0 v = n := by
    intro n hn
    induction n, hn using Nat.le_induction with
    | base => intro h; exact first.1 h
    | succ n hn ih =>
      intro h
      obtain ⟨v, v1, v2, v3, v4, v5⟩ := ih (by omega)
      exact (one n v { v with rdata := none }
          v1 v2 v3 (by simp [State.busy, v4]) (by omega) v4 v5 ⟨v2.1, v2.2, v2.3, v2.4, v2.5, v2.6, v2.7, v2.8,
          v2.9⟩ v3
        (hex { v with rdata := none } (v2.cfg.trans (cycles_clock hp).2.2) v2.tout v4)).1 h
  refine ⟨fun n hn => ?_, ?_⟩
  · rcases Nat.eq_zero_or_pos n with rfl | hpos
    · exact ⟨p, hp, TxnKeeps.refl _, rfl, by simp [State.busy, hs]⟩
    · obtain ⟨v, v1, v2, v3, v4, -⟩ := key n hpos hn
      exact ⟨v, v1, v2, v3, by simp [State.busy, v4]⟩
  · by_cases h1 : guardCycles s = 1
    · exact first.2 h1.symm
    · obtain ⟨v, v1, v2, v3, v4, v5⟩ := key (guardCycles s - 1) (by omega) (by omega)
      exact (one _ v { v with rdata := none }
          v1 v2 v3 (by simp [State.busy, v4]) (by omega) v4 v5 ⟨v2.1, v2.2, v2.3, v2.4, v2.5, v2.6, v2.7, v2.8,
          v2.9⟩ v3
        (hex { v with rdata := none } (v2.cfg.trans (cycles_clock hp).2.2) v2.tout v4)).2 (by omega)

/-- TX[k] depends on the buffer memory alone. -/
theorem fix_mem_txByte {p u : State} (h : p.mem = u.mem) (k) : txByte p k = txByte u k := by simp [txByte, h]

end Sys2Proof.Machine
end

