-- ==== Sys2Proof/Laws/Replies.lean ====
section
/-! SUPPORT. Transactions in parts: the entry cycle, the request of a read and the turn, one reply byte, the first bytes
of a reply, and the restore with the guard. -/

namespace Sys2Proof.Machine

/-- The pin of an axis in a later cycle. -/
theorem axisPin_later {s u : State} {axis : BitVec 4} {r : PinRef} (hr : axisPin s axis = some r) (h : u.cfg = s.cfg) :
    axisPin u axis = some r := (axisPin_congr h axis).trans hr

/-- The entry cycle of a transaction that passes its checks, over written bytes (R130). -/
theorem entry_run {s : State} {axis} {r} {i : Instr} {len N} (hi : (i = .wrtxn axis ∧ len = s.cfg.params.writeLen)
    ∨ (i = .rdtxn axis ∧ len = s.cfg.params.reqLen))
    (hs : s.sub = .entry) (hd : decode s.cmd = .ok i) (hr : axisPin s axis = some r) (hc : s.cycEn = true)
    (hall : ∀ k, k < len - 1 → (txByte s k).isSome = true) (hq : QuietFor N s) (hN : 0 < N) :
    ∃ p u, cycles 1 s = .next p ∧ fix s len = some u ∧ p.mem = u.mem ∧ p.cfg = s.cfg ∧ p.cmd = s.cmd ∧
        p.cycEn = true ∧ p.sub = .sendStart ∧ p.k = 0 ∧ pinMode p r = modeOutPp ∧ odrBit p r = true
      ∧ p.irqSuppress = true ∧ p.err = s.err ∧ p.result = s.result ∧ (i = .rdtxn axis → p.tout = false) ∧
          line p r = true := by
  have hall' : ∀ k, k < len - 1 → (txByte { s with rdata := none } k).isSome = true := hall
  obtain ⟨u, hu⟩ := Option.isSome_iff_exists.mp (fix_isSome.mpr hall)
  have hfr := fix_frame hu
  have hfx : ∀ t d, fix { s with rdata := d, tout := t } len = some { u with rdata := d, tout := t } := by
    intro t d
    unfold fix at hu ⊢
    have h : fixedBytes { s with rdata := d, tout := t } (len - 1) = fixedBytes s (len - 1) := rfl
    rw [h]
    split at hu
    · cases hu
    · rename_i l hl
      cases hu; rfl
  have hfin : ∀ v : State, (∃ t, v =
      { makeOutHigh { u with rdata := none, tout := t } r with irqSuppress := true, k := 0, sub := .sendStart }
        ∧ (i = .rdtxn axis → t = false)) → exec i { s with rdata := none } = .next v →
      ∃ p, cycles 1 s = .next p ∧ p.mem = u.mem ∧ p.cfg = s.cfg ∧ p.cmd = s.cmd ∧ p.cycEn = true ∧
          p.sub = .sendStart ∧ p.k = 0 ∧ pinMode p r = modeOutPp ∧ odrBit p r = true
      ∧ p.irqSuppress = true ∧ p.err = s.err ∧ p.result = s.result ∧ (i = .rdtxn axis → p.tout = false) ∧
          line p r = true := by
    rintro v ⟨t, rfl, htt⟩ he
    have hrun := run_succ (n := 0) hq hN rfl (by simp [State.busy, hs])
        hd (by rcases hi with ⟨rfl, -⟩ | ⟨rfl, -⟩ <;> simp) he
    have m1 : pinMode (endCycle false
        { makeOutHigh { u with rdata := none, tout := t } r with irqSuppress := true, k := 0, sub := .sendStart })
        r = modeOutPp := by
      rw [pinMode_congr (s := makeOutHigh { u with rdata := none, tout := t } r) (by simp), pinMode_makeOutHigh,
          if_pos rfl]
    have o1 : odrBit (endCycle false
        { makeOutHigh { u with rdata := none, tout := t } r with irqSuppress := true, k := 0, sub := .sendStart })
        r = true := by
      rw [odr_end]
      have : odrBit (makeOutHigh { u with rdata := none, tout := t } r) r = true := by rw [odrBit_makeOutHigh,
          if_pos rfl]
      exact this
    refine ⟨_, hrun, by simp, ?_, ?_, ?_, by simp, by simp, m1, o1, by simp, ?_, ?_, fun h => by simp [htt h],
        (line_of_outPp m1).trans o1⟩
    · simp; rw [hfr]
    · simp; rw [hfr]
    · simp; rw [hfr]; exact hc
    · simp; rw [hfr]
    · simp; rw [hfr]
  have hex : ∃ v, (∃ t, v =
      { makeOutHigh { u with rdata := none, tout := t } r with irqSuppress := true, k := 0, sub := .sendStart }
        ∧ (i = .rdtxn axis → t = false)) ∧ exec i { s with rdata := none } = .next v := by
    rcases hi with ⟨rfl, rfl⟩ | ⟨rfl, rfl⟩
    · refine ⟨_, ⟨s.tout, rfl, fun h => by cases h⟩, ?_⟩
      rw [execWrtxn_entry (s := { s with rdata := none }) hr hs hc]
      unfold txnSetup
      have := hfx s.tout none
      rw [show ({ s with rdata := none, tout := s.tout } : State) = { s with rdata := none } from rfl] at this
      rw [this]
    · refine ⟨_, ⟨false, rfl, fun _ => rfl⟩, ?_⟩
      rw [execRdtxn_entry (s := { s with rdata := none }) hr hs hc]
      unfold txnSetup
      have := hfx false none
      rw [this]
  obtain ⟨v, h1, h2⟩ := hex
  obtain ⟨p, hp, rest⟩ := hfin v h1 h2
  exact ⟨p, u, hp, hu, rest⟩

/-- The request of a read transaction and the turn: the pin floats and RECV 0 enters (R131, R133, R134). -/
theorem request_run {s : State} {axis r N} (hs : s.sub = .entry) (hd : decode s.cmd = .ok (.rdtxn axis))
    (hr : axisPin s axis = some r) (hc : s.cycEn = true)
   (hall : ∀ k, k < s.cfg.params.reqLen - 1 → (txByte s k).isSome = true)
       (hq : QuietFor N s) (hN : 2 + 10 * bp s * s.cfg.params.reqLen ≤ N) :
   (∀ n, 1 ≤ n → n < 2 + 10 * bp s * s.cfg.params.reqLen → ∃ t, cycles n s = .next t ∧ t.busy = true ∧
       t.irqSuppress = true)
   ∧ ∃ q, cycles (2 + 10 * bp s * s.cfg.params.reqLen) s = .next q ∧ q.sub = .poll ∧ q.j = 0 ∧ q.k = 0 ∧
       pinMode q r = modeInFloat ∧ q.cycEn = true ∧ q.cmd = s.cmd
      ∧ q.irqSuppress = true ∧ q.result = s.result ∧ q.tout = false ∧ (∀ k, k < 8 → rxByte q k = rxByte s k) := by
  have hb1 : 1 ≤ bp s := s.cfg.bp_pos
  have hlay := s.cfg.layout
  have hrt := s.cfg.rxTimeout_pos
  have hrep := s.cfg.reply
  obtain ⟨p, u, hp, hu, pm, pcfg, pcmd, pcy, psub, pk, pmode, podr, pirq, perr, pres, ptout,
      -⟩ := entry_run (i := .rdtxn axis) (.inr ⟨rfl, rfl⟩) hs hd hr hc hall hq (by omega)
  have ax : ∀ u : State, u.cfg = s.cfg → axisPin u axis = some r := fun u h => axisPin_later hr h
  have run := bytes_run (i := .rdtxn axis) (r := r) (len := s.cfg.params.reqLen) (after := .turn) hq (by omega)
      hp (by rw [pcmd]; exact hd) (by simp) pcy psub pk (by omega) pmode podr
    (fun k hk => by
      have := fix_all hu k hk
      rw [fix_mem_txByte pm]; exact Option.isSome_iff_exists.mp this)
    (fun u h1 h2 => execRdtxn_sendStart (ax u h1) h2)
    (fun u h1 h2 => by rw [execRdtxn_sending (ax u h1) h2, h1])
  obtain ⟨g, hg, gst, gk, gm, go, gsub, -⟩ := run _ (Nat.le_refl _)
  rw [if_neg (by omega)] at gsub
  have gcfg := (cycles_clock hg).2.2
  -- turn
  have hturn := run_succ (n := 1 + 10 * bp s * s.cfg.params.reqLen) hq (by omega) hg (by simp [State.busy, gsub])
      (by rw [gst.cmd, pcmd]; exact hd) (by simp)
    (execRdtxn_turn (s := { g with rdata := none }) (ax _ gcfg) gsub)
  obtain ⟨q, hqd⟩ : ∃ q, q = endCycle false (txnTurn { g with rdata := none } r) := ⟨_, rfl⟩
  rw [← hqd] at hturn
  have qst : TxnKeeps g q := by rw [hqd]; exact TxnKeeps.fin (by constructor <;> rfl)
  have qsub : q.sub = .poll := by rw [hqd]; simp [txnTurn]
  have qj : q.j = 0 := by rw [hqd]; simp [txnTurn]
  have qm : pinMode q r = modeInFloat := by
    rw [hqd, pinMode_congr (s := makeInFloat { g with rdata := none } r) (by simp [txnTurn]), pinMode_makeInFloat,
        if_pos rfl]
  have qcy : q.cycEn = true := qst.cycEn.trans (gst.cycEn.trans pcy)
  have qcmd : q.cmd = s.cmd := qst.cmd.trans (gst.cmd.trans pcmd)
  have qcfg := (cycles_clock hturn).2.2
  rw [show 1 + 10 * bp s * s.cfg.params.reqLen + 1 = 2 + 10 * bp s * s.cfg.params.reqLen by omega] at hturn

  refine ⟨fun n h1 h2 => ?_, q, hturn, qsub, qj, by rw [hqd]; simp [txnTurn], qm, qcy, qcmd,
      qst.irq.trans (gst.irq.trans pirq), qst.result.trans (gst.result.trans pres),
      qst.tout.trans (gst.tout.trans (ptout rfl)), fun k hk => ?_⟩
  · by_cases hn : n < 1 + 10 * bp s * s.cfg.params.reqLen
    · have hkl : (n - 1) / (10 * bp s) < s.cfg.params.reqLen := by
        rw [Nat.div_lt_iff_lt_mul (by omega), Nat.mul_comm]; omega
      obtain ⟨t, t1, t2, t3, t4, t5, t6, t7⟩ := run ((n - 1) / (10 * bp s)) (by omega)
      have hdm := Nat.div_add_mod (n - 1) (10 * bp s)
      have hml := Nat.mod_lt (n - 1) (show 0 < 10 * bp s by omega)
      by_cases h0 : (n - 1) % (10 * bp s) = 0
      · have : 1 + 10 * bp s * ((n - 1) / (10 * bp s)) = n := by omega
        rw [this] at t1
        rw [if_pos hkl] at t6
        exact ⟨t, t1, by simp [State.busy, t6], t2.irq.trans pirq⟩
      · obtain ⟨b, hb⟩ : ∃ b, txByte p ((n - 1) / (10 * bp s)) = some b := by
          rw [fix_mem_txByte pm]; exact Option.isSome_iff_exists.mp (fix_all hu _ hkl)
        obtain ⟨v, v1, v2, v3, -⟩ := (t7 hkl b hb).1 ((n - 1) % (10 * bp s)) (by omega) hml
        have : 1 + 10 * bp s * ((n - 1) / (10 * bp s)) + (n - 1) % (10 * bp s) = n := by omega
        rw [this] at v1
        exact ⟨v, v1, by simp [State.busy, v3], v2.irq.trans pirq⟩
    · have : n = 1 + 10 * bp s * s.cfg.params.reqLen := by omega
      subst this; exact ⟨g, hg, by simp [State.busy, gsub], gst.irq.trans pirq⟩
  · unfold rxByte
    rw [qst.mem, gst.mem, pm]
    exact fix_read_ne hu (by unfold rxBase txBase; omega) (by unfold rxBase txBase; omega)

/-- One reply byte: from the entry of its RECV to the entry of what follows (R134). -/
theorem reply_one {s q : State} {axis r N} {a g K : Nat} {b : Byte} (hr : axisPin s axis = some r)
    (hd : decode s.cmd = .ok (.rdtxn axis))
    (hq : QuietFor N s) (hN : a + g + 9 * bp s + 2 * half s ≤ N) (ha : cycles a s = .next q) (hsub : q.sub = .poll)
        (hj : q.j = 0) (hk : q.k = K) (hm : pinMode q r = modeInFloat)
    (hc : q.cycEn = true) (hcmd : q.cmd = s.cmd) (hg : g < s.cfg.params.rxTimeout) (h1 : ∀ m, m < g →
        envLater s (a + m) r = true)
    (h2 : ∀ m c, m < 9 → c < bp s → envLater s (a + g + m * bp s + c) r = frameBit b m) :
    (∀ n, n < g + 9 * bp s + 2 * half s → ∃ t, cycles (a + n) s = .next t ∧ t.busy = true ∧
        t.irqSuppress = q.irqSuppress)
    ∧ ∃ t, cycles (a + g + 9 * bp s + 2 * half s) s = .next t ∧ t.k = K + 1 ∧
        t.sub = (if K + 1 < s.cfg.params.replyLen then .poll else .restore) ∧ (K + 1 < s.cfg.params.replyLen →
        t.j = 0) ∧ pinMode t r = modeInFloat
      ∧ t.cycEn = true ∧ t.cmd = s.cmd ∧ t.irqSuppress = q.irqSuppress ∧ t.result = q.result ∧ t.tout = q.tout ∧
          t.mem = Memory.write q.mem (rxBase + K) b := by
  have hb1 : 1 ≤ bp s := s.cfg.bp_pos
  have hhl : half s < bp s := s.cfg.half_lt
  have ax : ∀ u : State, u.cfg = s.cfg → axisPin u axis = some r := fun u h => axisPin_later hr h
  have qcfg := (cycles_clock ha).2.2
  have prun := poll_run (s := s) (p := q) (i := .rdtxn axis) (r := r) (a := a) (u := g) (deliver := txnDeliver)
      (fun _ => rfl)
    hq (by omega) hg ha (by simp [State.busy, hsub]) (by rw [hcmd]; exact hd) (by simp)
    (fun d => by
      have e : ({ q with rdata := d, j := 0, sub := .poll } : State) = { q with rdata := d } := by rw [← hj, ← hsub]
      rw [e]; exact execRdtxn_poll (s := { q with rdata := d }) (ax _ qcfg) hsub)
    (fun u h1 hu => execRdtxn_poll (ax u h1) hu) (fun m t hmg ht hpo => (line_floats hm ht hpo).trans (h1 m hmg))
  obtain ⟨t, ht, htr, hpo, htb, -, -, -, hext⟩ := prun g (Nat.le_refl _)
  have hl : line t r = false := by
    rw [line_floats hm ht hpo]
    have := h2 0 0 (by omega) (by omega)
    simpa [frameBit] using this
  obtain ⟨w, hw⟩ : ∃ w : State, w = { t with rdata := none, j := g, sub := .poll } := ⟨_, rfl⟩
  have hrp : recvPoll w r = ({ w with t0 := w.cyccnt, sub := .data }, .running) := by
    rcases recvPoll_cases w r with ⟨-, h⟩ | ⟨h, -⟩ | ⟨h, -⟩
    · exact h
    · rw [show line w r = false by rw [hw]; exact hl] at h; cases h
    · rw [show line w r = false by rw [hw]; exact hl] at h; cases h
  rw [← hw, hrp] at hext
  have hrun := run_succ (n := a + g) hq (by omega) ht htb (by rw [htr.cmd, hcmd]; exact hd) (by simp) hext
  have hrest : CharKeeps q (txnDeliver ({ w with t0 := w.cyccnt, sub := .data }, .running)) := by
    refine htr.trans ?_
    rw [hw]; constructor <;> rfl
  have hwc : w.cycEn = true := by rw [hw]; exact htr.cycEn.trans hc
  have hwp : w.ports = q.ports := by rw [hw]; exact hpo
  obtain ⟨mid, tl, q1, q2, q3, q4⟩ := data_run (b := a + g) (r := r) (i := .rdtxn axis) (deliver := txnDeliver)
      (fun _ => rfl) hq (by omega) hrun
    (by rw [hrest.fin.cmd, hcmd]; exact hd) (by simp) (by simp [txnDeliver]) (by
      rw [since_end]
      · rw [since_zero rfl]
      · exact hwc
      · rw [since_zero rfl]; omega) (by rw [pinMode_congr (s := q) (by simp [txnDeliver, hwp])]; exact hm)
            (by simp [txnDeliver, hwc]) (fun u h1 hu => execRdtxn_data (ax u h1) hu)
  have hqr := hrest.fin.trans q1
  refine ⟨fun n hn => ?_, ?_⟩
  · by_cases hng : n ≤ g
    · obtain ⟨v, v1, v2, v3, v4, -⟩ := prun n hng
      exact ⟨v, v1, v4, v2.irq⟩
    · obtain ⟨v, v1, v2, v3, v4, -⟩ := mid (n - g) (by omega) (by omega)
      rw [show a + g + (n - g) = a + n by omega] at v1
      exact ⟨v, v1, by simp [State.busy, v4], (hrest.fin.trans v2).irq⟩
  · have hsh : tl.sh = b := by
      apply BitVec.eq_of_getLsbD_eq
      intro z hz
      rw [q3 z hz]
      have := h2 (z + 1) (half s) (by omega) hhl
      rw [show a + g + (bp s + half s + z * bp s) = a + g + (z + 1) * bp s + half s by rw [Nat.add_mul]; omega, this]
      simp [frameBit, show z + 1 ≤ 8 by omega]
    have hcfgt : tl.cfg = s.cfg := hqr.cfg.trans qcfg
    have hkt : tl.k = K := hqr.k.trans hk
    have hports : tl.ports = q.ports := by rw [q2]; simp [txnDeliver, hwp]
    refine ⟨_, q4, ?_⟩
    rw [hsh]
    simp only [txnDeliver, hkt, hcfgt]
    have hmo : ∀ v : State, v.ports = q.ports →
        pinMode v r = modeInFloat := fun v h => by rw [pinMode_congr h]; exact hm
    split
    · refine ⟨by simp, by simp, fun _ => by simp, hmo _ (by simp [hports]), by simp [hqr.cycEn, hc],
          by simp [hqr.cmd, hcmd], by simp [hqr.irq], by simp [hqr.result], by simp [hqr.tout], by simp [hqr.mem]⟩
    · refine ⟨by simp, by simp, fun h => absurd h ‹_›, hmo _ (by simp [hports]), by simp [hqr.cycEn, hc],
          by simp [hqr.cmd, hcmd], by simp [hqr.irq], by simp [hqr.result], by simp [hqr.tout], by simp [hqr.mem]⟩

/-- The entry of RECV k of a read transaction begun in `s`, or of RESTORE behind the last byte: the bytes before are
stored and nothing else has changed that the host can see (R134). -/
structure AtReply (s t : State) (r : PinRef) (b : Nat → Byte) (k : Nat) : Prop where
  count : t.k = k
  sub : t.sub = if k < s.cfg.params.replyLen then .poll else .restore
  j : k < s.cfg.params.replyLen → t.j = 0
  mode : pinMode t r = modeInFloat
  cycEn : t.cycEn = true
  cmd : t.cmd = s.cmd
  irq : t.irqSuppress = true
  result : t.result = s.result
  tout : t.tout = false
  rx : ∀ x, x < 8 → rxByte t x = if x < k then some (b x) else rxByte s x

/-- RECV k + 1 enters after RECV k. -/
theorem replyEntry_mono (s : State) (gap : Nat → Nat) {k l : Nat} (h : k ≤ l) : replyEntry s gap k ≤ replyEntry s gap l := by
  induction l, h using Nat.le_induction with
  | base => exact Nat.le_refl _
  | succ l _ ih => exact Nat.le_trans ih (by simp only [replyEntry]; omega)

/-- The first `k` bytes of a reply, one after the other (R129, R134). -/
theorem replies_run {s : State} {axis : BitVec 4} {r : PinRef} {gap : Nat → Nat} {b : Nat → Byte} {N : Nat}
    (hs : s.sub = .entry) (hd : decode s.cmd = .ok (.rdtxn axis)) (hr : axisPin s axis = some r) (hc : s.cycEn = true)
    (hall : ∀ k, k < s.cfg.params.reqLen - 1 → (txByte s k).isSome = true) (hq : QuietFor N s) :
    ∀ k, k ≤ s.cfg.params.replyLen → replyEntry s gap k ≤ N → (∀ x, x < k → ByteArrives s r gap x (b x)) →
      (∀ n, 1 ≤ n → n < replyEntry s gap k → ∃ t, cycles n s = .next t ∧ t.busy = true ∧ t.irqSuppress = true)
        ∧ ∃ t, cycles (replyEntry s gap k) s = .next t ∧ AtReply s t r b k := by
  have hrep := s.cfg.reply
  intro k
  induction k with
  | zero =>
    intro _ hN _
    obtain ⟨rq, q, q1, qsub, qj, qk, qm, qc, qcmd, qirq, qres, qt, qrx⟩ := request_run hs hd hr hc hall hq hN
    refine ⟨rq, q, q1, qk, ?_, fun _ => qj, qm, qc, qcmd, qirq, qres, qt, fun x hx => by simp [qrx x hx]⟩
    rw [if_pos (by omega)]; exact qsub
  | succ k ih =>
    intro hk hN ha
    have hstep : replyEntry s gap (k + 1) = replyEntry s gap k + gap k + 9 * bp s + 2 * half s := rfl
    obtain ⟨m1, t, t1, at1⟩ := ih (by omega) (by omega) (fun x hx => ha x (by omega))
    obtain ⟨e1, e2, e3⟩ := ha k (by omega)
    have tsub := at1.sub
    rw [if_pos (by omega)] at tsub
    obtain ⟨o1, v, v1, v2, v3, v4, v5, v6, v7, v8, v9, v10, v11⟩ := reply_one (b := b k) hr hd hq (by omega) t1 tsub
      (at1.j (by omega)) at1.count at1.mode at1.cycEn at1.cmd e1 e2 e3
    refine ⟨fun n h1 h2 => ?_, v, v1, v2, v3, v4, v5, v6, v7, v8.trans at1.irq, v9.trans at1.result,
      v10.trans at1.tout, fun x hx => ?_⟩
    · by_cases hn : n < replyEntry s gap k
      · exact m1 n h1 hn
      · obtain ⟨w, w1, w2, w3⟩ := o1 (n - replyEntry s gap k) (by omega)
        rw [show replyEntry s gap k + (n - replyEntry s gap k) = n by omega] at w1
        exact ⟨w, w1, w2, w3.trans at1.irq⟩
    · have := at1.rx x hx
      unfold rxByte at this ⊢
      rw [v11, Memory.read_write, this]
      by_cases hxk : x = k
      · subst hxk; rw [if_pos rfl, if_pos (by omega)]
      · rw [if_neg (by omega)]; exact if_congr (by omega) rfl rfl

/-- A RECV of a read transaction whose every poll reads 1: the failure field is written and RESTORE enters (R112,
R135). -/
theorem reply_timeout {s q : State} {axis : BitVec 4} {r : PinRef} {N a : Nat} (hr : axisPin s axis = some r)
    (hd : decode s.cmd = .ok (.rdtxn axis)) (hq : QuietFor N s) (hN : a + s.cfg.params.rxTimeout ≤ N)
    (ha : cycles a s = .next q) (hsub : q.sub = .poll) (hj : q.j = 0) (hm : pinMode q r = modeInFloat)
    (hc : q.cycEn = true) (hcmd : q.cmd = s.cmd)
    (h1 : ∀ m, m < s.cfg.params.rxTimeout → envLater s (a + m) r = true) :
    (∀ n, n < s.cfg.params.rxTimeout → ∃ t, cycles (a + n) s = .next t ∧ t.busy = true
        ∧ t.irqSuppress = q.irqSuppress)
      ∧ ∃ t, cycles (a + s.cfg.params.rxTimeout) s = .next t ∧ t.sub = .restore ∧ t.tout = true ∧ t.cycEn = true
        ∧ t.cmd = s.cmd ∧ t.irqSuppress = q.irqSuppress ∧ t.result = q.result
        ∧ ∀ c, Memory.read t.mem c =
            if rxBase + s.cfg.params.failOff ≤ c ∧ c < rxBase + s.cfg.params.failOff + s.cfg.params.failLen
            then some 0xFF else Memory.read q.mem c := by
  have hrt := s.cfg.rxTimeout_pos
  have qcfg := (cycles_clock ha).2.2
  have prun := poll_run (s := s) (p := q) (i := .rdtxn axis) (r := r) (a := a) (u := s.cfg.params.rxTimeout - 1)
    (deliver := txnDeliver) (fun _ => rfl) hq (by omega) (by omega) ha (by simp [State.busy, hsub])
    (by rw [hcmd]; exact hd) (by simp)
    (fun d => by
      have e : ({ q with rdata := d, j := 0, sub := .poll } : State) = { q with rdata := d } := by rw [← hj, ← hsub]
      rw [e]; exact execRdtxn_poll (s := { q with rdata := d }) (axisPin_later hr qcfg) hsub)
    (fun u h1 hu => execRdtxn_poll (axisPin_later hr h1) hu)
    (fun m t hmg ht hpo => (line_floats hm ht hpo).trans (h1 m (by omega)))
  obtain ⟨t, ht, htr, hpo, htb, -, -, -, hext⟩ := prun (s.cfg.params.rxTimeout - 1) (Nat.le_refl _)
  have tcfg := (cycles_clock ht).2.2
  have tl : line t r = true := (line_floats hm ht hpo).trans (h1 _ (by omega))
  obtain ⟨w, hw⟩ : ∃ w : State, w = { t with rdata := none, j := s.cfg.params.rxTimeout - 1, sub := .poll } := ⟨_, rfl⟩
  have hrp : recvPoll w r = (w, .timeout) := by
    rcases recvPoll_cases w r with ⟨h, -⟩ | ⟨-, h, -⟩ | ⟨-, -, h⟩
    · rw [show line w r = true by rw [hw]; exact tl] at h; cases h
    · rw [hw] at h; simp at h; rw [tcfg] at h; omega
    · exact h
  rw [← hw, hrp] at hext
  have htime := run_succ (n := a + (s.cfg.params.rxTimeout - 1)) hq (by omega) ht htb (by rw [htr.cmd, hcmd]; exact hd)
    (by simp) hext
  rw [show a + (s.cfg.params.rxTimeout - 1) + 1 = a + s.cfg.params.rxTimeout by omega] at htime
  have hwq : CharKeeps q w := htr.trans (by rw [hw]; constructor <;> rfl)
  refine ⟨fun n hn => ?_, _, htime, by simp [txnDeliver], by simp [txnDeliver], ?_, ?_, ?_, ?_, fun c => ?_⟩
  · obtain ⟨v, v1, v2, v3, v4, -⟩ := prun n (by omega)
    exact ⟨v, v1, v4, v2.irq⟩
  · simp [txnDeliver, hwq.cycEn, hc]
  · simp [txnDeliver, hwq.cmd, hcmd]
  · simp [txnDeliver, hwq.irq]
  · simp [txnDeliver, hwq.result]
  · have hm : (endCycle false (txnDeliver (w, .timeout))).mem = (failField w).mem := by simp [txnDeliver]
    rw [hm, failField_read, hwq.mem, hwq.cfg, qcfg]

/-- RESTORE and the guard of a read transaction (R129, R132, R136, R138). -/
theorem restore_run {s x : State} {axis : BitVec 4} {r : PinRef} {N a : Nat} (hr : axisPin s axis = some r)
    (hd : decode s.cmd = .ok (.rdtxn axis)) (hq : QuietFor N s) (hN : a + 1 + guardCycles s ≤ N)
    (ha : cycles a s = .next x) (hsub : x.sub = .restore) (hc : x.cycEn = true) (hcmd : x.cmd = s.cmd) :
    (∀ n, n < 1 + guardCycles s → ∃ t, cycles (a + n) s = .next t ∧ t.busy = true ∧ t.irqSuppress = x.irqSuppress)
      ∧ ∃ z, cycles (a + 1 + guardCycles s) s = .next z ∧ Retired (readCode x) z ∧ z.irqSuppress = false
        ∧ pinMode z r = modeOutPp ∧ odrBit z r = true ∧ z.result = x.result ∧ z.mem = x.mem := by
  have xcfg := (cycles_clock ha).2.2
  have hres := run_succ (n := a) hq (by omega) ha (by simp [State.busy, hsub]) (by rw [hcmd]; exact hd) (by simp)
    (execRdtxn_restore (s := { x with rdata := none }) (axisPin_later hr xcfg) hsub)
  obtain ⟨y, hy⟩ : ∃ y, y = endCycle false (txnRestore { x with rdata := none } r) := ⟨_, rfl⟩
  rw [← hy] at hres
  have yst : TxnKeeps x y := by rw [hy]; exact TxnKeeps.fin (by constructor <;> rfl)
  have ysub : y.sub = .guardStart := by rw [hy]; simp [txnRestore]
  have ym : pinMode y r = modeOutPp := by
    rw [hy, pinMode_congr (s := makeOutHigh { x with rdata := none } r) (by simp [txnRestore]), pinMode_makeOutHigh,
      if_pos rfl]
  have yo : odrBit y r = true := by
    rw [hy, odr_end]
    have : odrBit (makeOutHigh { x with rdata := none } r) r = true := by rw [odrBit_makeOutHigh, if_pos rfl]
    exact this
  have code : ∀ u : State, u.tout = y.tout → readCode u = readCode x := fun u h => by
    simp only [readCode, h, yst.tout]
  obtain ⟨gmid, z, z1, z2, z3, z4, z5, z6⟩ := guard_run (i := .rdtxn axis) (code := readCode x) hq (by omega) hres
    (by rw [yst.cmd, hcmd]; exact hd) (by simp) (yst.cycEn.trans hc) ysub
    (fun u h1 h3 h2 => by rw [execRdtxn_guardStart (axisPin_later hr h1) h2, code u h3])
    (fun u h1 h3 h2 => by rw [execRdtxn_guarding (axisPin_later hr h1) h2, code u h3])
  refine ⟨fun n hn => ?_, z, z1, z2, z3, (pinMode_congr z4 r).trans ym, (odrBit_congr z4 r).trans yo,
    z6.trans yst.result, z5.trans yst.mem⟩
  rcases Nat.eq_zero_or_pos n with rfl | hpos
  · exact ⟨x, ha, by simp [State.busy, hsub], rfl⟩
  · obtain ⟨v, v1, v2, v3, v4⟩ := gmid (n - 1) (by omega)
    rw [show a + 1 + (n - 1) = a + n by omega] at v1
    exact ⟨v, v1, v4, v2.irq.trans yst.irq⟩

end Sys2Proof.Machine
end

