-- ==== Sys2Proof/Tests/Slice0.lean ====
section
/-! SUPPORT. Tests of the model against the worked examples and vectors of spec/ (95_test_vectors.md unless a comment
names another file), and a witness of the hypotheses of each obligation that has any. -/

namespace Sys2Proof.Tests

open Sys2Proof.Machine

/-! ## Small states -/

/-- One cycle without RESET: its host access, and the level of every floating pin. -/
def cyc (a : Option HostAccess) (e : Bool) : CycleInput :=
  { reset := false, access := a, env := Vector.replicate 8 (if e then 0xFFFF else 0) }

/-- Configuration T after INIT, in the entry cycle of the command `w`, ENV 1, no host access. -/
def entered (w : Word) : State :=
  { State.reset with cmd := w, sub := .entry, cycEn := true, cyccnt := 1000, inputs := [cyc none true] }

/-- As `entered`, before INIT. -/
def enteredCold (w : Word) : State := { entered w with cycEn := false }

/-- The machine after reset, in a cycle with a host access, ENV 1. -/
def hosted (a : HostAccess) : State := { State.reset with inputs := [cyc (some a) true] }

/-- A WAIT of ARG cycles under way, in a cycle with a host access. -/
def hostedBusy (a : HostAccess) : State :=
  { State.reset with
    cmd := 4, arg := 100, sub := .waiting, cycEn := true, cyccnt := 5, t0 := 1, inputs := [cyc (some a) true] }

/-- The host's write in `hosted` is one to the register at its offset. -/
theorem hosted_writes {off : Nat} {r : Reg} {v : Word} (h : target State.reset.cfg off 4 = .reg r) :
    HostWrites (hosted (.write off 4 v)) r v := ⟨rfl, off, rfl, h⟩

/-- The host's write in `hostedBusy` is one to the register at its offset. -/
theorem busy_writes {off : Nat} {r : Reg} {v : Word} (h : target State.reset.cfg off 4 = .reg r) :
    HostWrites (hostedBusy (.write off 4 v)) r v := ⟨rfl, off, rfl, h⟩

/-- TX[0..7], little by little from index 0. -/
def txCells (bs : List Byte) : List Host.Cell := bs.mapIdx fun k b => (0x020 + k, b)

/-- A field of the next state, none after a fault or a refusal. -/
def got {α : Type} (o : Host.Outcome State Fault Refusal) (f : State → α) : Option α :=
  match o with
  | .next t => some (f t)
  | .fault _ => none
  | .refused _ => none

/-- The fault a step ends in, none if it has a next state. -/
def faultOf (o : Host.Outcome State Fault Refusal) : Option Fault :=
  match o with
  | .next _ => none
  | .fault f => some f
  | .refused _ => none

/-- Pin p0.5, the pin of axis X. -/
def p05 : PinRef := ⟨0, 5⟩

/-- The state with pin p0.5 an output at 1. -/
def outHigh (s : State) : State := makeOutHigh s p05

/-! ## Well-formedness: one ill-formed term per check (R67, R69; vectors DE11, DE13, DE23) -/

theorem test_wf_accepts : (Instr.setmode 1 5 0x3).wellFormed 2 = true ∧ (Instr.wrtxn 15).wellFormed 2 = true := by
  decide

theorem test_wf_setmode_mode : (Instr.setmode 0 5 0x5).wellFormed 2 = false := by decide

theorem test_wf_setmode_port : (Instr.setmode 2 5 0x3).wellFormed 2 = false := by decide

theorem test_wf_setlvl_port : (Instr.setlvl 2 5 true).wellFormed 2 = false := by decide

theorem test_wf_getlvl_port : (Instr.getlvl 3 0).wellFormed 2 = false := by decide

theorem test_wf_sendb_port : (Instr.sendb 7 15).wellFormed 2 = false := by decide

theorem test_wf_recvb_port : (Instr.recvb 2 0).wellFormed 2 = false := by decide

/-! ## Decoding: a word per constructor, written out from the bit patterns of R73 -/

theorem test_decode_nop : decode 0b00000000000000000000000000000000#32 = .ok .nop := by decide

theorem test_decode_init : decode 0b00000000000000000000000000000001#32 = .ok .init := by decide

theorem test_decode_now : decode 0b00000000000000000000000000000010#32 = .ok .now := by decide

theorem test_decode_elapsed : decode 0b00000000000000000000000000000011#32 = .ok .elapsed := by decide

theorem test_decode_wait : decode 0b00000000000000000000000000000100#32 = .ok .wait := by decide

-- mmmm = 0100, ppp = 001, iiii = 1001
theorem test_decode_setmode : decode 0b00000000010000000001100100010000#32 = .ok (.setmode 1 9 0x4) := by decide

-- l = 1, ppp = 001, iiii = 1001
theorem test_decode_setlvl : decode 0b00000001000000000001100100010001#32 = .ok (.setlvl 1 9 true) := by decide

-- ppp = 110, iiii = 0101
theorem test_decode_getlvl : decode 0b00000000000000000110010100010010#32 = .ok (.getlvl 6 5) := by decide

theorem test_decode_sendb : decode 0b00000000000000000110010100100000#32 = .ok (.sendb 6 5) := by decide

theorem test_decode_recvb : decode 0b00000000000000000110010100100001#32 = .ok (.recvb 6 5) := by decide

theorem test_decode_framew : decode 0b00000000000000000000000000110000#32 = .ok .framew := by decide

theorem test_decode_framer : decode 0b00000000000000000000000000110001#32 = .ok .framer := by decide

-- aaaa = 1101
theorem test_decode_wrtxn : decode 0b00000000000011010000000001000000#32 = .ok (.wrtxn 13) := by decide

theorem test_decode_rdtxn : decode 0b00000000000011010000000001000001#32 = .ok (.rdtxn 13) := by decide

-- the illegal words of section 3 that no row matches (DE3, DE4, DE7, DE8, DE15, DE16, DE19, DE21, DE25, DE28)
theorem test_decode_illegal :
    decode 0x00000101 = .error .reservedBits ∧ decode 0x80000002 = .error .reservedBits
      ∧ decode 0x00000005 = .error .reservedOpcode ∧ decode 0x0000000F = .error .reservedOpcode
      ∧ decode 0x00308510 = .error .reservedBits ∧ decode 0x01000510 = .error .reservedBits
      ∧ decode 0x02001911 = .error .reservedBits ∧ decode 0x00100512 = .error .reservedBits
      ∧ decode 0x00010521 = .error .reservedBits ∧ decode 0x00001030 = .error .reservedBits := by
  decide

-- DE33, DE34, DE35, DE39, DE40, DE41, DE42
theorem test_decode_illegal_more :
    decode 0x00028040 = .error .reservedBits ∧ decode 0x00001040 = .error .reservedBits
      ∧ decode 0x00100040 = .error .reservedBits ∧ decode 0x00000042 = .error .reservedOpcode
      ∧ decode 0x000000FF = .error .reservedOpcode ∧ decode 0x0F00051F = .error .reservedOpcode
      ∧ decode 0x00000130 = .error .reservedBits := by
  decide

theorem test_decode_table_word : decodeTableWord 32 0x00300510 = some (.setmode 0 5 0x3) := by decide

/-! ## Parameters (section 2: BP4, BP7, BP9) -/

theorem test_bp :
    ({ Params.testT with clockHz := 8000000, baud := 115200 } : Params).bp = 69
      ∧ ({ Params.testT with clockHz := 5, baud := 2 } : Params).bp = 3
      ∧ ({ Params.testT with clockHz := 3, baud := 2 } : Params).bp = 2 := by
  decide

theorem test_config_refused : ({ Params.testT with rxTimeout := 0 } : Params).ok = false := by decide

/-! ## Commands, one step each -/

theorem test_nop : got (step (enteredCold 0)) (fun t => (t.sub, t.err, t.cyccnt)) = some (.idle, .ok, 1000) := by
  decide

-- TM7
theorem test_init : got (step { enteredCold 1 with cyccnt := 0x1234 }) (fun t => (t.cyccnt, t.cycEn, t.err))
    = some (0, true, .ok) := by
  decide

-- INIT issued again (TM25)
theorem test_init_again : got (step (entered 1)) (fun t => (t.cyccnt, t.cycEn)) = some (0, true) := by decide

theorem test_now : got (step (entered 2)) (fun t => (t.result, t.cyccnt, t.err)) = some (1000, 1001, .ok) := by decide

-- TM23
theorem test_now_cold : got (step (enteredCold 2)) (fun t => (t.result, t.cyccnt, t.err)) = some (0, 1000, .notInit) := by
  decide

-- TM11
theorem test_elapsed : got (step { entered 3 with arg := 250 }) (fun t => t.result) = some 750 := by decide

-- TM10
theorem test_elapsed_wraps : got (step { entered 3 with cyccnt := 0x10, arg := 0xFFFFFFF0 }) (fun t => t.result)
    = some 0x20 := by
  decide

-- TM14, TM15
theorem test_wait : got (step { entered 4 with arg := 1 }) (fun t => t.sub) = some .idle
    ∧ got (step { entered 4 with arg := 2 }) (fun t => (t.sub, t.t0)) = some (.waiting, 1000) := by
  decide

-- TM18
theorem test_wait_bad : got (step { entered 4 with arg := 0x80000000 }) (fun t => (t.sub, t.err))
    = some (.idle, .badOperand) := by
  decide

-- PN1
theorem test_setmode_out : got (step (enteredCold 0x00300510)) (fun t => ((t.port 0).odr, (t.port 0).cfgl, line t p05))
    = some (0x0020, 0x44344444, true) := by
  decide

-- PN2
theorem test_setmode_in : got (step (outHigh (enteredCold 0x00400510))) (fun t => ((t.port 0).odr, (t.port 0).cfgl))
    = some (0x0020, 0x44444444) := by
  decide

-- PN5
theorem test_setlvl : got (step (enteredCold 0x01001911)) (fun t => ((t.port 1).odr, (t.port 1).cfgh))
    = some (0x0200, 0x44444444) := by
  decide

-- PN6
theorem test_setlvl_zero : got (step (drive (enteredCold 0x00001911) ⟨1, 9⟩ true)) (fun t => (t.port 1).odr)
    = some 0x0000 := by
  decide

-- PN9
theorem test_getlvl : got (step { enteredCold 0x00000512 with result := 7, inputs := [cyc none false] })
    (fun t => (t.result, t.err)) = some (0, .ok) := by
  decide

-- PN10: the ODR bit, not ENV, on an output
theorem test_getlvl_out : got (step (outHigh { enteredCold 0x00000512 with inputs := [cyc none false] }))
    (fun t => t.result) = some 1 := by
  decide

-- TX3: the start bit in the entry cycle; TX6: only ARG[7:0]
theorem test_sendb_entry : got (step (outHigh { entered 0x00000520 with arg := 0x12345655 }))
    (fun t => (odrBit t p05, t.sub, t.txb)) = some (false, .sending, 0x55) := by
  decide

-- TX3: at offset BP = 4 bit 0 of 0x55 is written
theorem test_sendb_edge : got (step { entered 0x00000520 with sub := .sending, t0 := 996, txb := 0x55 })
    (fun t => odrBit t p05) = some true := by
  decide

-- RX9: level detection at poll 0
theorem test_recvb_detects : got (step { entered 0x00000521 with inputs := [cyc none false] })
    (fun t => (t.sub, t.t0)) = some (.data, 1000) := by
  decide

-- RX2: the tenth poll that reads 1
theorem test_recvb_timeout : got (step { entered 0x00000521 with sub := .poll, j := 9 })
    (fun t => (t.sub, t.result, t.err)) = some (.idle, 0xFFFFFFFF, .rxTimeout) := by
  decide

-- CR4, CR6, CR13
theorem test_crc : crc8Tmc [0x05, 0x03, 0x6C] = 0x27 ∧ crc8Tmc [0x05, 0x03, 0x90, 0x00, 0x01, 0x1F, 0x0A] = 0xCA
    ∧ crc8Tmc [0x03, 0x6C] = 0x6F := by
  decide +kernel

-- FR1
theorem test_framew :
    got (step { enteredCold 0x30 with mem := txCells [0x05, 0x00, 0x90, 0x00, 0x01, 0x1F, 0x0A, 0x00] }) (fun t => t.mem)
      = some (txCells [0x05, 0x03, 0x90, 0x00, 0x01, 0x1F, 0x0A, 0xCA]) := by
  decide +kernel

-- FR8
theorem test_framew_unwritten : faultOf (step (enteredCold 0x30)) = some .unwrittenTx := by decide

-- R126: a byte of TX[0..L-2] unwritten, the slave byte (TX[1]) no exception
theorem test_framer_slave_unwritten :
    faultOf (step { enteredCold 0x31 with mem := [(0x20, 0x05), (0x22, 0x6C)] }) = some .unwrittenTx := by
  decide

-- FR3
theorem test_framer :
    got (step { enteredCold 0x31 with mem := txCells [0x05, 0x07, 0x6C, 0x99, 0xAA, 0xBB, 0xCC, 0xDD] }) (fun t => t.mem)
      = some (txCells [0x05, 0x03, 0x6C, 0x27, 0xAA, 0xBB, 0xCC, 0xDD]) := by
  decide +kernel

-- TR1: SETUP
theorem test_wrtxn_setup :
    got (step { entered 0x40 with mem := txCells [0x05, 0x00, 0x90, 0x00, 0x01, 0x1F, 0x0A, 0x00] })
      (fun t => (t.irqSuppress, line t p05, t.sub, txByte t 7)) = some (true, true, .sendStart, some 0xCA) := by
  decide +kernel

-- TR11: wrtxn z before INIT is UNSUPPORTED_AXIS
theorem test_wrtxn_axis : got (step (enteredCold 0x00020040)) (fun t => (t.sub, t.err, t.irqSuppress))
    = some (.idle, .unsupportedAxis, false) := by
  decide

-- TR2: the failure field after the last poll of RECV 0
theorem test_rdtxn_timeout :
    got (step { entered 0x41 with
        sub := .poll, j := 9, mem := [(0x28, 0x11), (0x29, 0x22), (0x2A, 0x33), (0x2B, 0x44), (0x2F, 0x88)] })
      (fun t => (t.sub, t.tout, t.mem))
      = some (.restore, true, [(0x28, 0x11), (0x29, 0x22), (0x2A, 0x33), (0x2B, 0xFF), (0x2C, 0xFF), (0x2D, 0xFF),
          (0x2E, 0xFF), (0x2F, 0x88)]) := by
  decide

-- TR2: TURN floats the pin and keeps its ODR bit
theorem test_rdtxn_turn : got (step { outHigh (entered 0x41) with sub := .turn })
    (fun t => (pinMode t p05, odrBit t p05, t.sub)) = some (0x4, true, .poll) := by
  decide

/-! ## The host's side, one step each (section 11, PN11-PN13, TM24) -/

theorem test_host_faults :
    faultOf (step (hosted (.read 0x002 4))) = some .busUnaligned ∧ faultOf (step (hosted (.read 0x000 2))) = some .busWidth
      ∧ faultOf (step (hosted (.read 0x030 4))) = some .busUnmapped ∧ faultOf (step (hosted (.read 0x120 4))) = some .busUnmapped := by
  decide

theorem test_host_bitper : got (step (hosted (.read 0x014 4))) (fun t => t.rdata) = some (some 4) := by decide

-- HA2, HA4
theorem test_host_busy : got (step (hostedBusy (.write 0x008 4 5))) (fun t => (t.result, t.ovr)) = some (0, true)
    ∧ got (step (hostedBusy (.write 0x004 4 5))) (fun t => (t.arg, t.ovr)) = some (100, true) := by
  decide

-- HA3
theorem test_host_w1c : got (step { hostedBusy (.write 0x00C 4 0xFFFFFFFF) with ovr := true }) (fun t => (t.ovr, t.sub))
    = some (false, .waiting) := by
  decide

-- HA12, HA13
theorem test_host_buffers :
    got (step (hosted (.write 0x020 4 0x04030201))) (fun t => t.mem) = some (txCells [0x01, 0x02, 0x03, 0x04])
      ∧ got (step { hosted (.read 0x024 4) with mem := txCells [0x05, 0x03, 0x90, 0x00, 0x01, 0x1F, 0x0A, 0xCA] })
        (fun t => t.rdata) = some (some 0xCA0A1F01) := by
  decide

-- PN11, PN13
theorem test_host_ports :
    got (step (hosted (.write 0x100 4 0x44444435))) (fun t => (t.port 0).cfgl) = some 0x44444434
      ∧ got (step (hosted (.write 0x108 4 0xFFFFFFFF))) (fun t => (t.port 0).odr) = some 0xFFFF := by
  decide

-- PN12
theorem test_host_idr :
    got (step { hosted (.read 0x10C 4) with ports := State.reset.ports.set 0 ⟨0x44344444, 0x44444444, 0⟩ })
      (fun t => t.rdata) = some (some 0x0000FFDF) := by
  decide

theorem test_counter_wraps :
    got (step { State.reset with cycEn := true, cyccnt := 0xFFFFFFFF }) (fun t => t.cyccnt) = some 0 := by
  decide

-- HA16, and R26's STATUS word: BUSY and PHASE EXEC
theorem test_host_cmd : got (step (hosted (.write 0x000 4 0))) (fun t => (t.cmd, t.sub, readReg t .status))
    = some (0, .entry, 0x00000101) := by
  decide

-- the step after withFetchWord is the command's entry cycle (log entry 9)
theorem test_fetch_word : got (step (State.reset.withFetchWord 32 1)) (fun t => (t.cyccnt, t.cycEn, t.sub))
    = some (0, true, .idle) := by
  decide

/-! ## Witnesses: states and operands that meet the hypotheses of each obligation, clause by clause -/

/-- A next state with a property, from its evaluation. -/
theorem next_of_got {o : Host.Outcome State Fault Refusal} {f : State → Bool} (h : got o f = some true) :
    ∃ t, o = .next t ∧ f t = true := by
  cases o with
  | next t => exact ⟨t, rfl, Option.some.inj h⟩
  | fault f => cases h
  | refused r => cases h

/-- The fault, from its evaluation. -/
theorem fault_of_faultOf {o : Host.Outcome State Fault Refusal} {f : Fault} (h : faultOf o = some f) : o = .fault f := by
  cases o with
  | next t => cases h
  | fault g => exact congrArg _ (Option.some.inj h)
  | refused r => cases h

theorem witness_DecodedWordIsItsEncoding : decode 0x01001911 = .ok (.setlvl 1 9 true) := by decide

-- both ends of each range of reserved opcodes
theorem witness_ReservedEncodingsDecodeToNothing_opcodes :
    (5 ≤ (opcField 0x05).toNat ∧ (opcField 0x0F).toNat ≤ 0x0F)
      ∧ (0x13 ≤ (opcField 0x13).toNat ∧ (opcField 0x1F).toNat ≤ 0x1F)
      ∧ (0x22 ≤ (opcField 0x22).toNat ∧ (opcField 0x2F).toNat ≤ 0x2F)
      ∧ (0x32 ≤ (opcField 0x32).toNat ∧ (opcField 0x3F).toNat ≤ 0x3F)
      ∧ 0x42 ≤ (opcField 0x42).toNat ∧ 0x42 ≤ (opcField 0xFF).toNat := by
  decide

theorem witness_ReservedEncodingsDecodeToNothing_bits :
    (0x00008000#32).getLsbD 15 = true ∧ (0x02000000#32).getLsbD 25 = true ∧ (0x80000000#32).getLsbD 31 = true := by
  decide

theorem witness_StepRunsDecodedCommand_next :
    (currentInput (entered 2)).reset = false ∧ (entered 2).busy = true
      ∧ serve (entered 2) = .next { entered 2 with rdata := none } ∧ decode (entered 2).cmd = .ok .now
      ∧ ∃ t, exec .now { entered 2 with rdata := none } = .next t :=
  ⟨rfl, rfl, rfl, by decide, _, rfl⟩

theorem witness_StepRunsDecodedCommand_fault :
    (currentInput (entered 0x30)).reset = false ∧ (entered 0x30).busy = true
      ∧ serve (entered 0x30) = .next { entered 0x30 with rdata := none } ∧ decode (entered 0x30).cmd = .ok .framew
      ∧ exec .framew { entered 0x30 with rdata := none } = .fault .unwrittenTx :=
  ⟨rfl, rfl, rfl, by decide, fault_of_faultOf (by decide)⟩

theorem witness_PlacedCommandRunsNext :
    decodeTableWord 32 1 = some .init
      ∧ ∃ t, exec .init { State.reset.withFetchWord 32 1 with rdata := none } = .next t :=
  ⟨by decide, _, rfl⟩

-- a word no row matches, and one that fails a value check
theorem witness_IllegalCommandChangesErrAlone :
    (QuietNow (entered 0x05) ∧ (entered 0x05).sub = .entry ∧ ∀ i, decode (entered 0x05).cmd = .ok i →
        i.wellFormed (entered 0x05).cfg.params.nPorts = false)
      ∧ QuietNow (entered 0x00302510) ∧ (entered 0x00302510).sub = .entry
      ∧ ∀ i, decode (entered 0x00302510).cmd = .ok i →
        i.wellFormed (entered 0x00302510).cfg.params.nPorts = false := by
  refine ⟨⟨⟨rfl, rfl⟩, rfl, fun i h => ?_⟩, ⟨rfl, rfl⟩, rfl, fun i h => ?_⟩
  · rw [show decode (entered 0x05).cmd = .error .reservedOpcode by decide] at h; cases h
  · rw [show decode (entered 0x00302510).cmd = .ok (.setmode 2 5 0x3) by decide] at h; cases h; decide

theorem witness_CounterUpdate :
    ((currentInput (entered 1)).reset = false ∧ (∃ t, step (entered 1) = .next t) ∧ (entered 1).busy = true
        ∧ decode (entered 1).cmd = .ok .init)
      ∧ ((currentInput (entered 0)).reset = false ∧ (∃ t, step (entered 0) = .next t) ∧ (entered 0).cycEn = true
        ∧ ¬ ((entered 0).busy = true ∧ decode (entered 0).cmd = .ok .init))
      ∧ (currentInput State.reset).reset = false ∧ (∃ t, step State.reset = .next t) ∧ State.reset.cycEn = false
      ∧ ¬ (State.reset.busy = true ∧ decode State.reset.cmd = .ok .init) :=
  ⟨⟨rfl, ⟨_, rfl⟩, rfl, by decide⟩, ⟨rfl, ⟨_, rfl⟩, rfl, by decide⟩, rfl, ⟨_, rfl⟩, rfl, by decide⟩

theorem witness_ConfigurationNeverChanges : ∃ t, step (entered 1) = .next t := ⟨_, rfl⟩

/-- A cycle with RESET, a command running. -/
def resetting : State := { entered 2 with inputs := [{ cyc none true with reset := true }] }

theorem witness_CycEnSetByInitClearedByReset :
    (∃ t, step resetting = .next t ∧ (resetting.cycEn && !t.cycEn) = true) ∧ (currentInput resetting).reset = true
      ∧ (∃ t, step (enteredCold 1) = .next t ∧ (!(enteredCold 1).cycEn && t.cycEn) = true)
      ∧ (currentInput (enteredCold 1)).reset = false ∧ (enteredCold 1).busy = true
      ∧ decode (enteredCold 1).cmd = .ok .init :=
  ⟨next_of_got (by decide), rfl, next_of_got (by decide), rfl, rfl, by decide⟩

theorem witness_ResultWritersAreFour :
    (∃ t, step (entered 2) = .next t ∧ (t.result != (entered 2).result) = true)
      ∧ ∃ t, step { resetting with result := 7 } = .next t ∧ (t.result != 7) = true :=
  ⟨next_of_got (by decide), next_of_got (by decide)⟩

/-- An entry cycle meets the invariant where the memory and the modes do. -/
theorem inv_entry {s : State} (hm : Memory.wf s.mem = true) (hp : ∀ p i, legalMode (pinMode s ⟨p, i⟩) = true)
    (hk : s.k ≤ 8) (hs : s.sub = .entry) (hi : s.irqSuppress = false) (he : s.err = .ok) : Inv s :=
  ⟨hm, fun r => hp r.port r.pin, hk, fun _ => hi, fun _ => ⟨hi, he⟩, fun _ h => absurd hs h⟩

/-- TX[0..7] = [05 00 90 00 01 1F 0A 00], with its entry cycle of `wrtxn x` (TR1). -/
def txnEntry (w : Word) : State :=
  { entered w with mem := txCells [0x05, 0x00, 0x90, 0x00, 0x01, 0x1F, 0x0A, 0x00], inputs := [] }

theorem txnEntry_inv (w : Word) : Inv (txnEntry w) := by
  refine inv_entry ?_ ?_ ?_ rfl rfl rfl
  · show Memory.wf (txCells [0x05, 0x00, 0x90, 0x00, 0x01, 0x1F, 0x0A, 0x00]) = true
    decide +kernel
  · intro p i
    show legalMode (pinMode State.reset ⟨p, i⟩) = true
    revert p i; decide +kernel
  · exact Nat.zero_le 8

/-- The last cycle of the guard of `wrtxn x`. -/
def guardLast : State :=
  { outHigh (entered 0x40) with sub := .guarding, t0 := 993, irqSuppress := true }

theorem guardLast_inv : Inv guardLast := by
  refine ⟨(by decide : Memory.wf guardLast.mem = true), ?_, by decide, nofun, nofun, fun _ _ => ?_⟩
  · rintro ⟨p, i⟩; revert p i; decide +kernel
  · refine ⟨.wrtxn 0, by decide, by decide, by decide, rfl, rfl, rfl, ⟨fun _ h => ?_, fun _ h => ?_⟩, ?_⟩
    · rcases h with h | h <;> cases h
    · rcases h with h | h <;> cases h
    · intro axis r ha hr
      cases ha
      obtain rfl : p05 = r := Option.some.inj hr
      refine ⟨fun _ => by decide, fun h => ?_⟩
      rcases h with h | h | h <;> cases h

theorem witness_IrqSuppressChangesOnlyInTransactions :
    (Inv (txnEntry 0x40) ∧ (currentInput (txnEntry 0x40)).reset = false
        ∧ ∃ t, step (txnEntry 0x40) = .next t ∧ (t.irqSuppress && !(txnEntry 0x40).irqSuppress) = true)
      ∧ Inv guardLast ∧ (currentInput guardLast).reset = false
      ∧ ∃ t, step guardLast = .next t ∧ (!t.irqSuppress && guardLast.irqSuppress) = true :=
  ⟨⟨txnEntry_inv _, rfl, next_of_got (by decide +kernel)⟩, guardLast_inv, rfl, next_of_got (by decide +kernel)⟩

theorem witness_EveryStepKeepsTheInvariant : Inv guardLast ∧ ∃ t, step guardLast = .next t := by
  obtain ⟨t, h, -⟩ := next_of_got (o := step guardLast) (f := fun _ => true) (by decide +kernel)
  exact ⟨guardLast_inv, t, h⟩

/-- SENDB p0.5 of 0xFF in its second cycle. -/
def sendSecond : State := { entered 0x520 with sub := .sending, t0 := 999, txb := 0xFF }

theorem sendSecond_inv : Inv sendSecond := by
  refine ⟨(by decide : Memory.wf sendSecond.mem = true), ?_, by decide, nofun, nofun,
    fun _ _ => ?_⟩
  · rintro ⟨p, i⟩; revert p i; decide +kernel
  · exact ⟨.sendb 0 5, by decide, by decide, by decide, rfl, rfl, rfl,
      ⟨nofun, nofun⟩, fun _ _ h => (by cases h)⟩

theorem witness_EveryStepKeepsTheClockwork :
    Inv sendSecond ∧ TimingOk sendSecond ∧ ∃ t, step sendSecond = .next t := by
  refine ⟨sendSecond_inv, ⟨nofun, fun _ => ⟨by decide, by decide, ?_⟩, nofun,
    nofun, nofun, fun h => ?_⟩, ?_⟩
  · intro i r hd hr
    rw [show decode sendSecond.cmd = .ok (.sendb 0 5) by decide] at hd
    cases hd; cases hr; decide
  · rcases h with h | h | h | h <;> cases h
  · obtain ⟨t, h, -⟩ := next_of_got (o := step sendSecond) (f := fun _ => true) (by decide)
    exact ⟨t, h⟩

theorem witness_StepStopsOnlyOnBusErrorOrUnwrittenFraming :
    (Inv (entered 0x30) ∧ step (entered 0x30) = .fault .unwrittenTx)
      ∧ Inv { entered 2 with inputs := [cyc (some (.read 0x030 4)) true] }
      ∧ step { entered 2 with inputs := [cyc (some (.read 0x030 4)) true] } = .fault .busUnmapped := by
  refine ⟨⟨inv_entry (by decide) ?_ (by decide) rfl rfl rfl, fault_of_faultOf (by decide)⟩,
    inv_entry (by decide) ?_ (by decide) rfl rfl rfl, fault_of_faultOf (by decide)⟩
  · decide +kernel
  · decide +kernel

theorem witness_ChangeToOutputIsHigh :
    ∃ t, exec (.setmode 0 5 0x3) (entered 0x00300510) = .next t
      ∧ (pinMode (entered 0x00300510) p05 != modeOutPp && pinMode t p05 == modeOutPp) = true :=
  next_of_got (by decide)

theorem witness_CommandTouchesItsPinAlone :
    (∃ t, exec (.setlvl 1 9 true) (entered 0x01001911) = .next t)
      ∧ commandPin (entered 0x01001911) (.setlvl 1 9 true) ≠ some p05 :=
  ⟨⟨_, rfl⟩, by decide⟩

theorem witness_ResetStateIsTheTable :
    (currentInput { State.reset with inputs := [] }).reset = false
      ∧ ∃ t, step { State.reset with inputs := [] } = .next t :=
  ⟨rfl, _, rfl⟩

theorem witness_ResetOverridesTheCycle : (currentInput resetting).reset = true := rfl

-- N_PORTS 8 with the last port; N_PORTS 2 with the gap below the ports and the first absent port
theorem witness_RegisterMapIsTheTable :
    8 ≤ 8 ∧ (7#3).toNat < 8
      ∧ 0x018 ∉ [0x000, 0x004, 0x008, 0x00C, 0x010, 0x014, 0x020, 0x024, 0x028, 0x02C]
      ∧ 0x120 ∉ [0x000, 0x004, 0x008, 0x00C, 0x010, 0x014, 0x020, 0x024, 0x028, 0x02C]
      ∧ (∀ p, p < 2 → 0x018 ≠ 0x100 + 0x10 * p ∧ 0x018 ≠ 0x104 + 0x10 * p ∧ 0x018 ≠ 0x108 + 0x10 * p
        ∧ 0x018 ≠ 0x10C + 0x10 * p)
      ∧ ∀ p, p < 2 → 0x120 ≠ 0x100 + 0x10 * p ∧ 0x120 ≠ 0x104 + 0x10 * p ∧ 0x120 ≠ 0x108 + 0x10 * p
        ∧ 0x120 ≠ 0x10C + 0x10 * p := by
  refine ⟨by decide, by decide, by decide, by decide, fun p h => ?_, fun p h => ?_⟩ <;> omega

theorem witness_BadHostAccessFaults :
    (currentInput (hosted (.read 0x000 2))).reset = false
      ∧ (currentInput (hosted (.read 0x000 2))).access = some (.read 0x000 2)
      ∧ (currentInput (hosted (.write 0xFFE 4 1))).access = some (.write 0xFFE 4 1)
      ∧ (currentInput (hosted (.write 0x120 4 1))).access = some (.write 0x120 4 1)
      ∧ 0xFFE = State.reset.cfg.params.base + 0xFFE ∧ 0xFFE < 0x1000 ∧ 0xFFE % 4 ≠ 0 ∧ 0x120 % 4 = 0
      ∧ regAt State.reset.cfg.params.nPorts 0x120 = none := by
  decide

/-- A configuration with its window at 0x1000. -/
def basedConfig : Config := ⟨{ Params.testT with base := 0x1000 }, by decide⟩

-- the last address below the window and the first above it
theorem witness_AccessOutsideTheWindowDoesNothing :
    (currentInput { hosted (.read 0xFFF 4) with cfg := basedConfig }).access = some (.read 0xFFF 4)
      ∧ 0xFFF < basedConfig.params.base
      ∧ (currentInput { hosted (.write 0x2000 4 1) with cfg := basedConfig }).access = some (.write 0x2000 4 1)
      ∧ basedConfig.params.base + 0x1000 ≤ 0x2000
      ∧ (currentInput { hosted (.read 0xFFF 4) with cfg := basedConfig }).reset = false := by
  decide

theorem witness_ReadHasNoSideEffect :
    HostReads (hosted (.read 0x010 4)) .cyccnt ∧ ∃ t, step (withoutAccess (hosted (.read 0x010 4))) = .next t :=
  ⟨⟨rfl, 0x010, rfl, by decide⟩, _, rfl⟩

theorem witness_WriteWhileBusyChangesOvrAlone :
    (HostWrites (hostedBusy (.write 0x004 4 5)) .arg 5 ∧ (hostedBusy (.write 0x004 4 5)).busy = true
        ∧ ∃ t, step (withoutAccess (hostedBusy (.write 0x004 4 5))) = .next t)
      ∧ (HostWrites (hostedBusy (.write 0x00C 4 2)) .status 2 ∧ (hostedBusy (.write 0x00C 4 2)).busy = true
        ∧ ∃ t, step (withoutAccess (hostedBusy (.write 0x00C 4 2))) = .next t)
      ∧ HostReads (hostedBusy (.read 0x028 4)) (.rxbuf 0) ∧ (hostedBusy (.read 0x028 4)).busy = true
      ∧ ∃ t, step (withoutAccess (hostedBusy (.read 0x028 4))) = .next t :=
  ⟨⟨busy_writes (by decide), rfl, _, rfl⟩, ⟨busy_writes (by decide), rfl, _, rfl⟩, ⟨rfl, 0x028, rfl, by decide⟩, rfl,
    _, rfl⟩

theorem witness_OvrIsStickyAndW1C :
    ((currentInput resetting).reset = true ∧ ∃ t, step resetting = .next t)
      ∧ (HostWrites (hostedBusy (.write 0x008 4 5)) .result 5 ∧ (hostedBusy (.write 0x008 4 5)).busy = true
        ∧ ∃ t, step (hostedBusy (.write 0x008 4 5)) = .next t)
      ∧ (HostWrites (hosted (.write 0x00C 4 2)) .status 2 ∧ (2 : Word).getLsbD 1 = true
        ∧ ∃ t, step (hosted (.write 0x00C 4 2)) = .next t)
      ∧ (currentInput (entered 0)).reset = false ∧ (¬ ∃ r v, HostWrites (entered 0) r v ∧ r ≠ .status
        ∧ (entered 0).busy = true)
      ∧ (¬ ∃ v, HostWrites (entered 0) .status v ∧ v.getLsbD 1 = true) ∧ ∃ t, step (entered 0) = .next t := by
  refine ⟨⟨rfl, _, rfl⟩, ⟨busy_writes (by decide), rfl, _, rfl⟩, ⟨hosted_writes (by decide), by decide, _, rfl⟩, rfl,
    ?_, ?_, _, rfl⟩
  · rintro ⟨r, v, ⟨-, a, h, -⟩, -⟩; cases h
  · rintro ⟨v, ⟨-, a, h, -⟩, -⟩; cases h

theorem witness_ReadOnlyRegistersIgnoreWrites :
    (HostWrites (hosted (.write 0x10C 4 5)) (.idr 0) 5 ∧ (hosted (.write 0x10C 4 5)).busy = false
        ∧ ∃ t, step (withoutAccess (hosted (.write 0x10C 4 5))) = .next t)
      ∧ (HostWrites (hostedBusy (.write 0x010 4 5)) .cyccnt 5 ∧ (hostedBusy (.write 0x010 4 5)).busy = true
        ∧ ∃ t, step (withoutAccess (hostedBusy (.write 0x010 4 5))) = .next t)
      ∧ (HostWrites (hosted (.write 0x118 4 0xFFFFFFFF)) (.odr 1) 0xFFFFFFFF
        ∧ (hosted (.write 0x118 4 0xFFFFFFFF)).busy = false)
      ∧ HostWrites (hosted (.write 0x00C 4 1)) .status 1 ∧ (1 : Word).getLsbD 1 = false
      ∧ ∃ t, step (withoutAccess (hosted (.write 0x00C 4 1))) = .next t :=
  ⟨⟨hosted_writes (by decide), rfl, _, rfl⟩, ⟨busy_writes (by decide), rfl, _, rfl⟩, ⟨hosted_writes (by decide), rfl⟩,
    hosted_writes (by decide), by decide, _, rfl⟩

theorem witness_CmdAndArgWritesAreAccepted :
    (HostWrites (hosted (.write 0x000 4 4)) .cmd 4 ∧ (hosted (.write 0x000 4 4)).busy = false)
      ∧ HostWrites (hosted (.write 0x004 4 9)) .arg 9 ∧ (hosted (.write 0x004 4 9)).busy = false :=
  ⟨⟨hosted_writes (by decide), rfl⟩, hosted_writes (by decide), rfl⟩

theorem witness_BuffersAreLittleEndian :
    (HostWrites (hosted (.write 0x024 4 7)) (.txbuf 1) 7 ∧ (hosted (.write 0x024 4 7)).busy = false)
      ∧ (HostWrites (hosted (.write 0x028 4 7)) (.rxbuf 0) 7 ∧ (hosted (.write 0x028 4 7)).busy = false)
      ∧ txByte (txnEntry 0x40) (4 * 1 + 3) = some 0x00
      ∧ rxByte { entered 0 with mem := [(0x2B, 0x44)] } (4 * 0 + 3) = some 0x44 :=
  ⟨⟨hosted_writes (by decide), rfl⟩, ⟨hosted_writes (by decide), rfl⟩, by decide, by decide⟩

theorem witness_CfgIsWriteAnyReadLegal :
    (HostWrites (hosted (.write 0x104 4 0x33333333)) (if true then .cfgh 0 else .cfgl 0) 0x33333333
        ∧ (hosted (.write 0x104 4 0x33333333)).busy = false)
      ∧ HostWrites (hosted (.write 0x110 4 0x44444435)) (if false then .cfgh 1 else .cfgl 1) 0x44444435
      ∧ (hosted (.write 0x110 4 0x44444435)).busy = false ∧ ModesOk (hosted (.write 0x110 4 0x44444435)) := by
  refine ⟨⟨hosted_writes (by decide), rfl⟩, hosted_writes (by decide), rfl, ?_⟩
  rintro ⟨p, i⟩; revert p i; decide +kernel

theorem witness_IdrReadsThePinLevels :
    pinMode (outHigh State.reset) p05 = modeOutPp ∧ pinMode State.reset p05 = modeInFloat := by
  decide

-- each PHASE and ERR the statement names, and an entry cycle that passes its checks
theorem witness_StatusFields :
    (decode (entered 0x05).cmd = .error .reservedOpcode ∧ decode (entered 0x00302510).cmd = .ok (.setmode 2 5 3)
        ∧ ¬ PassesChecks (.setmode 2 5 3) (entered 0x00302510))
      ∧ (decode (entered 0x40).cmd = .ok (.wrtxn 0) ∧ PassesChecks (.wrtxn 0) (entered 0x40))
      ∧ (decode (entered 4).cmd = .ok .wait ∧ PassesChecks .wait (entered 4))
      ∧ (∀ c, ({ entered 0 with err := c } : State).err = c)
      ∧ ∀ u, ({ entered 0x41 with sub := u } : State).sub = u := by
  refine ⟨⟨by decide, by decide, fun h => absurd h.1 (by decide)⟩, ⟨by decide, rfl, ?_, fun _ => rfl, nofun⟩,
    ⟨by decide, rfl, nofun, fun _ => rfl, fun _ => by decide⟩, fun _ => rfl, fun _ => rfl⟩
  intro axis h
  cases h; decide

theorem witness_EntryErrorsInOrder :
    ((entered 0x00302510).sub = .entry
        ∧ (Instr.setmode 2 5 0x3).wellFormed (entered 0x00302510).cfg.params.nPorts = false)
      ∧ (axisOf (.rdtxn 15) = some 15 ∧ axisPin (entered 0x000F0041) 15 = none)
      ∧ ((Instr.wrtxn 0).wellFormed (enteredCold 0x40).cfg.params.nPorts = true
        ∧ (∀ axis, axisOf (.wrtxn 0) = some axis → axisPin (enteredCold 0x40) axis ≠ none)
        ∧ isTimed (.wrtxn 0) = true ∧ (enteredCold 0x40).cycEn = false)
      ∧ (entered 4).cycEn = true ∧ 2 ^ 31 ≤ ({ entered 4 with arg := 0x80000000 } : State).arg.toNat := by
  refine ⟨⟨rfl, by decide⟩, ⟨rfl, by decide⟩, ⟨by decide, fun axis h => ?_, rfl, rfl⟩, rfl, by decide⟩
  cases h; decide

theorem witness_InitCompletes : (entered 1).busy = true ∧ decode (entered 1).cmd = .ok .init ∧ QuietFor 2 (entered 1) :=
  ⟨rfl, by decide, by unfold QuietFor; decide⟩

theorem witness_NowAndElapsedComplete : (entered 3).cycEn = true := rfl

/-- WAIT of ARG cycles under way, with `n` cycles gone since its entry cycle. -/
def waiting (arg n : Word) : State := { entered 4 with arg := arg, sub := .waiting, t0 := 1000 - n }

-- both sides of each boundary: ARG 1 and 2 in the entry cycle, ARG 8 and 9 with 7 cycles gone
theorem witness_WaitCycles :
    ((entered 4).sub = .entry ∧ (entered 4).cycEn = true ∧ ({ entered 4 with arg := 1 } : State).arg.toNat ≤ 1
        ∧ 1 < ({ entered 4 with arg := 2 } : State).arg.toNat ∧ (2 : Word).toNat < 2 ^ 31)
      ∧ (waiting 8 7).sub = .waiting ∧ (waiting 8 7).arg.toNat < 2 ^ 31 ∧ sinceT0 (waiting 8 7) + 1 < 2 ^ 31
      ∧ (waiting 8 7).arg.toNat ≤ sinceT0 (waiting 8 7) + 1 ∧ (waiting 9 7).sub = .waiting
      ∧ (waiting 9 7).arg.toNat < 2 ^ 31 ∧ sinceT0 (waiting 9 7) + 1 < (waiting 9 7).arg.toNat := by
  decide

theorem witness_WaitOccupiesMaxArgOneCycles :
    (entered 4).sub = .entry ∧ decode (entered 4).cmd = .ok .wait ∧ (entered 4).cycEn = true
      ∧ ({ entered 4 with arg := 3, inputs := [] } : State).arg.toNat < 2 ^ 31
      ∧ QuietFor (max 3 1) { entered 4 with arg := 3, inputs := [] } :=
  ⟨rfl, by decide, rfl, by decide, by unfold QuietFor; decide⟩

-- the last existing port of configuration T
theorem witness_SetmodeCompletes : (1#3).toNat < (entered 0x00301510).cfg.params.nPorts := by decide

theorem witness_SetlvlAndGetlvlComplete : (1#3).toNat < (entered 0x01001911).cfg.params.nPorts := by decide

/-- SENDB p0.5 under way, with `n` cycles gone since its entry cycle. -/
def sendingAt (n : Word) : State := { sendSecond with t0 := 1000 - n }

-- an edge (offset 36), no edge, the last cycle (39) and the one before it
theorem witness_SendbCycles :
    ((entered 0x520).sub = .entry ∧ (entered 0x520).cycEn = true ∧ (0#3).toNat < (entered 0x520).cfg.params.nPorts)
      ∧ ((sendingAt 36).sub = .sending ∧ sinceT0 (sendingAt 36) < 10 * bp (sendingAt 36)
        ∧ sinceT0 (sendingAt 36) = 9 * bp (sendingAt 36))
      ∧ (∀ m, m < 10 → sinceT0 (sendingAt 39) ≠ m * bp (sendingAt 39))
      ∧ sinceT0 (sendingAt 39) < 10 * bp (sendingAt 39) ∧ 10 * bp (sendingAt 39) ≤ sinceT0 (sendingAt 39) + 1
      ∧ sinceT0 (sendingAt 38) + 1 < 10 * bp (sendingAt 38) := by
  decide

theorem witness_SendbWaveform :
    (entered 0x520).sub = .entry ∧ decode (entered 0x520).cmd = .ok (.sendb 0 5)
      ∧ (0#3).toNat < (entered 0x520).cfg.params.nPorts ∧ (entered 0x520).cycEn = true
      ∧ QuietFor (10 * bp (outHigh (entered 0x520))) (outHigh (entered 0x520))
      ∧ pinMode (outHigh (entered 0x520)) p05 = modeOutPp :=
  ⟨rfl, by decide, by decide, rfl, by unfold QuietFor; decide, by decide⟩

/-- RECVB p0.5 polling for the `j`-th time, the line at `e`. -/
def pollingAt (j : Nat) (e : Bool) : State :=
  { entered 0x521 with sub := .poll, j := j, inputs := [cyc none e] }

-- detection, the last poll but one, and the last poll; and the entry cycle
theorem witness_RecvbPolls :
    ((entered 0x521).sub = .entry ∧ (entered 0x521).cycEn = true ∧ (0#3).toNat < (entered 0x521).cfg.params.nPorts)
      ∧ ((pollingAt 9 false).sub = .poll ∧ 9 = (pollingAt 9 false).j ∧ line (pollingAt 9 false) p05 = false)
      ∧ (line (pollingAt 8 true) p05 = true ∧ 8 + 1 < (pollingAt 8 true).cfg.params.rxTimeout)
      ∧ line (pollingAt 9 true) p05 = true ∧ (pollingAt 9 true).cfg.params.rxTimeout ≤ 9 + 1 := by
  decide

/-- RECVB p0.5 with `n` cycles gone since its detection. -/
def dataAt (n : Word) : State := { entered 0x521 with sub := .data, t0 := 1000 - n }

-- the sample of bit 7, the last cycle (39) and the one before it
theorem witness_RecvbSamplesAndDelivers :
    ((dataAt 34).sub = .data ∧ sinceT0 (dataAt 34) + 1 < 2 ^ 31
        ∧ sinceT0 (dataAt 34) = bp (dataAt 34) + half (dataAt 34) + 7 * bp (dataAt 34))
      ∧ sinceT0 (dataAt 38) + 1 < 9 * bp (dataAt 38) + 2 * half (dataAt 38)
      ∧ 9 * bp (dataAt 39) + 2 * half (dataAt 39) ≤ sinceT0 (dataAt 39) + 1 := by
  decide

/-- RECVB p0.5 entering, ENV 1 for ten cycles (RX2). -/
def recvSilent : State := { entered 0x521 with inputs := List.replicate 10 (cyc none true) }

/-- RECVB p0.5 entering on an output at 1, ENV 0 throughout. -/
def recvOwn : State := outHigh { entered 0x521 with inputs := List.replicate 10 (cyc none false) }

-- the floating pin and the output
theorem witness_RecvbTimesOut :
    (recvSilent.sub = .entry ∧ decode recvSilent.cmd = .ok (.recvb 0 5) ∧ (0#3).toNat < recvSilent.cfg.params.nPorts
        ∧ recvSilent.cycEn = true ∧ pinMode recvSilent p05 = modeInFloat
        ∧ QuietFor recvSilent.cfg.params.rxTimeout recvSilent
        ∧ ∀ m, m < recvSilent.cfg.params.rxTimeout → envLater recvSilent m p05 = true)
      ∧ recvOwn.sub = .entry ∧ decode recvOwn.cmd = .ok (.recvb 0 5) ∧ (0#3).toNat < recvOwn.cfg.params.nPorts
      ∧ recvOwn.cycEn = true ∧ pinMode recvOwn p05 = modeOutPp ∧ odrBit recvOwn p05 = true
      ∧ QuietFor recvOwn.cfg.params.rxTimeout recvOwn := by
  unfold QuietFor
  decide +kernel

/-- RECVB p0.5 entering, 0x3C arriving at the last poll (RX4). -/
def recvLate : State :=
  { entered 0x521 with
    inputs := List.replicate 9 (cyc none true)
      ++ (List.range 10).flatMap fun m => List.replicate 4 (cyc none (frameBit 0x3C m)) }

theorem witness_RecvbReadsAFrame :
    recvLate.sub = .entry ∧ decode recvLate.cmd = .ok (.recvb 0 5) ∧ (0#3).toNat < recvLate.cfg.params.nPorts
      ∧ recvLate.cycEn = true ∧ pinMode recvLate p05 = modeInFloat ∧ 9 < recvLate.cfg.params.rxTimeout
      ∧ QuietFor (9 + 9 * bp recvLate + 2 * half recvLate) recvLate
      ∧ (∀ m, m < 9 → envLater recvLate m p05 = true)
      ∧ ∀ m c, m < 10 → c < bp recvLate → envLater recvLate (9 + m * bp recvLate + c) p05 = frameBit 0x3C m := by
  have h : ∀ m, m < 10 → ∀ c, c < bp recvLate → envLater recvLate (9 + m * bp recvLate + c) p05 = frameBit 0x3C m := by
    decide +kernel
  exact ⟨rfl, by decide, by decide, rfl, by decide, by decide, by unfold QuietFor; decide +kernel, by decide +kernel,
    fun m c hm hc => h m hm c hc⟩

/-- Every byte of TX written but the check byte of a write datagram. -/
def framable (w : Word) : State := { entered w with mem := txCells [0x05, 0x00, 0x6C, 1, 2, 3, 4] }

/-- Every byte of TX written but the slave byte. -/
def slaveUnwritten (w : Word) : State :=
  { entered w with mem := (txCells [0x05, 0x00, 0x6C, 1, 2, 3, 4, 5]).filter fun c => c.1 != 0x21 }

theorem witness_FramingCompletes :
    (∀ k, k < (framable 0x30).cfg.params.writeLen - 1 →
        (txByte (framable 0x30) k).isSome = true)
      ∧ ∀ k, k < (framable 0x31).cfg.params.reqLen - 1 →
        (txByte (framable 0x31) k).isSome = true := by
  decide

-- the last byte FIX reads of each datagram, and the slave byte alone
theorem witness_FramingFaultsOverUnwrittenBytes :
    (txByte (entered 0x40) 6 = none ∧ 6 < (entered 0x40).cfg.params.writeLen - 1)
      ∧ (txByte (entered 0x41) 2 = none ∧ 2 < (entered 0x41).cfg.params.reqLen - 1)
      ∧ ((entered 0x40).sub = .entry ∧ axisPin (entered 0x40) 0 = some p05 ∧ (entered 0x40).cycEn = true)
      ∧ txByte (slaveUnwritten 0x30) 1 = none ∧ 1 < (slaveUnwritten 0x30).cfg.params.writeLen - 1
      ∧ 1 < (slaveUnwritten 0x31).cfg.params.reqLen - 1
      ∧ ∀ k, k < 8 → k ≠ 1 → (txByte (slaveUnwritten 0x30) k).isSome = true := by
  decide

theorem witness_FramingIsIdempotent :
    ∃ t u, fix (framable 0x30) (framable 0x30).cfg.params.writeLen = some t
      ∧ fix t (framable 0x30).cfg.params.writeLen = some u ∧ Memory.wf (framable 0x30).mem = true :=
  ⟨_, _, rfl, rfl, by decide⟩

theorem witness_SetupCompletes :
    ((framable 0x40).sub = .entry ∧ axisPin (framable 0x40) 0 = some p05 ∧ (framable 0x40).cycEn = true
        ∧ ∀ k, k < (framable 0x40).cfg.params.writeLen - 1 → (txByte (framable 0x40) k).isSome = true)
      ∧ (framable 0x41).sub = .entry ∧ axisPin (framable 0x41) 1 = some ⟨0, 6⟩ ∧ (framable 0x41).cycEn = true
      ∧ ∀ k, k < (framable 0x41).cfg.params.reqLen - 1 →
        (txByte (framable 0x41) k).isSome = true := by
  decide

/-- `wrtxn x` with byte K's character under way, `n` cycles gone since its entry cycle. -/
def txnSendingAt (k : Nat) (n : Word) : State := { txnEntry 0x40 with sub := .sending, k := k, t0 := 1000 - n }

theorem witness_TransactionSendCycles :
    axisPin (txnEntry 0x40) 0 = some p05
      ∧ (({ txnEntry 0x40 with sub := .sendStart, k := 7 } : State).sub = .sendStart
        ∧ txByte { txnEntry 0x40 with sub := .sendStart, k := 7 } 7 = some 0x00)
      ∧ ((txnSendingAt 7 36).sub = .sending ∧ sinceT0 (txnSendingAt 7 36) < 10 * bp (txnSendingAt 7 36)
        ∧ sinceT0 (txnSendingAt 7 36) = 9 * bp (txnSendingAt 7 36))
      ∧ (∀ m, m < 10 → sinceT0 (txnSendingAt 7 39) ≠ m * bp (txnSendingAt 7 39))
      ∧ sinceT0 (txnSendingAt 7 39) < 10 * bp (txnSendingAt 7 39)
      ∧ 10 * bp (txnSendingAt 7 39) ≤ sinceT0 (txnSendingAt 7 39) + 1
      ∧ sinceT0 (txnSendingAt 7 38) + 1 < 10 * bp (txnSendingAt 7 38) := by
  decide

theorem witness_GuardHoldCycles :
    axisPin guardLast 0 = some p05 ∧ guardLast.sub = .guarding ∧ 7 = sinceT0 guardLast ∧ 7 + 1 < 2 ^ 31
      ∧ guardCycles guardLast ≤ 7 + 1 ∧ ({ guardLast with sub := .guardStart } : State).sub = .guardStart
      ∧ 0 + 1 < guardCycles { guardLast with sub := .guardStart }
      ∧ ({ guardLast with tout := true } : State).tout = true ∧ guardLast.tout = false := by
  decide

theorem witness_TurnAndRestoreComplete :
    axisPin (entered 0x41) 0 = some p05 ∧ ({ entered 0x41 with sub := .turn } : State).sub = .turn
      ∧ ({ entered 0x41 with sub := .restore } : State).sub = .restore := by
  decide

/-- `rdtxn x` in the last cycle of the reception of byte K. -/
def replyLast (k : Nat) : State := { entered 0x41 with sub := .data, t0 := 961, k := k }

-- the last cycle of the last reply byte and of the one before it, a sample (bit 7), and the last cycle but one
theorem witness_ReplyByteIsStored :
    ((replyLast 7).sub = .data ∧ axisPin (replyLast 7) 0 = some p05 ∧ sinceT0 (replyLast 7) + 1 < 2 ^ 31
        ∧ 9 * bp (replyLast 7) + 2 * half (replyLast 7) ≤ sinceT0 (replyLast 7) + 1)
      ∧ ((replyLast 7).cfg.params.replyLen ≤ (replyLast 7).k + 1
        ∧ (replyLast 6).k + 1 < (replyLast 6).cfg.params.replyLen)
      ∧ sinceT0 { replyLast 7 with t0 := 966 } = bp (replyLast 7) + half (replyLast 7) + 7 * bp (replyLast 7)
      ∧ sinceT0 { replyLast 7 with t0 := 962 } + 1 < 9 * bp (replyLast 7) + 2 * half (replyLast 7) := by
  decide

/-- `rdtxn x` in poll J of a reply byte, the line at `e`. -/
def replyPoll (j : Nat) (e : Bool) : State := { entered 0x41 with sub := .poll, j := j, inputs := [cyc none e] }

-- detection, the last poll but one, the last poll; the ends of the failure field, and the bytes beside it
theorem witness_ReplyTimeoutSetsTheFailureField :
    ((replyPoll 9 false).sub = .poll ∧ axisPin (replyPoll 9 false) 0 = some p05 ∧ line (replyPoll 9 false) p05 = false)
      ∧ (line (replyPoll 8 true) p05 = true ∧ (replyPoll 8 true).j + 1 < (replyPoll 8 true).cfg.params.rxTimeout)
      ∧ (line (replyPoll 9 true) p05 = true ∧ (replyPoll 9 true).cfg.params.rxTimeout ≤ (replyPoll 9 true).j + 1)
      ∧ 0 < (entered 0x41).cfg.params.failLen ∧ 3 < (entered 0x41).cfg.params.failLen
      ∧ ¬ (rxBase + (entered 0x41).cfg.params.failOff ≤ rxBase + 2)
      ∧ ¬ (rxBase + 7 < rxBase + (entered 0x41).cfg.params.failOff + (entered 0x41).cfg.params.failLen) := by
  decide

theorem witness_WriteTransactionRuns :
    (txnEntry 0x40).sub = .entry ∧ decode (txnEntry 0x40).cmd = .ok (.wrtxn 0)
      ∧ axisPin (txnEntry 0x40) 0 = some p05 ∧ (txnEntry 0x40).cycEn = true
      ∧ (∀ k, k < (txnEntry 0x40).cfg.params.writeLen - 1 →
        (txByte (txnEntry 0x40) k).isSome = true)
      ∧ QuietFor (1 + 10 * bp (txnEntry 0x40) * (txnEntry 0x40).cfg.params.writeLen + guardCycles (txnEntry 0x40))
        (txnEntry 0x40) :=
  ⟨rfl, by decide, by decide, rfl, by decide, by unfold QuietFor; simp [txnEntry]⟩

theorem witness_WriteTransactionWire :
    (txnEntry 0x00010040).sub = .entry ∧ decode (txnEntry 0x00010040).cmd = .ok (.wrtxn 1)
      ∧ axisPin (txnEntry 0x00010040) 1 = some ⟨0, 6⟩ ∧ (txnEntry 0x00010040).cycEn = true
      ∧ (∀ k, k < (txnEntry 0x00010040).cfg.params.writeLen - 1 →
        (txByte (txnEntry 0x00010040) k).isSome = true)
      ∧ QuietFor (1 + 10 * bp (txnEntry 0x00010040) * (txnEntry 0x00010040).cfg.params.writeLen
        + guardCycles (txnEntry 0x00010040)) (txnEntry 0x00010040) :=
  ⟨rfl, by decide, by decide, rfl, by decide, by unfold QuietFor; simp [txnEntry]⟩

/-- `rdtxn x` entering; `n` reply bytes 0x00 arrive, each at poll 1 of its RECV, and the line is 1 after them. -/
def readReply (n : Nat) : State :=
  { txnEntry 0x41 with
    inputs := List.replicate 162 (cyc none false)
      ++ (List.replicate n (cyc none true :: List.replicate 40 (cyc none false))).flatten
      ++ List.replicate 19 (cyc none true) }

/-- Each of the first `n` bytes arrives, from the evaluation of its polls and of its bits. -/
theorem readReply_arrives (n : Nat)
    (hp : ∀ k, k < n → envLater (readReply n) (replyEntry (readReply n) (fun _ => 1) k) p05 = true)
    (hb : ∀ k, k < n → ∀ m, m < 9 → ∀ c, c < bp (readReply n) →
      envLater (readReply n) (replyEntry (readReply n) (fun _ => 1) k + 1 + m * bp (readReply n) + c) p05
        = frameBit 0x00 m) :
    ∀ k, k < n → ByteArrives (readReply n) p05 (fun _ => 1) k 0x00 := fun k hk =>
  ⟨show 1 < Params.testT.rxTimeout by decide,
    fun m (hm : m < 1) => Nat.lt_one_iff.mp hm ▸ hp k hk,
    fun m c hm hc => hb k hk m hm c hc⟩

-- no byte (TR2), and a reply that stops after two (TR5, TR6)
theorem witness_ReadTransactionTimesOut :
    ∀ n, n = 0 ∨ n = 2 →
      (readReply n).sub = .entry ∧ decode (readReply n).cmd = .ok (.rdtxn 0) ∧ axisPin (readReply n) 0 = some p05
        ∧ (readReply n).cycEn = true
        ∧ (∀ k, k < (readReply n).cfg.params.reqLen - 1 → (txByte (readReply n) k).isSome = true)
        ∧ n < (readReply n).cfg.params.replyLen
        ∧ QuietFor (replyEntry (readReply n) (fun _ => 1) n + (readReply n).cfg.params.rxTimeout + 1
          + guardCycles (readReply n)) (readReply n)
        ∧ (∀ k, k < n → ByteArrives (readReply n) p05 (fun _ => 1) k 0x00)
        ∧ ∀ m, m < (readReply n).cfg.params.rxTimeout →
          envLater (readReply n) (replyEntry (readReply n) (fun _ => 1) n + m) p05 = true := by
  rintro n (rfl | rfl) <;>
    exact ⟨rfl, by decide, by decide, rfl, by decide, by decide, by unfold QuietFor; decide +kernel,
      readReply_arrives _ (by decide +kernel) (by decide +kernel), by decide +kernel⟩

theorem witness_ReadTransactionDeliversTheReply :
    (readReply 8).sub = .entry ∧ decode (readReply 8).cmd = .ok (.rdtxn 0) ∧ axisPin (readReply 8) 0 = some p05
      ∧ (readReply 8).cycEn = true
      ∧ (∀ k, k < (readReply 8).cfg.params.reqLen - 1 → (txByte (readReply 8) k).isSome = true)
      ∧ QuietFor (replyEntry (readReply 8) (fun _ => 1) (readReply 8).cfg.params.replyLen + 1
        + guardCycles (readReply 8)) (readReply 8)
      ∧ ∀ k, k < (readReply 8).cfg.params.replyLen → ByteArrives (readReply 8) p05 (fun _ => 1) k 0x00 :=
  ⟨rfl, by decide, by decide, rfl, by decide, by unfold QuietFor; decide +kernel,
    readReply_arrives 8 (by decide +kernel) (by decide +kernel)⟩

theorem witness_BitPeriodIsNearest :
    1 ≤ Params.testT.baud
      ∧ ({ Params.testT with clockHz := 72000000, baud := 19200 } : Params).clockHz = 72000000
      ∧ ({ Params.testT with clockHz := 72000000, baud := 19200 } : Params).baud = 19200 := by
  decide

end Sys2Proof.Tests
end

section
/-! The bit period and its half (00_scope.md, R7, R8). -/

namespace Sys2Proof

/-- CLOCK_HZ/BAUD is below BP + 1/2, cleared of fractions (R7). -/
theorem Params.two_clockHz_lt_bp (p : Params) (hb : 1 ≤ p.baud) :
    2 * p.clockHz < (2 * p.bp + 1) * p.baud := by
  have hlt : 2 * p.clockHz + p.baud < p.bp * (2 * p.baud) + 2 * p.baud :=
    Nat.lt_div_mul_add (Nat.mul_pos Nat.two_pos hb)
  linarith only [hlt]

/-- CLOCK_HZ/BAUD is at least BP - 1/2, cleared of fractions: an exact half goes up (R7). It needs no bound on BAUD. -/
theorem Params.two_bp_mul_baud_le (p : Params) : 2 * p.bp * p.baud ≤ 2 * p.clockHz + p.baud := by
  have hle : p.bp * (2 * p.baud) ≤ 2 * p.clockHz + p.baud := Nat.div_mul_le_self _ _
  linarith only [hle]

theorem Params.half_mul_two_le (p : Params) : p.half * 2 ≤ p.bp :=
  Nat.div_mul_le_self _ _

theorem Params.bp_le_half_mul_two_add_one (p : Params) : p.bp ≤ p.half * 2 + 1 :=
  Nat.le_of_lt_succ (Nat.lt_div_mul_add Nat.two_pos)

/-- The reference pair, 72 MHz and 19200 baud (R7, R8). -/
theorem Params.bp_half_of_reference_pair (p : Params) (hc : p.clockHz = 72000000) (hb : p.baud = 19200) :
    p.bp = 3750 ∧ p.half = 1875 := by
  have hbp : p.bp = 3750 := by simp [Params.bp, hc, hb]
  exact ⟨hbp, by simp [Params.half, hbp]⟩

/-- Settles O60: the two bounds on BP are the two sides of its division, and a configuration carries its own bounds. -/
theorem bitPeriodIsNearest : Obligations.BitPeriodIsNearest := by
  refine ⟨fun p hb => ?nearest, Params.bp_half_of_reference_pair, fun c => ⟨c.bp_pos, c.bp_lt⟩⟩
  case nearest =>
    exact ⟨p.two_clockHz_lt_bp hb, p.two_bp_mul_baud_le, p.half_mul_two_le, p.bp_le_half_mul_two_add_one⟩

end Sys2Proof
end

section
/-! The invariant across a whole step: the running command, by its kind (10_state.md R25, R27, R30; 45_transaction.md). -/

namespace Sys2Proof.Machine

/-! ## The parts of the invariant -/

theorem Inv.memOk {s : State} (h : Inv s) : MemOk s := h.1

theorem Inv.modesOk {s : State} (h : Inv s) : ModesOk s := h.2.1

theorem Inv.engineOk {s : State} (h : Inv s) : EngineOk s := h.2.2

theorem Inv.k_le {s : State} (h : Inv s) : s.k ≤ 8 := h.engineOk.1

/-- In an entry cycle IRQ_SUPPRESS is 0 (R129). -/
theorem Inv.irqSuppress_of_entry {s : State} (h : Inv s) (hs : s.sub = .entry) : s.irqSuppress = false := by
  obtain ⟨-, -, hentry, -⟩ := h.engineOk
  exact (hentry hs).1

/-! ## The invariant read at a running command -/

/-- While a command runs ERR reads 0 (R27). -/
theorem EngineOk.err_of_busy {s : State} {i : Instr} (he : EngineOk s) (hb : s.busy = true)
    (hd : decode s.cmd = .ok i) : s.err = .ok := by
  rcases sub_mem_or_entry he hb hd with ⟨-, -, herr⟩ | ⟨-, -, -, herr, -⟩ <;> exact herr

/-- Outside the transactions IRQ_SUPPRESS is 0 (R129). -/
theorem EngineOk.irqSuppress_of_no_axis {s : State} {i : Instr} (he : EngineOk s) (hb : s.busy = true)
    (hd : decode s.cmd = .ok i) (ha : axisOf i = none) : s.irqSuppress = false := by
  rcases sub_mem_or_entry he hb hd with ⟨-, hirq, -⟩ | ⟨-, -, -, -, hirq, -⟩
  · exact hirq
  · rw [hirq, ha]; rfl

/-- A command in a sub-operation of its own has passed its entry checks. -/
theorem EngineOk.checks_of_mem {s : State} {i : Instr} (he : EngineOk s) (hb : s.busy = true)
    (hd : decode s.cmd = .ok i) (hs : s.sub ∈ subOps i) : entryError i s = .ok := by
  rcases sub_mem_or_entry he hb hd with ⟨hentry, -⟩ | ⟨-, hok, -⟩
  · rw [hentry] at hs; cases i <;> simp [subOps] at hs
  · exact hok

/-- A command in none of its later sub-operations is in its entry cycle (R83). -/
theorem EngineOk.entry_of_not_mem {s : State} {i : Instr} (he : EngineOk s) (hb : s.busy = true)
    (hd : decode s.cmd = .ok i) (hs : s.sub ∉ subOps i) : s.sub = .entry ∧ s.irqSuppress = false := by
  rcases sub_mem_or_entry he hb hd with ⟨hentry, hirq, -⟩ | ⟨hmem, -⟩
  · exact ⟨hentry, hirq⟩
  · exact absurd hmem hs

/-- Retirement with IRQ_SUPPRESS = 0 keeps the invariant (R25, R129). -/
theorem inv_retire {s : State} (e : ErrCode) (hm : MemOk s) (hmo : ModesOk s) (hk : s.k ≤ 8)
    (hirq : s.irqSuppress = false) : Inv (retire e s) :=
  ⟨hm, hmo, EngineOk.retire e hk hirq⟩

/-- So does retirement after FIX, which writes memory alone and in canonical form (R124, R125). -/
theorem inv_retire_fix {s u : State} {len : Nat} (e : ErrCode) (hi : Inv s) (hirq : s.irqSuppress = false)
    (hl : len ≤ 8) (hu : fix s len = some u) : Inv (retire e u) := by
  obtain ⟨hm, hmo, hk, -⟩ := hi
  have hslave : s.cfg.params.slaveIdx < 8 := by have := s.cfg.layout; omega
  have hwf : MemOk u := fix_wf hu hslave hl hm
  rw [fix_frame hu] at hwf ⊢
  exact inv_retire e hwf (ModesOk.congr (s := s) rfl hmo) hk hirq

/-! ## Timed commands outside transactions: WAIT, SENDB, RECVB -/

/-- A timed command other than a transaction runs, its entry checks passed. -/
structure RunsPlain (i : Instr) (s : State) : Prop where
  inv : Inv s
  dec : decode s.cmd = .ok i
  noAxis : axisOf i = none
  timed : isTimed i = true
  checks : entryError i s = .ok
  err : s.err = .ok
  irq : s.irqSuppress = false

theorem RunsPlain.of_busy {i : Instr} {s : State} (hi : Inv s) (hb : s.busy = true) (hd : decode s.cmd = .ok i)
    (ha : axisOf i = none) (ht : isTimed i = true) (hc : entryError i s = .ok) : RunsPlain i s :=
  ⟨hi, hd, ha, ht, hc, hi.engineOk.err_of_busy hb hd, hi.engineOk.irqSuppress_of_no_axis hb hd ha⟩

section
variable {i : Instr} {s t : State} (w : RunsPlain i s)
include w

theorem RunsPlain.retire (e : ErrCode) : Inv (retire e s) :=
  inv_retire e w.inv.memOk w.inv.modesOk w.inv.k_le w.irq

/-- Such a command goes on running when its cycle leaves the engine's outputs, K, the buffers and the modes. -/
theorem RunsPlain.goes_on (hH : SameHostSide s t) (hT : SameTimer s t) (hE : t.err = s.err)
    (hI : t.irqSuppress = s.irqSuppress) (hk : t.k = s.k) (hm : t.mem = s.mem) (hmo : ModesOk t)
    (hsub : t.sub ∈ subOps i) : RunsPlain i t := by
  obtain ⟨hcfg, hcmd, harg, -⟩ := hH
  have hdec : decode t.cmd = .ok i := by rw [hcmd]; exact w.dec
  have hchk : entryError i t = .ok := by rw [entryError_congr hcfg harg hT.2]; exact w.checks
  have herr : t.err = .ok := by rw [hE]; exact w.err
  have hirq : t.irqSuppress = false := by rw [hI]; exact w.irq
  have hmem : MemOk t := by unfold MemOk; rw [hm]; exact w.inv.memOk
  obtain ⟨hx, hp⟩ := Machine.noAxis (t := t) w.noAxis
  have heng : EngineOk t :=
    EngineOk.mid (by rw [hk]; exact w.inv.k_le) hdec hsub hchk (timedCyc w.timed hchk) herr
      (by rw [hirq, w.noAxis]; rfl) hx hp
  exact ⟨⟨hmem, hmo, heng⟩, hdec, w.noAxis, w.timed, hchk, herr, hirq⟩

/-- A change of T0, J, SH or SUB alone goes on. -/
theorem RunsPlain.moves_on (t0 : Word) (j : Nat) (sh : Byte) (sub : SubOp) (hsub : sub ∈ subOps i) :
    RunsPlain i { s with t0 := t0, j := j, sh := sh, sub := sub } :=
  w.goes_on ⟨rfl, rfl, rfl, rfl, rfl, rfl, rfl⟩ ⟨rfl, rfl⟩ rfl rfl rfl rfl w.inv.modesOk hsub

theorem RunsPlain.inv_waitCycle : Inv (waitCycle s) := by
  unfold waitCycle
  split
  · exact w.retire .ok
  · exact w.inv

/-- The edge of a character goes on. -/
theorem RunsPlain.sendEdge (r : PinRef) (hs : s.sub ∈ subOps i) : RunsPlain i (sendEdge s r) :=
  w.goes_on (edge_SameHost s r) ⟨by simp, by simp⟩ (by simp) (by simp) (by simp) (by simp)
    (fun q => by rw [pinMode_sendEdge]; exact w.inv.modesOk q) (by simpa using hs)

/-- A character's entry cycle goes on. -/
theorem RunsPlain.sendEnter (r : PinRef) (b : Byte) (hs : SubOp.sending ∈ subOps i) :
    RunsPlain i (sendEnter s r b) :=
  w.goes_on ⟨rfl, rfl, rfl, rfl, rfl, rfl, rfl⟩ ⟨rfl, rfl⟩ rfl rfl rfl rfl
    (ModesOk.drv r false (ModesOk.congr (s := s) rfl w.inv.modesOk)) hs

theorem RunsPlain.inv_recvPoll (r : PinRef) (hs : s.sub ∈ subOps i) (hdata : SubOp.data ∈ subOps i) :
    Inv (recvbDeliver (recvPoll s r)) := by
  rcases recvPoll_cases s r with ⟨-, e⟩ | ⟨-, -, e⟩ | ⟨-, -, e⟩ <;> rw [e]
  case inl => exact (w.moves_on s.cyccnt s.j s.sh .data hdata).inv
  case inr.inl => exact (w.moves_on s.t0 (s.j + 1) s.sh s.sub hs).inv
  case inr.inr => exact inv_retire .rxTimeout w.inv.memOk w.inv.modesOk w.inv.k_le w.irq

theorem RunsPlain.inv_recvData (r : PinRef) (hs : s.sub ∈ subOps i) : Inv (recvbDeliver (recvData s r)) := by
  have hsample : RunsPlain i (recvSample s r) := by
    have hframe : recvSample s r = { s with t0 := s.t0, j := s.j, sh := (recvSample s r).sh, sub := s.sub } := by
      unfold recvSample; split <;> rfl
    rw [hframe]; exact w.moves_on _ _ _ _ hs
  rcases recvData_cases s r with ⟨-, e⟩ | ⟨-, e⟩ <;> rw [e]
  case inl => exact hsample.inv
  case inr => exact inv_retire .ok hsample.inv.memOk hsample.inv.modesOk hsample.inv.k_le hsample.irq

end

/-! ## Transactions after their entry cycle -/

/-- A transaction runs on pin `r`, past its entry cycle. -/
structure RunsTxn (i : Instr) (axis : BitVec 4) (r : PinRef) (s : State) : Prop where
  inv : Inv s
  dec : decode s.cmd = .ok i
  onAxis : axisOf i = some axis
  pin : axisPin s axis = some r
  checks : entryError i s = .ok
  err : s.err = .ok
  irq : s.irqSuppress = true
  index : IndexOk s i
  pins : TxnPinOk s i

theorem RunsTxn.of_mem {i : Instr} {axis : BitVec 4} {r : PinRef} {s : State} (hi : Inv s) (hb : s.busy = true)
    (hd : decode s.cmd = .ok i) (ha : axisOf i = some axis) (hr : axisPin s axis = some r) (hs : s.sub ∈ subOps i) :
    RunsTxn i axis r s := by
  rcases sub_mem_or_entry hi.engineOk hb hd with ⟨hentry, -⟩ | ⟨-, hchk, -, herr, hirq, hx, hp⟩
  · rw [hentry] at hs; cases i <;> simp [subOps] at hs
  · exact ⟨hi, hd, ha, hr, hchk, herr, by rw [hirq, ha]; rfl, hx, hp⟩

section
variable {i : Instr} {axis : BitVec 4} {r : PinRef} {s t : State} (w : RunsTxn i axis r s)
include w

theorem RunsTxn.index_reply (hs : s.sub = .poll ∨ s.sub = .data) : s.k < s.cfg.params.replyLen :=
  w.index.2 (by rw [w.onAxis]; rfl) hs

theorem RunsTxn.floats (hs : s.sub = .poll ∨ s.sub = .data ∨ s.sub = .restore) : pinMode s r = modeInFloat :=
  (w.pins axis r w.onAxis w.pin).2 hs

theorem RunsTxn.drives
    (hs : s.sub = .sendStart ∨ s.sub = .sending ∨ s.sub = .turn ∨ s.sub = .guardStart ∨ s.sub = .guarding) :
    pinMode s r = modeOutPp :=
  (w.pins axis r w.onAxis w.pin).1 hs

/-- A state that keeps RECV's frame and floats the pin keeps the invariant, in POLL, DATA or RESTORE. -/
theorem RunsTxn.inv_floating (hH : SameHostSide s t) (hT : SameTimer s t) (hE : t.err = s.err)
    (hI : t.irqSuppress = s.irqSuppress) (hm : MemOk t) (hmo : ModesOk t) (hpin : pinMode t r = modeInFloat)
    (hk : t.k ≤ 8) (hsub : t.sub ∈ subOps i)
    (hs : ((t.sub = .poll ∨ t.sub = .data) ∧ t.k < t.cfg.params.replyLen) ∨ t.sub = .restore) : Inv t := by
  refine ⟨hm, hmo, txn_mid w.dec w.onAxis w.pin w.checks w.err w.irq hH hT hE hI hsub hk ?index ?drives fun _ => hpin⟩
  case index =>
    rcases hs with ⟨hs, hlt⟩ | hs
    · exact IndexOk.recv hs hlt
    · exact IndexOk.none (by simp [hs])
  case drives =>
    intro hd
    rcases hs with ⟨hs | hs, -⟩ | hs <;> simp [hs] at hd

/-- TURN floats the pin and enters RECV 0 (R133, R134). -/
theorem RunsTxn.inv_turn (hpoll : SubOp.poll ∈ subOps i) : Inv (txnTurn s r) := by
  have hreply : 0 < s.cfg.params.replyLen := by have := s.cfg.reply; omega
  have hpin : pinMode (txnTurn s r) r = modeInFloat := (pinMode_makeInFloat s r r).trans (if_pos rfl)
  exact w.inv_floating ⟨rfl, rfl, rfl, rfl, rfl, rfl, rfl⟩ ⟨rfl, rfl⟩ rfl rfl w.inv.memOk (ModesOk.inp r w.inv.modesOk)
    hpin (Nat.zero_le 8) hpoll (.inl ⟨.inl rfl, hreply⟩)

/-- A poll of a reply byte: detection, another poll, or the timeout with the failure field set (R134, R135). -/
theorem RunsTxn.inv_poll (hs : s.sub = .poll) (hpoll : SubOp.poll ∈ subOps i) (hdata : SubOp.data ∈ subOps i)
    (hrestore : SubOp.restore ∈ subOps i) : Inv (txnDeliver (recvPoll s r)) := by
  have hpin := w.floats (.inl hs)
  have hlt := w.index_reply (.inl hs)
  rcases recvPoll_cases s r with ⟨-, e⟩ | ⟨-, -, e⟩ | ⟨-, -, e⟩ <;> rw [e]
  case inl =>
    exact w.inv_floating ⟨rfl, rfl, rfl, rfl, rfl, rfl, rfl⟩ ⟨rfl, rfl⟩ rfl rfl w.inv.memOk w.inv.modesOk hpin w.inv.k_le
      hdata (.inl ⟨.inr rfl, hlt⟩)
  case inr.inl =>
    exact w.inv_floating ⟨rfl, rfl, rfl, rfl, rfl, rfl, rfl⟩ ⟨rfl, rfl⟩ rfl rfl w.inv.memOk w.inv.modesOk hpin w.inv.k_le
      (hs ▸ hpoll) (.inl ⟨.inl hs, hlt⟩)
  case inr.inr =>
    have hports : (txnDeliver (s, .timeout)).ports = s.ports := txnDeliver_ports _
    exact w.inv_floating (txnDeliver_hostSide _) (txnDeliver_timer _) (failField_err s) (failField_irqSuppress s)
      (failField_wf w.inv.memOk) (ModesOk.congr hports w.inv.modesOk) ((pinMode_congr hports r).trans hpin)
      ((failField_k s).trans_le w.inv.k_le) hrestore (.inr rfl)

/-- A sample is no more than a new SH. -/
theorem RunsTxn.sample : RunsTxn i axis r (recvSample s r) := by
  have hframe : recvSample s r = { s with sh := (recvSample s r).sh } := by
    unfold recvSample; split <;> rfl
  rw [hframe]
  exact ⟨w.inv, w.dec, w.onAxis, w.pin, w.checks, w.err, w.irq, w.index, w.pins⟩

/-- A delivered reply byte is stored, and the next RECV or RESTORE enters (R134). -/
theorem RunsTxn.inv_store (b : Byte) (hs : s.sub = .data) (hpoll : SubOp.poll ∈ subOps i)
    (hrestore : SubOp.restore ∈ subOps i) : Inv (txnDeliver (s, .byte b)) := by
  have hpin := w.floats (.inr (.inl hs))
  have hlt := w.index_reply (.inr hs)
  have hreply : s.cfg.params.replyLen ≤ 8 := by have := s.cfg.reply; omega
  have hmem : Memory.wf (setRx s s.k b).mem = true :=
    Memory.wf_write _ _ (by unfold txBase rxBase; omega) (by omega) w.inv.memOk
  have keeps : ∀ t, t = txnDeliver (s, .byte b) → MemOk t → t.err = s.err → t.irqSuppress = s.irqSuppress →
      t.k ≤ 8 → t.sub ∈ subOps i →
      (((t.sub = .poll ∨ t.sub = .data) ∧ t.k < t.cfg.params.replyLen) ∨ t.sub = .restore) → Inv t := by
    rintro t rfl hm hE hI hk hsub hcase
    have hports : (txnDeliver (s, .byte b)).ports = s.ports := txnDeliver_ports _
    exact w.inv_floating (txnDeliver_hostSide _) (txnDeliver_timer _) hE hI hm (ModesOk.congr hports w.inv.modesOk)
      ((pinMode_congr hports r).trans hpin) hk hsub hcase
  by_cases hnext : s.k + 1 < s.cfg.params.replyLen
  case pos =>
    have e : txnDeliver (s, .byte b) = { recvEnter (setRx s s.k b) with k := s.k + 1 } := if_pos hnext
    rw [e] at keeps ⊢
    exact keeps _ rfl hmem rfl rfl (by simp; omega) hpoll (.inl ⟨.inl rfl, hnext⟩)
  case neg =>
    have e : txnDeliver (s, .byte b) = { setRx s s.k b with k := s.k + 1, sub := .restore } := if_neg hnext
    rw [e] at keeps ⊢
    exact keeps _ rfl hmem rfl rfl (by simp; omega) hrestore (.inr rfl)

/-- A cycle after detection: the sample, and in the last cycle the byte (R114-R116). -/
theorem RunsTxn.inv_data (hs : s.sub = .data) (hpoll : SubOp.poll ∈ subOps i) (hrestore : SubOp.restore ∈ subOps i) :
    Inv (txnDeliver (recvData s r)) := by
  rcases recvData_cases s r with ⟨-, e⟩ | ⟨-, e⟩ <;> rw [e]
  case inl => exact w.sample.inv
  case inr => exact w.sample.inv_store _ (by simpa using hs) hpoll hrestore

/-- RESTORE makes the pin an output at 1 again (R136). -/
theorem RunsTxn.inv_restore (hguard : SubOp.guardStart ∈ subOps i) : Inv (txnRestore s r) := by
  have hpin : pinMode (txnRestore s r) r = modeOutPp := (pinMode_makeOutHigh s r r).trans (if_pos rfl)
  refine ⟨w.inv.memOk, ModesOk.out r w.inv.modesOk,
    txn_mid w.dec w.onAxis w.pin w.checks w.err w.irq ⟨rfl, rfl, rfl, rfl, rfl, rfl, rfl⟩ ⟨rfl, rfl⟩ rfl rfl hguard
      w.inv.k_le (IndexOk.none ?_) (fun _ => hpin) ?_⟩ <;> simp [txnRestore]

theorem RunsTxn.inv_sendStart (b : Byte) (hs : s.sub = .sendStart) (hsending : SubOp.sending ∈ subOps i) :
    Inv (sendEnter s r b) :=
  send_inv w.inv w.dec w.onAxis w.pin w.checks w.err w.irq w.index w.pins hs hsending

theorem RunsTxn.inv_sending {after : SubOp} (hs : s.sub = .sending) (hstart : SubOp.sendStart ∈ subOps i)
    (hsending : SubOp.sending ∈ subOps i) (hafter : after ∈ subOps i) (haf : after = .turn ∨ after = .guardStart) :
    Inv (txnSend s r (sendLen s i) after) :=
  txnSend_inv w.inv w.dec w.onAxis w.pin w.checks w.err w.irq w.index w.pins hs hsending hstart hafter haf

theorem RunsTxn.inv_guardStart (e : ErrCode) (hs : s.sub = .guardStart) (hguard : SubOp.guarding ∈ subOps i) :
    Inv (txnGuardStart s e) :=
  txnGuard_inv (h := { s with t0 := s.cyccnt, sub := .guarding }) w.inv.memOk w.inv.modesOk w.inv.k_le w.dec w.onAxis w.pin
    w.checks w.err w.irq (w.drives (.inr (.inr (.inr (.inl hs))))) rfl hguard

theorem RunsTxn.inv_guarding (e : ErrCode) (hs : s.sub = .guarding) (hguard : SubOp.guarding ∈ subOps i) :
    Inv (txnGuard s e) :=
  txnGuard_inv w.inv.memOk w.inv.modesOk w.inv.k_le w.dec w.onAxis w.pin w.checks w.err w.irq
    (w.drives (.inr (.inr (.inr (.inr hs))))) hs hguard

end

/-! ## Every command -/

section
variable {s t : State}

/-- A command that ends in its entry cycle with an error keeps the invariant (R145, R146). -/
theorem inv_raised {i : Instr} (e : ErrCode) (hi : Inv s) (hb : s.busy = true) (hd : decode s.cmd = .ok i)
    (hs : s.sub ∉ subOps i) : Inv (retire e s) :=
  inv_retire e hi.memOk hi.modesOk hi.k_le (hi.engineOk.entry_of_not_mem hb hd hs).2

/-- A transaction on an axis without a pin is in its entry cycle (R128). -/
theorem not_mem_subOps_of_unmapped {i : Instr} {axis : BitVec 4} (hi : Inv s) (hb : s.busy = true)
    (hd : decode s.cmd = .ok i) (ha : axisOf i = some axis) (hr : axisPin s axis = none) : s.sub ∉ subOps i := by
  intro hs
  have hpin := (entryError_eq_ok.mp (hi.engineOk.checks_of_mem hb hd hs)).2.1 axis ha
  rw [hr] at hpin; cases hpin

theorem inv_exec_wait (hi : Inv s) (hb : s.busy = true) (hd : decode s.cmd = .ok .wait)
    (h : exec .wait s = .next t) : Inv t := by
  have hmem : SubOp.waiting ∈ subOps .wait := by simp [subOps]
  have runs := RunsPlain.of_busy hi hb hd rfl rfl
  rcases execWait_cases h with ⟨hs, rfl⟩ | ⟨-, hok, rfl⟩ | ⟨hs, -, rfl⟩
  · exact (runs (hi.engineOk.checks_of_mem hb hd (hs ▸ hmem))).inv_waitCycle
  · exact ((runs hok).moves_on s.cyccnt s.j s.sh .waiting hmem).inv_waitCycle
  · exact inv_raised _ hi hb hd (by simpa [subOps] using hs)

theorem inv_exec_sendb {port : BitVec 3} {pin : BitVec 4} (hi : Inv s) (hb : s.busy = true)
    (hd : decode s.cmd = .ok (.sendb port pin)) (h : exec (.sendb port pin) s = .next t) : Inv t := by
  have hmem : SubOp.sending ∈ subOps (.sendb port pin) := by simp [subOps]
  have runs := RunsPlain.of_busy hi hb hd rfl rfl
  rcases execSendb_cases h with ⟨hs, -, rfl⟩ | ⟨hs, -, rfl⟩ | ⟨-, hok, rfl⟩ | ⟨hs, -, rfl⟩
  · exact ((runs (hi.engineOk.checks_of_mem hb hd (hs ▸ hmem))).sendEdge _ (hs ▸ hmem)).retire .ok
  · exact ((runs (hi.engineOk.checks_of_mem hb hd (hs ▸ hmem))).sendEdge _ (hs ▸ hmem)).inv
  · exact ((runs hok).sendEnter _ _ hmem).inv
  · exact inv_raised _ hi hb hd (by simpa [subOps] using hs)

theorem inv_exec_recvb {port : BitVec 3} {pin : BitVec 4} (hi : Inv s) (hb : s.busy = true)
    (hd : decode s.cmd = .ok (.recvb port pin)) (h : exec (.recvb port pin) s = .next t) : Inv t := by
  have hpoll : SubOp.poll ∈ subOps (.recvb port pin) := by simp [subOps]
  have hdata : SubOp.data ∈ subOps (.recvb port pin) := by simp [subOps]
  have runs := RunsPlain.of_busy hi hb hd rfl rfl
  rcases execRecvb_cases h with ⟨hs, rfl⟩ | ⟨hs, rfl⟩ | ⟨-, -, hok, rfl⟩ | ⟨hp, hs, -, rfl⟩
  · exact (runs (hi.engineOk.checks_of_mem hb hd (hs ▸ hpoll))).inv_recvPoll _ (hs ▸ hpoll) hdata
  · exact (runs (hi.engineOk.checks_of_mem hb hd (hs ▸ hdata))).inv_recvData _ (hs ▸ hdata)
  · exact ((runs hok).moves_on s.t0 0 s.sh .poll hpoll).inv_recvPoll _ hpoll hdata
  · exact inv_raised _ hi hb hd (by simpa [subOps] using ⟨hp, hs⟩)

theorem inv_exec_wrtxn {axis : BitVec 4} (hi : Inv s) (hb : s.busy = true) (hd : decode s.cmd = .ok (.wrtxn axis))
    (h : exec (.wrtxn axis) s = .next t) : Inv t := by
  rcases execWrtxn_cases h with ⟨hr, rfl⟩ | ⟨r, hr, hc⟩
  · exact inv_raised _ hi hb hd (not_mem_subOps_of_unmapped hi hb hd rfl hr)
  have runs : s.sub ∈ subOps (.wrtxn axis) → RunsTxn (.wrtxn axis) axis r s := RunsTxn.of_mem hi hb hd rfl hr
  cases hc with
  | sendStart hs _ => exact (runs (by simp [hs, subOps])).inv_sendStart _ hs (by simp [subOps])
  | sending hs =>
    exact (runs (by simp [hs, subOps])).inv_sending hs (by simp [subOps]) (by simp [subOps]) (by simp [subOps])
      (.inr rfl)
  | guardStart hs => exact (runs (by simp [hs, subOps])).inv_guardStart _ hs (by simp [subOps])
  | guarding hs => exact (runs (by simp [hs, subOps])).inv_guarding _ hs (by simp [subOps])
  | setup _ he hu =>
    exact setup_inv hi.memOk hi.modesOk hd rfl hr he (hi.engineOk.err_of_busy hb hd) (by simp [subOps]) s.tout hu
  | raised hs _ => exact inv_raised _ hi hb hd hs

theorem inv_exec_rdtxn {axis : BitVec 4} (hi : Inv s) (hb : s.busy = true) (hd : decode s.cmd = .ok (.rdtxn axis))
    (h : exec (.rdtxn axis) s = .next t) : Inv t := by
  rcases execRdtxn_cases h with ⟨hr, rfl⟩ | ⟨r, hr, hc⟩
  · exact inv_raised _ hi hb hd (not_mem_subOps_of_unmapped hi hb hd rfl hr)
  have runs : s.sub ∈ subOps (.rdtxn axis) → RunsTxn (.rdtxn axis) axis r s := RunsTxn.of_mem hi hb hd rfl hr
  cases hc with
  | sendStart hs _ => exact (runs (by simp [hs, subOps])).inv_sendStart _ hs (by simp [subOps])
  | sending hs =>
    exact (runs (by simp [hs, subOps])).inv_sending hs (by simp [subOps]) (by simp [subOps]) (by simp [subOps])
      (.inl rfl)
  | turn hs => exact (runs (by simp [hs, subOps])).inv_turn (by simp [subOps])
  | poll hs =>
    exact (runs (by simp [hs, subOps])).inv_poll hs (by simp [subOps]) (by simp [subOps]) (by simp [subOps])
  | data hs => exact (runs (by simp [hs, subOps])).inv_data hs (by simp [subOps]) (by simp [subOps])
  | restore hs => exact (runs (by simp [hs, subOps])).inv_restore (by simp [subOps])
  | guardStart hs => exact (runs (by simp [hs, subOps])).inv_guardStart _ hs (by simp [subOps])
  | guarding hs => exact (runs (by simp [hs, subOps])).inv_guarding _ hs (by simp [subOps])
  | setup _ he hu =>
    exact setup_inv hi.memOk hi.modesOk hd rfl hr he (hi.engineOk.err_of_busy hb hd) (by simp [subOps]) false hu
  | raised hs _ => exact inv_raised _ hi hb hd hs

/-- Every cycle of every command keeps the invariant. -/
theorem inv_exec {i : Instr} (hi : Inv s) (hb : s.busy = true) (hd : decode s.cmd = .ok i)
    (h : exec i s = .next t) : Inv t := by
  have ⟨hm, hmo, heng⟩ := hi
  have hk : s.k ≤ 8 := heng.1
  have hirq := heng.irqSuppress_of_no_axis hb hd
  have hlayout := s.cfg.layout
  have ends : axisOf i = none → ∀ e, Inv (retire e s) := fun ha e => inv_retire e hm hmo hk (hirq ha)
  cases i with
  | nop => rw [execNop_eq] at h; cases h; exact ends rfl _
  | init => rw [execInit_eq] at h; cases h; exact inv_retire _ hm hmo hk (hirq rfl)
  | now =>
    rcases execNow_cases h with ⟨-, rfl⟩ | ⟨-, rfl⟩
    · exact inv_retire _ hm hmo hk (hirq rfl)
    · exact ends rfl _
  | elapsed =>
    rcases execElapsed_cases h with ⟨-, rfl⟩ | ⟨-, rfl⟩
    · exact inv_retire _ hm hmo hk (hirq rfl)
    · exact ends rfl _
  | wait => exact inv_exec_wait hi hb hd h
  | setmode port pin mode =>
    rcases execSetmode_cases h with ⟨-, -, rfl⟩ | ⟨-, -, rfl⟩ | ⟨-, rfl⟩
    · exact inv_retire _ hm (ModesOk.out _ hmo) hk (hirq rfl)
    · exact inv_retire _ hm (ModesOk.inp _ hmo) hk (hirq rfl)
    · exact ends rfl _
  | setlvl port pin lvl =>
    rcases execSetlvl_cases h with ⟨-, rfl⟩ | ⟨-, rfl⟩
    · exact inv_retire _ hm (ModesOk.drv _ _ hmo) hk (hirq rfl)
    · exact ends rfl _
  | getlvl port pin =>
    rcases execGetlvl_cases h with ⟨-, rfl⟩ | ⟨-, rfl⟩
    · exact inv_retire _ hm hmo hk (hirq rfl)
    · exact ends rfl _
  | sendb port pin => exact inv_exec_sendb hi hb hd h
  | recvb port pin => exact inv_exec_recvb hi hb hd h
  | framew =>
    obtain ⟨u, hu, rfl⟩ := execFramew_cases h
    exact inv_retire_fix _ hi (hirq rfl) (by omega) hu
  | framer =>
    obtain ⟨u, hu, rfl⟩ := execFramer_cases h
    exact inv_retire_fix _ hi (hirq rfl) (by omega) hu
  | wrtxn axis => exact inv_exec_wrtxn hi hb hd h
  | rdtxn axis => exact inv_exec_rdtxn hi hb hd h

/-- An undecodable word runs in its entry cycle alone (R74). -/
theorem EngineOk.entry_of_undecodable {e : IllegalWord} (he : EngineOk s) (hb : s.busy = true)
    (hd : decode s.cmd = .error e) : s.sub = .entry := by
  by_contra hs
  obtain ⟨-, -, -, hrun⟩ := he
  obtain ⟨i, hi, -⟩ := hrun ((busy_iff s).mp hb) hs
  rw [hd] at hi; cases hi

theorem serve_keeps_busy {h : State} (hb : s.busy = true) (hs : serve s = .next h) : h.busy = true := by
  obtain ⟨o, d, rfl⟩ := serve_busy hb hs
  exact hb

/-- Every pin floats after reset (R36, R42). -/
theorem pinMode_reset (r : PinRef) : pinMode State.reset r = modeInFloat := by
  have hall : ∀ i : BitVec 4, Port.reset.mode i.toNat = modeInFloat := by decide
  unfold pinMode
  rw [reset_port]
  exact hall r.pin

theorem modesOk_reset : ModesOk State.reset := fun r => by rw [pinMode_reset]; rfl

theorem inv_reset : Inv State.reset :=
  ⟨Memory.wf_reset, modesOk_reset, EngineOk.idle (Nat.zero_le 8) rfl rfl⟩

theorem inv_resetCycle (s : State) : Inv (resetCycle s) :=
  ⟨Memory.wf_reset, ModesOk.congr (s := State.reset) rfl modesOk_reset, EngineOk.idle (Nat.zero_le 8) rfl rfl⟩

end

end Sys2Proof.Machine

namespace Sys2Proof

open Machine

/-- Settles O14: reset, the host access, the running command and the counter each keep the invariant. -/
theorem everyStepKeepsTheInvariant : Obligations.EveryStepKeepsTheInvariant := by
  intro s t hi h
  rcases step_cases h with ⟨-, rfl⟩ | ⟨-, u, hu, hcase⟩
  · exact inv_resetCycle s
  have hiu : Inv u := serve_inv hi hu
  rcases hcase with ⟨-, rfl⟩ | ⟨hb, ⟨e, he⟩, rfl⟩ | ⟨hb, i, v, hd, hv, rfl⟩
  case inl => exact Inv_endCycle false hiu
  case inr.inl =>
    have hentry := hiu.engineOk.entry_of_undecodable (serve_keeps_busy hb hu) he
    exact Inv_endCycle false (inv_retire _ hiu.memOk hiu.modesOk hiu.k_le (hiu.irqSuppress_of_entry hentry))
  case inr.inr => exact Inv_endCycle _ (inv_exec hiu (serve_keeps_busy hb hu) hd hv)

end Sys2Proof
end

section
/-! What a whole cycle can change: the configuration, CYC_EN, RESULT and IRQ_SUPPRESS, and where it can stop
(10_state.md R24, R33, R39, R44; 44_framer.md R126). -/

namespace Sys2Proof.Machine

/-! ## RESULT and IRQ_SUPPRESS through a command's cycle -/

theorem SameOutputs.trans {s t u : State} (h1 : SameOutputs s t) (h2 : SameOutputs t u) : SameOutputs s u :=
  ⟨h2.1.trans h1.1, h2.2.trans h1.2⟩

theorem waitCycle_outputs (s : State) : SameOutputs s (waitCycle s) := by
  unfold waitCycle; split <;> exact ⟨rfl, rfl⟩

theorem fix_outputs {s t : State} {len : Nat} (h : fix s len = some t) : SameOutputs s t := by
  rw [fix_frame h]; exact ⟨rfl, rfl⟩

theorem sendEdge_outputs (s : State) (r : PinRef) : SameOutputs s (sendEdge s r) := ⟨by simp, by simp⟩

theorem txnSend_outputs (s : State) (r : PinRef) (len : Nat) (after : SubOp) :
    SameOutputs s (txnSend s r len after) := by
  unfold txnSend SameOutputs; split <;> simp

theorem recvPoll_outputs (s : State) (r : PinRef) : SameOutputs s (recvPoll s r).1 := by
  rcases recvPoll_cases s r with ⟨-, e⟩ | ⟨-, -, e⟩ | ⟨-, -, e⟩ <;> rw [e] <;> exact ⟨rfl, rfl⟩

theorem recvData_outputs (s : State) (r : PinRef) : SameOutputs s (recvData s r).1 := by
  rcases recvData_cases s r with ⟨-, e⟩ | ⟨-, e⟩ <;> rw [e] <;> exact ⟨by simp, by simp⟩

theorem txnDeliver_outputs (p : State × RecvOutcome) : SameOutputs p.1 (txnDeliver p) := by
  obtain ⟨s, o⟩ := p
  cases o with
  | running => exact ⟨rfl, rfl⟩
  | byte b => simp only [txnDeliver]; split <;> exact ⟨rfl, rfl⟩
  | timeout => exact ⟨by simp [txnDeliver], by simp [txnDeliver]⟩

/-- RECVB writes RESULT, never IRQ_SUPPRESS (R117). -/
theorem recvbDeliver_irqSuppress (p : State × RecvOutcome) :
    (recvbDeliver p).irqSuppress = p.1.irqSuppress := by
  obtain ⟨s, o⟩ := p
  cases o <;> rfl

/-- In the last cycle of the guard IRQ_SUPPRESS falls and the transaction retires (R132). -/
theorem txnGuard_outputs (s : State) (e : ErrCode) :
    SameOutputs s (txnGuard s e)
      ∨ ((txnGuard s e).result = s.result ∧ (txnGuard s e).irqSuppress = false ∧ (txnGuard s e).sub = .idle) := by
  unfold txnGuard
  split
  · exact .inr ⟨rfl, rfl, rfl⟩
  · exact .inl ⟨rfl, rfl⟩

/-- The four commands that write RESULT (R24). -/
def WritesResult (i : Instr) : Prop :=
  i = .now ∨ i = .elapsed ∨ (∃ p q, i = .getlvl p q) ∨ ∃ p q, i = .recvb p q

/-- What the cycle of a transaction that changes IRQ_SUPPRESS is: SETUP, or the last of the guard (R130, R132). -/
def SwitchesIrq (i : Instr) (s t : State) : Prop :=
  (s.sub ∉ subOps i ∧ t.irqSuppress = true) ∨ (t.irqSuppress = false ∧ t.sub = .idle)

/-- A command's cycle leaves RESULT and IRQ_SUPPRESS, but for the writers of RESULT and for the two ends of a
transaction (R24, R39). -/
theorem exec_outputs {i : Instr} {s t : State} (h : exec i s = .next t) :
    SameOutputs s t ∨ (WritesResult i ∧ t.irqSuppress = s.irqSuppress)
      ∨ ((∃ axis, axisOf i = some axis) ∧ t.result = s.result ∧ SwitchesIrq i s t) := by
  cases i with
  | nop => rw [execNop_eq] at h; cases h; exact .inl ⟨rfl, rfl⟩
  | init => rw [execInit_eq] at h; cases h; exact .inl ⟨rfl, rfl⟩
  | now => rcases execNow_cases h with ⟨-, rfl⟩ | ⟨-, rfl⟩ <;> exact .inr (.inl ⟨.inl rfl, rfl⟩)
  | elapsed => rcases execElapsed_cases h with ⟨-, rfl⟩ | ⟨-, rfl⟩ <;> exact .inr (.inl ⟨.inr (.inl rfl), rfl⟩)
  | wait =>
    rcases execWait_cases h with ⟨-, rfl⟩ | ⟨-, -, rfl⟩ | ⟨-, -, rfl⟩
    · exact .inl (waitCycle_outputs s)
    · exact .inl (SameOutputs.trans ⟨rfl, rfl⟩ (waitCycle_outputs _))
    · exact .inl ⟨rfl, rfl⟩
  | setmode _ _ _ =>
    rcases execSetmode_cases h with ⟨-, -, rfl⟩ | ⟨-, -, rfl⟩ | ⟨-, rfl⟩ <;> exact .inl ⟨rfl, rfl⟩
  | setlvl _ _ _ => rcases execSetlvl_cases h with ⟨-, rfl⟩ | ⟨-, rfl⟩ <;> exact .inl ⟨rfl, rfl⟩
  | getlvl p q =>
    rcases execGetlvl_cases h with ⟨-, rfl⟩ | ⟨-, rfl⟩ <;>
      exact .inr (.inl ⟨.inr (.inr (.inl ⟨p, q, rfl⟩)), rfl⟩)
  | sendb _ _ =>
    rcases execSendb_cases h with ⟨-, -, rfl⟩ | ⟨-, -, rfl⟩ | ⟨-, -, rfl⟩ | ⟨-, -, rfl⟩
    · exact .inl ((sendEdge_outputs s _).trans ⟨rfl, rfl⟩)
    · exact .inl (sendEdge_outputs s _)
    · exact .inl ⟨rfl, rfl⟩
    · exact .inl ⟨rfl, rfl⟩
  | recvb p q =>
    refine .inr (.inl ⟨.inr (.inr (.inr ⟨p, q, rfl⟩)), ?_⟩)
    rcases execRecvb_cases h with ⟨-, rfl⟩ | ⟨-, rfl⟩ | ⟨-, -, -, rfl⟩ | ⟨-, -, -, rfl⟩
    · exact (recvbDeliver_irqSuppress _).trans (recvPoll_outputs s _).2
    · exact (recvbDeliver_irqSuppress _).trans (recvData_outputs s _).2
    · exact (recvbDeliver_irqSuppress _).trans (recvPoll_outputs (recvEnter s) _).2
    · rfl
  | framew => obtain ⟨u, hu, rfl⟩ := execFramew_cases h; exact .inl ((fix_outputs hu).trans ⟨rfl, rfl⟩)
  | framer => obtain ⟨u, hu, rfl⟩ := execFramer_cases h; exact .inl ((fix_outputs hu).trans ⟨rfl, rfl⟩)
  | wrtxn axis =>
    rcases execWrtxn_cases h with ⟨-, rfl⟩ | ⟨r, -, hc⟩
    · exact .inl ⟨rfl, rfl⟩
    cases hc with
    | sendStart => exact .inl ⟨rfl, rfl⟩
    | sending => exact .inl (txnSend_outputs _ _ _ _)
    | guardStart =>
      exact (txnGuard_outputs _ _).imp (SameOutputs.trans ⟨rfl, rfl⟩) fun hg => .inr ⟨⟨axis, rfl⟩, hg.1, .inr hg.2⟩
    | guarding => exact (txnGuard_outputs _ _).imp_right fun hg => .inr ⟨⟨axis, rfl⟩, hg.1, .inr hg.2⟩
    | setup hs _ hu => exact .inr (.inr ⟨⟨axis, rfl⟩, (fix_outputs hu).1, .inl ⟨hs, rfl⟩⟩)
    | raised => exact .inl ⟨rfl, rfl⟩
  | rdtxn axis =>
    rcases execRdtxn_cases h with ⟨-, rfl⟩ | ⟨r, -, hc⟩
    · exact .inl ⟨rfl, rfl⟩
    cases hc with
    | sending => exact .inl (txnSend_outputs _ _ _ _)
    | poll => exact .inl ((recvPoll_outputs s r).trans (txnDeliver_outputs _))
    | data => exact .inl ((recvData_outputs s r).trans (txnDeliver_outputs _))
    | guardStart =>
      exact (txnGuard_outputs _ _).imp (SameOutputs.trans ⟨rfl, rfl⟩) fun hg => .inr ⟨⟨axis, rfl⟩, hg.1, .inr hg.2⟩
    | guarding => exact (txnGuard_outputs _ _).imp_right fun hg => .inr ⟨⟨axis, rfl⟩, hg.1, .inr hg.2⟩
    | setup hs _ hu => exact .inr (.inr ⟨⟨axis, rfl⟩, (fix_outputs hu).1, .inl ⟨hs, rfl⟩⟩)
    | sendStart | turn | restore | raised => exact .inl ⟨rfl, rfl⟩

/-! ## The same through a whole step -/

section
variable {s t : State}

/-- A cycle without RESET leaves RESULT and IRQ_SUPPRESS, but for the command that runs in it. -/
theorem step_outputs (hr : (currentInput s).reset = false) (h : step s = .next t) :
    SameOutputs s t
      ∨ (s.busy = true ∧ ∃ i, decode s.cmd = .ok i
          ∧ ((WritesResult i ∧ t.irqSuppress = s.irqSuppress)
            ∨ ((∃ axis, axisOf i = some axis) ∧ t.result = s.result ∧ SwitchesIrq i s t))) := by
  rcases step_cases h with ⟨hreset, -⟩ | ⟨-, u, hu, hcase⟩
  · rw [hr] at hreset; cases hreset
  obtain ⟨-, hres, -, -, hirq, -⟩ := serve_frame hu
  have served : SameOutputs s u := ⟨hres, hirq⟩
  rcases hcase with ⟨-, rfl⟩ | ⟨-, -, rfl⟩ | ⟨hb, i, v, hd, hv, rfl⟩
  case inl => exact .inl (served.trans ⟨by simp, by simp⟩)
  case inr.inl => exact .inl (served.trans ⟨by simp, by simp⟩)
  case inr.inr =>
    rw [busy_cmd hb hu] at hd
    have hsub : u.sub = s.sub := by obtain ⟨o, d, rfl⟩ := serve_busy hb hu; rfl
    rcases exec_outputs hv with hsame | ⟨hw, hirqv⟩ | ⟨haxis, hresv, hsw⟩
    · exact .inl (served.trans (hsame.trans ⟨by simp, by simp⟩))
    · exact .inr ⟨hb, i, hd, .inl ⟨hw, by simpa [hirq] using hirqv⟩⟩
    · exact .inr ⟨hb, i, hd, .inr ⟨haxis, by simpa [hres] using hresv, by simpa [SwitchesIrq, hsub] using hsw⟩⟩

theorem step_cfg (h : step s = .next t) : t.cfg = s.cfg := by
  rcases step_cases h with ⟨-, rfl⟩ | ⟨-, u, hu, hcase⟩
  · rfl
  have hcfg : u.cfg = s.cfg := (serve_frame hu).1
  rcases hcase with ⟨-, rfl⟩ | ⟨-, -, rfl⟩ | ⟨-, i, v, -, hv, rfl⟩
  · rw [endCycle_cfg, hcfg]
  · rw [endCycle_cfg, retire_cfg, hcfg]
  · rw [endCycle_cfg, (exec_hostSide hv).1, hcfg]

/-- CYC_EN is 1 after a command's cycle if it was before or the command is INIT (R33, R87). -/
theorem exec_cycEn {i : Instr} (h : exec i s = .next t) : t.cycEn = true ↔ s.cycEn = true ∨ i = .init := by
  by_cases hi : i = .init
  · subst hi
    rw [execInit_eq] at h; cases h
    simp
  · rw [(exec_timer h hi).2]
    simp [hi]

/-- CYC_EN is 1 after a cycle without RESET if it was before or the cycle performs INIT (R33). -/
theorem step_cycEn (hr : (currentInput s).reset = false) (h : step s = .next t) :
    t.cycEn = true ↔ s.cycEn = true ∨ (s.busy = true ∧ decode s.cmd = .ok .init) := by
  rcases step_cases h with ⟨hreset, -⟩ | ⟨-, u, hu, hcase⟩
  · rw [hr] at hreset; cases hreset
  obtain ⟨-, -, -, hen, -⟩ := serve_frame hu
  rcases hcase with ⟨hb, rfl⟩ | ⟨hb, ⟨e, he⟩, rfl⟩ | ⟨hb, i, v, hd, hv, rfl⟩
  · simp [hen, hb]
  · rw [busy_cmd hb hu] at he
    simp [hen, he]
  · rw [busy_cmd hb hu] at hd
    rw [endCycle_cycEn, exec_cycEn hv, hen, hd]
    simp [hb]

/-- The engine's part of a cycle stops only where exec faults. -/
theorem engineCycle_stops (s : State) :
    (∀ r, engineCycle s ≠ .refused r)
      ∧ ∀ f, engineCycle s = .fault f → ∃ i, decode s.cmd = .ok i ∧ exec i s = .fault f := by
  unfold engineCycle
  split
  · exact ⟨nofun, nofun⟩
  · rename_i i hi
    cases hx : exec i s with
    | next t => exact ⟨nofun, nofun⟩
    | fault g => exact ⟨nofun, fun f h => ⟨i, hi, by cases h; exact hx⟩⟩
    | refused r => exact absurd hx ((exec_stops i s).1 r)

/-- The two ways a step stops: at the host access, or in the running command; no step is refused. -/
theorem step_stops (s : State) :
    (∀ r, step s ≠ .refused r)
      ∧ ∀ f, step s = .fault f → serve s = .fault f
          ∨ ∃ u i, serve s = .next u ∧ s.busy = true ∧ decode u.cmd = .ok i ∧ exec i u = .fault f := by
  cases hr : (currentInput s).reset with
  | true =>
    have hstep : step s = .next (resetCycle s) := if_pos hr
    rw [hstep]; exact ⟨nofun, nofun⟩
  | false =>
    cases hu : serve s with
    | refused r => exact absurd hu (serve_ne_refused s r)
    | fault g =>
      have hstep : step s = .fault g := by simp [step, hr, hu]
      rw [hstep]; exact ⟨nofun, fun f h => .inl h⟩
    | next u =>
      cases hb : s.busy with
      | false => rw [idle_step hr hb hu]; exact ⟨nofun, nofun⟩
      | true =>
        have hstep : step s = engineCycle u := by simp [step, hr, hu, hb]
        obtain ⟨hrefused, hfault⟩ := engineCycle_stops u
        rw [hstep]
        refine ⟨hrefused, fun f h => .inr ?_⟩
        obtain ⟨i, hi, hx⟩ := hfault f h
        exact ⟨u, i, rfl, rfl, hi, hx⟩

end

/-! ## FIX over unwritten bytes -/

section
variable {s : State} {len k : Nat}

theorem frame_unwritten (hn : txByte s k = none) (hk : k < len - 1) : frame len s = .fault .unwrittenTx := by
  simp [frame, fix_none hn hk]

theorem txnSetup_unwritten (r : PinRef) (hn : txByte s k = none) (hk : k < len - 1) :
    txnSetup s len r = .fault .unwrittenTx := by
  simp [txnSetup, fix_none hn hk]

/-- FRAMEW and FRAMER have no entry check that fails: each is its FIX (R124, R125). -/
theorem execFramew_frame (s : State) : exec .framew s = frame s.cfg.params.writeLen s :=
  entering_ok _ (entryError_plain s (.inr (.inr (.inl rfl))))

theorem execFramer_frame (s : State) : exec .framer s = frame s.cfg.params.reqLen s :=
  entering_ok _ (entryError_plain s (.inr (.inr (.inr rfl))))

end

theorem axisOf_eq_some {i : Instr} {axis : BitVec 4} (h : axisOf i = some axis) : i = .wrtxn axis ∨ i = .rdtxn axis := by
  cases i <;> simp only [axisOf, reduceCtorEq, Option.some.injEq] at h
  · exact .inl (by rw [h])
  · exact .inr (by rw [h])

/-- In a state that meets the invariant no transaction sends an unwritten byte, so a command faults in its entry
cycle (R43, R126). -/
theorem exec_fault_of_inv {i : Instr} {s : State} {f : Fault} (hi : Inv s) (hb : s.busy = true)
    (hd : decode s.cmd = .ok i) (h : exec i s = .fault f) :
    f = .unwrittenTx ∧ s.sub = .entry ∧ (i = .framew ∨ i = .framer ∨ ∃ axis, i = .wrtxn axis ∨ i = .rdtxn axis) := by
  obtain ⟨hf, hcmd⟩ := (exec_stops i s).2 f h
  refine ⟨hf, ?_, ?_⟩
  case refine_2 =>
    rcases hcmd with hw | hr | ⟨axis, htxn, -⟩
    · exact .inl hw
    · exact .inr (.inl hr)
    · exact .inr (.inr ⟨axis, htxn⟩)
  rcases sub_mem_or_entry hi.engineOk hb hd with ⟨hentry, -⟩ | ⟨hmem, -, -, -, -, hx, -⟩
  · exact hentry
  exfalso
  rcases hcmd with rfl | rfl | ⟨axis, htxn, hnot | ⟨hs, hbyte⟩⟩
  · simp [subOps] at hmem
  · simp [subOps] at hmem
  · exact hnot hmem
  · have haxis : (axisOf i).isSome = true := by rcases htxn with rfl | rfl <;> rfl
    obtain ⟨hk, hwritten⟩ := hx.1 haxis (.inl hs)
    have := hwritten s.k hk
    rw [hbyte] at this; cases this

end Sys2Proof.Machine

namespace Sys2Proof

open Machine

/-- Settles O9: neither reset, nor the host access, nor the running command, nor the counter writes it. -/
theorem configurationNeverChanges : Obligations.ConfigurationNeverChanges := fun _ _ h => step_cfg h

/-- Settles O11: reset, or the writers among the running command's cycles. -/
theorem resultWritersAreFour : Obligations.ResultWritersAreFour := by
  intro s t h hne
  cases hr : (currentInput s).reset with
  | true =>
    refine .inl ⟨rfl, ?_⟩
    rcases step_cases h with ⟨-, rfl⟩ | ⟨hno, -⟩
    · rfl
    · rw [hr] at hno; cases hno
  | false =>
    rcases step_outputs hr h with hsame | ⟨hb, i, hd, ⟨hw, -⟩ | ⟨-, hres, -⟩⟩
    · exact absurd hsame.1 hne
    · exact .inr ⟨hb, i, hd, hw⟩
    · exact absurd hres hne

/-- Settles O12: SETUP, whose cycle is the entry cycle by the invariant, or the last cycle of the guard. -/
theorem irqSuppressChangesOnlyInTransactions : Obligations.IrqSuppressChangesOnlyInTransactions := by
  intro s t hi hr h hne
  rcases step_outputs hr h with hsame | ⟨hb, i, hd, ⟨-, hirq⟩ | ⟨⟨axis, ha⟩, -, hsw⟩⟩
  · exact absurd hsame.2 hne
  · exact absurd hirq hne
  have htxn : ∃ axis, decode s.cmd = .ok (.wrtxn axis) ∨ decode s.cmd = .ok (.rdtxn axis) := by
    rcases axisOf_eq_some ha with rfl | rfl
    · exact ⟨axis, .inl hd⟩
    · exact ⟨axis, .inr hd⟩
  suffices hends : (t.irqSuppress = true → s.sub = .entry) ∧ (t.irqSuppress = false → t.busy = false) from
    ⟨hb, htxn, hends⟩
  rcases hsw with ⟨hs, hup⟩ | ⟨hdown, hidle⟩
  · exact ⟨fun _ => (hi.engineOk.entry_of_not_mem hb hd hs).1, fun hdown => absurd hdown (by simp [hup])⟩
  · exact ⟨fun hup => absurd hup (by simp [hdown]), fun _ => by simp [State.busy, hidle]⟩

/-- Settles O16: a step stops at the host access or in the running command, which by the invariant is in its entry
cycle. -/
theorem stepStopsOnlyOnBusErrorOrUnwrittenFraming : Obligations.StepStopsOnlyOnBusErrorOrUnwrittenFraming := by
  intro s hi
  refine ⟨(step_stops s).1, fun f hf => ?_⟩
  rcases (step_stops s).2 f hf with hserve | ⟨u, i, hu, hb, hd, hexec⟩
  · exact .inl (serve_fault hserve)
  obtain ⟨hf', hentry, hcmd⟩ := exec_fault_of_inv (serve_inv hi hu) (serve_keeps_busy hb hu) hd hexec
  obtain ⟨o, d, rfl⟩ := serve_busy hb hu
  refine .inr ⟨hf', hentry, ?_⟩
  rcases hcmd with rfl | rfl | ⟨axis, rfl | rfl⟩
  · exact .inl hd
  · exact .inr (.inl hd)
  · exact .inr (.inr ⟨axis, .inl hd⟩)
  · exact .inr (.inr ⟨axis, .inr hd⟩)

/-- Settles O48: where FIX has no result each of the four commands faults. -/
theorem framingFaultsOverUnwrittenBytes : Obligations.FramingFaultsOverUnwrittenBytes := by
  intro s k hn
  refine ⟨fun hk => ?_, fun hk => ?_, fun axis r hs hr hc => ⟨fun hk => ?_, fun hk => ?_⟩⟩
  · rw [execFramew_frame]; exact frame_unwritten hn hk
  · rw [execFramer_frame]; exact frame_unwritten hn hk
  · rw [execWrtxn_entry hr hs hc]; exact txnSetup_unwritten r hn hk
  · rw [execRdtxn_entry hr hs hc]; exact txnSetup_unwritten (s := { s with tout := false }) r hn hk

/-- Settles O5: the host access leaves CMD while a command runs, and exec refuses nothing. -/
theorem stepRunsDecodedCommand : Obligations.StepRunsDecodedCommand := by
  intro s h t i hr hb hs hd
  have hstep : step s = engineCycle h := by simp [step, hr, hs, hb]
  have hdec : decode h.cmd = .ok i := by rw [busy_cmd hb hs]; exact hd
  refine ⟨fun hx => ?_, fun f hx => ?_, (exec_stops i h).1⟩
  · simp [hstep, engineCycle, hdec, hx]
  · simp [hstep, engineCycle, hdec, hx]

/-- Settles O13: at reset every clause of the clockwork is about another sub-operation. -/
theorem resetMeetsTheInvariants : Obligations.ResetMeetsTheInvariants :=
  ⟨inv_reset, TimingOk.quiet (.inl rfl)⟩

end Sys2Proof
end

section
/-! The host's view of the registers: STATUS, reads, writes while idle and while busy, OVR, and the reset values
(10_state.md R23-R38, R42, R50-R52; 41_pin.md R95, R100). -/

namespace Sys2Proof.Machine

/-! ## STATUS, field by field (R26) -/

/-- Bit 0 of a flag's word is the flag, the other bits are 0. -/
theorem getElem_bitWord (b : Bool) (n : Nat) (hn : n < 32) : (bitWord b)[n] = (b && decide (n = 0)) := by
  cases b <;> simp [bitWord]

/-- The bits 0 to 3 of STATUS: BUSY, OVR, CYCEN, IRQS. -/
theorem statusWord_flags (s : State) :
    (statusWord s).getLsbD 0 = s.busy ∧ (statusWord s).getLsbD 1 = s.ovr ∧ (statusWord s).getLsbD 2 = s.cycEn
      ∧ (statusWord s).getLsbD 3 = s.irqSuppress := by
  and_intros <;> simp [statusWord, getElem_bitWord]

theorem statusWord_err (s : State) : (statusWord s).extractLsb' 4 4 = s.err.code := by
  apply BitVec.eq_of_getLsbD_eq
  intro n hn
  interval_cases n <;> simp [statusWord, getElem_bitWord]

theorem statusWord_phase (s : State) : (statusWord s).extractLsb' 8 4 = (phase s).code := by
  apply BitVec.eq_of_getLsbD_eq
  intro n hn
  interval_cases n <;> simp [statusWord, getElem_bitWord]

theorem statusWord_zeros (s : State) : (statusWord s).extractLsb' 12 20 = 0 := by
  apply BitVec.eq_of_getLsbD_eq
  intro n hn
  interval_cases n <;> simp [statusWord, getElem_bitWord]

/-! ## PHASE (R40) -/

/-- PHASE reads 0 exactly when no command runs. -/
theorem phase_code_eq_zero (s : State) : (phase s).code = 0 ↔ s.sub = .idle := by
  have hentry : ∀ i, (entryPhase i).code ≠ 0 := by intro i; cases i <;> simp [entryPhase, Phase.code]
  unfold phase
  cases hs : s.sub with
  | entry =>
    simp only [reduceCtorEq, iff_false]
    cases decode s.cmd with
    | error e => simp [Phase.code]
    | ok i =>
      by_cases hok : entryError i s = .ok
      · simpa [hok] using hentry i
      · simp [hok, Phase.code]
  | idle | waiting | sendStart | sending | poll | data | turn | restore | guardStart | guarding => simp [Phase.code]

/-- PHASE in an entry cycle: EXEC for an illegal or aborted command, else the command's own (R40, R145). -/
theorem phase_entry {s : State} (hs : s.sub = .entry) :
    (∀ e, decode s.cmd = .error e → phase s = .exec)
      ∧ ∀ i, decode s.cmd = .ok i →
        (¬ PassesChecks i s → phase s = .exec) ∧ (PassesChecks i s → phase s = entryPhase i) := by
  have hchecks : ∀ i, entryError i s = .ok ↔ PassesChecks i s := fun _ => entryError_eq_ok
  unfold phase
  refine ⟨fun e hd => ?_, fun i hd => ⟨fun hno => ?_, fun hyes => ?_⟩⟩
  · simp [hs, hd]
  · simp [hs, hd, mt (hchecks i).mp hno]
  · simp [hs, hd, (hchecks i).mpr hyes]

theorem entryPhase_exec {i : Instr} (h : isTimed i = false ∨ i = .now ∨ i = .elapsed) : entryPhase i = .exec := by
  rcases h with h | rfl | rfl
  · cases i with
    | wait | sendb | recvb | wrtxn | rdtxn => cases h
    | _ => rfl
  · rfl
  · rfl

/-! ## The access of a cycle -/

/-- The three things a served access leaves: nothing but the read data gone, the value read, or the write done
(R45, R50-R52). -/
theorem serve_cases {s u : State} (h : serve s = .next u) :
    u = { s with rdata := none }
      ∨ (∃ r, u = { s with rdata := some (readReg s r) })
      ∨ ∃ addr r v, (currentInput s).access = some (.write addr 4 v) ∧ target s.cfg addr 4 = .reg r
          ∧ u = { hostWrite s v r with rdata := none } := by
  unfold serve at h
  split at h
  · cases h; exact .inl rfl
  · split at h
    · cases h; exact .inl rfl
    · cases h
    · cases h; exact .inr (.inl ⟨_, rfl⟩)
  · rename_i addr width v ha
    split at h
    · cases h; exact .inl rfl
    · cases h
    · rename_i r ht
      cases h
      obtain rfl := target_width ht
      exact .inr (.inr ⟨addr, r, v, ha, ht, rfl⟩)

theorem HostReads.serve {s : State} {r : Reg} (h : HostReads s r) :
    serve s = .next { s with rdata := some (readReg s r) } := by
  obtain ⟨-, addr, ha, ht⟩ := h
  simp [Machine.serve, ha, ht]

theorem HostWrites.serve {s : State} {r : Reg} {v : Word} (h : HostWrites s r v) :
    serve s = .next { hostWrite s v r with rdata := none } := by
  obtain ⟨-, addr, ha, ht⟩ := h
  exact serve_write ha ht

section
variable {s : State} {r : Reg} {v : Word}

theorem hostWrite_status : hostWrite s v .status = writeStatus s v := rfl

/-- A write of STATUS with bit 1 set clears OVR, one with bit 1 clear does nothing (R26). -/
theorem writeStatus_clears (hv : v.getLsbD 1 = true) : writeStatus s v = { s with ovr := false } := by
  unfold writeStatus; rw [hv, Bool.not_true, Bool.and_false]

theorem writeStatus_ignored (hv : v.getLsbD 1 = false) : writeStatus s v = s := by
  unfold writeStatus; rw [hv, Bool.not_false, Bool.and_true]

theorem hostWrite_busy (hr : r ≠ .status) (hb : s.busy = true) : hostWrite s v r = { s with ovr := true } := by
  simp [hostWrite, hr, hb]

theorem hostWrite_idle (hr : r ≠ .status) (hb : s.busy = false) : hostWrite s v r = writeReg s v r := by
  simp [hostWrite, hr, hb]

/-- A write while idle is the register's own write, then the counter (R51). -/
theorem HostWrites.step_idle (h : HostWrites s r v) (hr : r ≠ .status) (hb : s.busy = false) :
    step s = .next (endCycle false { writeReg s v r with rdata := none }) := by
  rw [← hostWrite_idle hr hb]
  exact idle_step h.1 hb h.serve

/-- A write that changes OVR alone: the cycle is that of no access, with the new OVR (R26, R28). -/
theorem HostWrites.step_ovr {o : Bool} {t : State} (h : HostWrites s r v) (hw : hostWrite s v r = { s with ovr := o })
    (ht : step (withoutAccess s) = .next t) : step s = .next { t with ovr := o } ∧ t.ovr = s.ovr := by
  have hs : Machine.serve s = .next (s.withHost o none s.inputs) := by rw [h.serve, hw]; rfl
  obtain ⟨hstep, hovr⟩ := step_served h.1 hs ht
  have hnone := rdata_without h.1 ht
  refine ⟨?_, hovr⟩
  rw [hstep, ite_self, ← hnone]

/-- A write that changes nothing: the cycle is that of no access (R49). -/
theorem HostWrites.step_ignored {t : State} (h : HostWrites s r v) (hw : hostWrite s v r = s)
    (ht : step (withoutAccess s) = .next t) : step s = .next t := by
  obtain ⟨hstep, hovr⟩ := h.step_ovr (o := s.ovr) hw ht
  rw [hstep, ← hovr]

theorem writeReg_readOnly (h : r = .result ∨ r = .cyccnt ∨ r = .bitper ∨ ∃ p, r = .idr p) : writeReg s v r = s := by
  rcases h with rfl | rfl | rfl | ⟨p, rfl⟩ <;> rfl

/-- OVR after the access of a cycle (R28): set by a refused write, cleared by a write of STATUS with bit 1 set, kept
else. -/
theorem serve_ovr {u : State} (hr : (currentInput s).reset = false) (h : serve s = .next u) :
    u.ovr = s.ovr ∨ (∃ r v, HostWrites s r v ∧ r ≠ .status ∧ s.busy = true)
      ∨ ∃ v, HostWrites s .status v ∧ v.getLsbD 1 = true := by
  rcases serve_cases h with rfl | ⟨r, rfl⟩ | ⟨addr, r, v, ha, ht, rfl⟩
  · exact .inl rfl
  · exact .inl rfl
  have hw : HostWrites s r v := ⟨hr, addr, ha, ht⟩
  by_cases hst : r = .status
  · subst hst
    cases hv : v.getLsbD 1 with
    | true => exact .inr (.inr ⟨v, hw, hv⟩)
    | false => exact .inl (by rw [hostWrite_status, writeStatus_ignored hv])
  · cases hb : s.busy with
    | true => exact .inr (.inl ⟨r, v, hw, hst, rfl⟩)
    | false => exact .inl (by rw [hostWrite_idle hst hb]; exact writeReg_ovr s v r hst)

end

/-! ## Ports -/

/-- ODR reads its sixteen bits, and zeros above (R37). -/
theorem getLsbD_readReg_odr (s : State) (p : BitVec 3) (n : Nat) :
    (readReg s (.odr p)).getLsbD n = (s.port p).odr.getLsbD n := by
  have hhigh : 16 ≤ n → (s.port p).odr.getLsbD n = false := BitVec.getLsbD_of_ge _ n
  by_cases hn : n < 32
  · simp [readReg, hn]
  · rw [hhigh (by omega), BitVec.getLsbD_of_ge _ n (by omega)]

theorem getLsbD_readReg_odr_high (s : State) (p : BitVec 3) (n : Nat) (hn : 16 ≤ n) :
    (readReg s (.odr p)).getLsbD n = false := by
  rw [getLsbD_readReg_odr]; exact BitVec.getLsbD_of_ge _ n hn

/-- A pin of another port keeps its ODR bit and its mode. -/
theorem pins_setPort_ne {s : State} {p : BitVec 3} {x : Port} {q : PinRef} (h : q.port ≠ p) :
    odrBit (s.setPort p x) q = odrBit s q ∧ pinMode (s.setPort p x) q = pinMode s q := by
  simp [odrBit, pinMode, port_setPort_ne _ _ _ _ h]

theorem Port.mode_setOdr (x : Port) (o : BitVec 16) (i : Nat) : ({ x with odr := o } : Port).mode i = x.mode i := rfl

/-- A port stored with its modes keeps every mode. -/
theorem pinMode_setPort {s : State} {p : BitVec 3} {x : Port} (hx : ∀ i, x.mode i = (s.port p).mode i) (q : PinRef) :
    pinMode (s.setPort p x) q = pinMode s q := by
  by_cases hq : q.port = p
  · simp [pinMode, hq, hx]
  · exact (pins_setPort_ne hq).2

/-- A port stored with its ODR keeps every ODR bit. -/
theorem odrBit_setPort {s : State} {p : BitVec 3} {x : Port} (hx : x.odr = (s.port p).odr) (q : PinRef) :
    odrBit (s.setPort p x) q = odrBit s q := by
  by_cases hq : q.port = p
  · simp [odrBit, hq, hx]
  · exact (pins_setPort_ne hq).1

/-- An idle write to a register of a port: that port is stored, the buffers and the other registers stand (R51). -/
theorem HostWrites.step_port {s : State} {r : Reg} {v : Word} {p : BitVec 3} {x : Port} (h : HostWrites s r v)
    (hw : writeReg s v r = s.setPort p x) (hr : r ≠ .status) (hb : s.busy = false) :
    ∃ t, step s = .next t ∧ t.ports = (s.setPort p x).ports ∧ SameBytes s t ∧ SameRegisters s t := by
  have hstep := h.step_idle hr hb
  rw [hw] at hstep
  exact ⟨_, hstep, endCycle_ports _ _, fun a => by rw [endCycle_mem]; rfl, SameRegisters.idle rfl⟩

/-- A port after an idle write of CFGH or of CFGL (R95). -/
def Port.writeCfg (x : Port) (v : Word) (high : Bool) : Port :=
  if high then { x with cfgh := warl x.cfgh v } else { x with cfgl := warl x.cfgl v }

theorem writeReg_cfg (s : State) (p : BitVec 3) (v : Word) (high : Bool) :
    writeReg s v (if high then .cfgh p else .cfgl p) = s.setPort p ((s.port p).writeCfg v high) := by
  cases high <;> rfl

theorem Port.odr_writeCfg (x : Port) (v : Word) (high : Bool) : (x.writeCfg v high).odr = x.odr := by
  cases high <;> rfl

/-- A field of the written half takes a legal mode and no other value (R95). -/
theorem Port.mode_writeCfg_of_mem (x : Port) (v : Word) (high : Bool) (i : Nat) (hi : i < 16)
    (hhalf : if high then 8 ≤ i else i < 8) :
    (x.writeCfg v high).mode i = if legalMode (getField v (i % 8)) then getField v (i % 8) else x.mode i := by
  cases high with
  | true =>
    have h8 : 8 ≤ i := hhalf
    have hmod : i % 8 = i - 8 := by omega
    rw [hmod]
    exact (Port.mode_cfgh x v i hi).trans (if_neg (by omega))
  | false =>
    have h8 : i < 8 := hhalf
    rw [Nat.mod_eq_of_lt h8]
    exact (Port.mode_cfgl x v i).trans (if_pos h8)

/-- The half that is not written keeps its modes. -/
theorem Port.mode_writeCfg_of_not_mem (x : Port) (v : Word) (high : Bool) (i : Nat) (hi : i < 16)
    (hhalf : ¬ if high then 8 ≤ i else i < 8) : (x.writeCfg v high).mode i = x.mode i := by
  cases high with
  | true => exact (Port.mode_cfgh x v i hi).trans (if_pos (Nat.lt_of_not_le hhalf))
  | false => exact (Port.mode_cfgl x v i).trans (if_neg hhalf)

/-- IDR, pin by pin, is the line (R38). -/
theorem getLsbD_readReg_idr (s : State) (p : BitVec 3) (pin : BitVec 4) :
    (readReg s (.idr p)).getLsbD pin.toNat = line s ⟨p, pin⟩ := by
  have hlt := pin.isLt
  have hbit := idr_bit s p pin.toNat (by omega)
  rw [if_pos (by omega)] at hbit
  exact hbit

theorem getLsbD_readReg_idr_high (s : State) (p : BitVec 3) (n : Nat) (hn : 16 ≤ n) :
    (readReg s (.idr p)).getLsbD n = false := by
  by_cases h32 : n < 32
  · have hbit := idr_bit s p n h32
    rw [if_neg (by omega)] at hbit
    exact hbit
  · exact BitVec.getLsbD_of_ge _ n (by omega)

end Sys2Proof.Machine

namespace Sys2Proof

open Machine

/-- Settles O10: INIT alone makes CYC_EN 1, in every cycle but a reset. -/
theorem cycEnSetByInitClearedByReset : Obligations.CycEnSetByInitClearedByReset := by
  refine ⟨rfl, fun s => (statusWord_flags s).2.2.1, fun s t h => ?_⟩
  cases hr : (currentInput s).reset with
  | true =>
    rcases step_cases h with ⟨-, rfl⟩ | ⟨hno, -⟩
    · exact ⟨fun _ => rfl, nofun, fun _ hup => (by cases hup), fun _ _ => rfl⟩
    · rw [hr] at hno; cases hno
  | false =>
    have hiff := step_cycEn hr h
    refine ⟨nofun, fun _ hb hd => hiff.mpr (.inr ⟨hb, hd⟩), fun hlow hup => ?_, fun hup hlow => ?_⟩
    · rcases hiff.mp hup with hwas | hinit
      · rw [hlow] at hwas; cases hwas
      · exact ⟨rfl, hinit⟩
    · have hnow := hiff.mpr (.inl hup)
      rw [hlow] at hnow; cases hnow

/-- Settles O24: a served read leaves OVR and everything else, so its cycle is that of no access. -/
theorem readHasNoSideEffect : Obligations.ReadHasNoSideEffect := by
  refine ⟨fun s t r h ht => ?read, fun s => ⟨rfl, rfl, rfl, rfl, rfl⟩,
    fun s p => ⟨rfl, rfl, fun pin => ⟨?mode, ?odr⟩, getLsbD_readReg_odr_high s p⟩⟩
  case read =>
    obtain ⟨hstep, hovr⟩ := step_served h.1 (o := s.ovr) (d := some (readReg s r)) h.serve ht
    rw [hstep, ite_self, ← hovr]
  case mode =>
    have hlt := pin.isLt
    unfold pinMode Port.mode
    by_cases h8 : pin.toNat < 8
    · simp [h8, readReg, Nat.mod_eq_of_lt h8]
    · have hmod : pin.toNat % 8 = pin.toNat - 8 := by omega
      simp [h8, readReg, hmod]
  case odr => rw [getLsbD_readReg_odr]; rfl

/-- Settles O26: OVR after a cycle is OVR after its access. -/
theorem ovrIsStickyAndW1C : Obligations.OvrIsStickyAndW1C := by
  intro s t h
  refine ⟨fun hr => ?reset, fun r v hw hst hb => ?refused, fun v hw hv => ?cleared, fun hr hset hclear => ?kept⟩
  case reset =>
    rcases step_cases h with ⟨-, rfl⟩ | ⟨hno, -⟩
    · rfl
    · rw [hr] at hno; cases hno
  case refused =>
    obtain ⟨u, hu, hovr⟩ := ovr_step hw.1 h
    rw [hw.serve, hostWrite_busy hst hb] at hu; cases hu
    exact hovr
  case cleared =>
    obtain ⟨u, hu, hovr⟩ := ovr_step hw.1 h
    rw [hw.serve, hostWrite_status, writeStatus_clears hv] at hu; cases hu
    exact hovr
  case kept =>
    obtain ⟨u, hu, hovr⟩ := ovr_step hr h
    rcases serve_ovr hr hu with hsame | hrefused | hcleared
    · rw [hovr, hsame]
    · exact absurd hrefused hset
    · exact absurd hcleared hclear

/-- Settles O27: the ignored writes leave the cycle of no access; an idle ODR write is a port stored with its modes. -/
theorem readOnlyRegistersIgnoreWrites : Obligations.ReadOnlyRegistersIgnoreWrites := by
  refine ⟨fun s t r v h hro ht => ?readOnly, fun s p v h hb => ?odr, fun s t v h hv ht => ?status⟩
  case readOnly =>
    have hst : r ≠ .status := by rcases hro with rfl | rfl | rfl | ⟨p, rfl⟩ <;> simp
    refine ⟨fun hb => h.step_ignored ?_ ht, fun hb => (h.step_ovr (hostWrite_busy hst hb) ht).1⟩
    rw [hostWrite_idle hst hb, writeReg_readOnly hro]
  case odr =>
    have hw : writeReg s v (.odr p) = s.setPort p { s.port p with odr := v.extractLsb' 0 16 } := rfl
    obtain ⟨t, hstep, hports, hbytes, hregs⟩ := h.step_port hw (by simp) hb
    have hport : t.port p = { s.port p with odr := v.extractLsb' 0 16 } := by
      rw [port_congr hports, port_setPort_same]
    refine ⟨t, hstep, fun n hn => ?_, getLsbD_readReg_odr_high t p, fun q hq => ?_, fun q => ?_, hbytes, hregs⟩
    · rw [getLsbD_readReg_odr, hport]
      simp [hn]
    · rw [odrBit_congr hports]; exact (pins_setPort_ne hq).1
    · rw [pinMode_congr hports]; exact pinMode_setPort (Port.mode_setOdr _ _) q
  case status =>
    have hw : hostWrite s v .status = s := writeStatus_ignored hv
    exact h.step_ignored hw ht

/-- Settles O28: an idle write of CMD is its acceptance; one of ARG stores the word. -/
theorem cmdAndArgWritesAreAccepted : Obligations.CmdAndArgWritesAreAccepted := by
  refine ⟨fun s w h hb => ⟨_, h.step_idle (by simp) hb, ?_⟩, fun s w h hb => ⟨_, h.step_idle (by simp) hb, ?_⟩⟩
  · simp [writeReg, State.busy, SameOutputs, SameBytes, SamePins]
  · simpa [writeReg, State.busy, SameOutputs, SameBytes, SamePins] using hb

/-- Settles O30: the written half is write-any-read-legal field by field, the other half and every other register
stand. -/
theorem cfgIsWriteAnyReadLegal : Obligations.CfgIsWriteAnyReadLegal := by
  intro s p v high h hb
  have hst : (if high then Reg.cfgh p else Reg.cfgl p) ≠ .status := by cases high <;> simp
  obtain ⟨t, hstep, hports, hbytes, hregs⟩ := h.step_port (writeReg_cfg s p v high) hst hb
  have hodr : ∀ q, odrBit t q = odrBit s q := fun q => by
    rw [odrBit_congr hports]; exact odrBit_setPort (Port.odr_writeCfg _ _ _) q
  have hport : t.port p = (s.port p).writeCfg v high := by rw [port_congr hports, port_setPort_same]
  have hwritten : ∀ pin : BitVec 4, (if high then 8 ≤ pin.toNat else pin.toNat < 8) →
      pinMode t ⟨p, pin⟩ =
        if legalMode (getField v (pin.toNat % 8)) then getField v (pin.toNat % 8) else pinMode s ⟨p, pin⟩ := by
    intro pin hhalf
    simp only [pinMode, hport]
    exact Port.mode_writeCfg_of_mem _ v high _ pin.isLt hhalf
  have hothers : ∀ q : PinRef, ¬ (q.port = p ∧ (if high then 8 ≤ q.pin.toNat else q.pin.toNat < 8)) →
      pinMode t q = pinMode s q := by
    rintro ⟨qp, qi⟩ hq
    by_cases hqp : qp = p
    · subst hqp
      simp only [pinMode, hport]
      exact Port.mode_writeCfg_of_not_mem _ v high _ qi.isLt fun hhalf => hq ⟨rfl, hhalf⟩
    · rw [pinMode_congr hports]; exact (pins_setPort_ne hqp).2
  refine ⟨t, hstep, hregs, hbytes, hodr, hwritten, hothers, fun hmodes q => ?_⟩
  by_cases hq : q.port = p ∧ (if high then 8 ≤ q.pin.toNat else q.pin.toNat < 8)
  · obtain ⟨rfl, hhalf⟩ := hq
    rw [hwritten q.pin hhalf]
    split
    · assumption
    · exact hmodes q
  · rw [hothers q hq]; exact hmodes q

/-- Settles O31: the level by the pin's mode, and IDR bit by bit. -/
theorem idrReadsThePinLevels : Obligations.IdrReadsThePinLevels :=
  ⟨fun _ _ => ⟨line_of_outPp, line_of_inFloat⟩,
    fun s p => ⟨getLsbD_readReg_idr s p, getLsbD_readReg_idr_high s p⟩⟩

/-- Settles O32: each field of STATUS, with the numbers of its codes. -/
theorem statusFields : Obligations.StatusFields := by
  rintro s _ _ rfl rfl
  have hflags := statusWord_flags s
  have herr : (readReg s .status).extractLsb' 4 4 = s.err.code := statusWord_err s
  have hphase : (readReg s .status).extractLsb' 8 4 = (phase s).code := statusWord_phase s
  rw [herr, hphase]
  have reads : ∀ {p : Phase}, phase s = p → (phase s).code = p.code := fun h => by rw [h]
  refine ⟨⟨hflags.1, hflags.2.1, hflags.2.2.1, hflags.2.2.2, statusWord_zeros s⟩, ?errors, ?idle, fun hs => ?entry,
    ?later⟩
  case errors => and_intros <;> (intro h; rw [h]; rfl)
  case idle => rw [phase_code_eq_zero]; simp [State.busy]
  case entry =>
    obtain ⟨hillegal, hlegal⟩ := phase_entry hs
    refine ⟨fun e hd => reads (hillegal e hd), fun i hd => ⟨fun hno => reads ((hlegal i hd).1 hno), fun hyes => ?_⟩⟩
    have hown := (hlegal i hd).2 hyes
    refine ⟨fun h => reads (hown.trans (entryPhase_exec h)), ?_, ?_, ?_, ?_⟩
    · rintro rfl; exact reads hown
    · rintro axis (rfl | rfl) <;> exact reads hown
    · rintro port pin rfl; exact reads hown
    · rintro port pin rfl; exact reads hown
  case later =>
    and_intros
    · intro hs; exact reads (p := .wait) (by simp [phase, hs])
    · rintro (hs | hs) <;> exact reads (p := .tx) (by simp [phase, hs])
    · intro hs; exact reads (p := .turn) (by simp [phase, hs])
    · rintro (hs | hs) <;> exact reads (p := .rx) (by simp [phase, hs])
    · intro hs; exact reads (p := .restore) (by simp [phase, hs])
    · rintro (hs | hs) <;> exact reads (p := .guard) (by simp [phase, hs])

/-- Settles O19: the table, register by register; no access of an idle cycle makes the counter run. -/
theorem resetStateIsTheTable : Obligations.ResetStateIsTheTable := by
  refine ⟨rfl, rfl, rfl, by decide, rfl, rfl, rfl, rfl, rfl, rfl, rfl, rfl, fun k => ⟨rfl, rfl⟩, fun p => ?ports,
    fun r => ⟨pinMode_reset r, ?idr⟩, fun inputs t hr h => ?frozen⟩
  case ports => rw [reset_port]; exact ⟨rfl, rfl, rfl⟩
  case idr => rw [getLsbD_readReg_idr]; exact line_of_inFloat (pinMode_reset r)
  case frozen =>
    rcases step_cases h with ⟨hreset, -⟩ | ⟨-, u, hu, ⟨-, rfl⟩ | ⟨hb, -⟩ | ⟨hb, -⟩⟩
    · rw [hr] at hreset; cases hreset
    · obtain ⟨-, -, hcyc, hen, -⟩ := serve_frame hu
      rw [endFalse_cyc, hen, hcyc]; rfl
    · cases hb
    · cases hb

end Sys2Proof
end

section
/-! The register window: what stands at each offset, what a bad access or one outside the window does, the host's
accesses while a command runs, the buffers' words, and the wire of a write transaction (20_memory.md R45-R54). -/

namespace Sys2Proof.Machine

/-! ## The register map (R46) -/

/-- The offsets of the registers outside the port blocks. -/
def fixedOffsets : List Nat := [0x000, 0x004, 0x008, 0x00C, 0x010, 0x014, 0x020, 0x024, 0x028, 0x02C]

/-- Every other offset is one of the port blocks, or of nothing. -/
theorem regAt_eq_portReg {n off : Nat} (h : off ∉ fixedOffsets) : regAt n off = portReg n off := by
  simp only [fixedOffsets, List.mem_cons, List.not_mem_nil, or_false, not_or] at h
  simp [regAt, h]

/-- The block of port `p`, offset by offset. -/
theorem regAt_block {n d : Nat} {p : BitVec 3} (hp : p.toNat < n) (hd : d < 0x10) :
    regAt n (0x100 + d + 0x10 * p.toNat) =
      if d = 0x0 then some (.cfgl p) else if d = 0x4 then some (.cfgh p)
      else if d = 0x8 then some (.odr p) else if d = 0xC then some (.idr p) else none := by
  have hfixed : 0x100 + d + 0x10 * p.toNat ∉ fixedOffsets := by
    simp only [fixedOffsets, List.mem_cons, List.not_mem_nil, or_false, not_or]
    omega
  have hblock : (0x100 + d + 0x10 * p.toNat - 0x100) / 0x10 = p.toNat := by omega
  have hoff : (0x100 + d + 0x10 * p.toNat) % 0x10 = d := by omega
  rw [regAt_eq_portReg hfixed, portReg, if_pos (by omega), hblock, hoff, BitVec.ofNat_toNat, BitVec.setWidth_eq]

/-- An offset that is none of the four of an existing port is in no block. -/
theorem portReg_eq_none {n off : Nat}
    (h : ∀ p, p < n → off ≠ 0x100 + 0x10 * p ∧ off ≠ 0x104 + 0x10 * p ∧ off ≠ 0x108 + 0x10 * p
      ∧ off ≠ 0x10C + 0x10 * p) : portReg n off = none := by
  unfold portReg
  by_cases hin : 0x100 ≤ off ∧ off < 0x100 + 0x10 * n
  · obtain ⟨hcfgl, hcfgh, hodr, hidr⟩ := h ((off - 0x100) / 0x10) (by omega)
    rw [if_pos hin, if_neg (by omega), if_neg (by omega), if_neg (by omega), if_neg (by omega)]
  · rw [if_neg hin]

/-! ## The target of an access (R45, R47, R48) -/

theorem windowOffset_add {c : Config} {off : Nat} (h : off < 0x1000) :
    windowOffset c (c.params.base + off) = some off := by
  unfold windowOffset
  rw [if_pos (by omega), Nat.add_sub_cancel_left]

/-- Outside the window SWU is not selected (R45). -/
theorem target_outside {c : Config} {addr width : Nat}
    (h : addr < c.params.base ∨ c.params.base + 0x1000 ≤ addr) : target c addr width = .notSelected := by
  have hnone : windowOffset c addr = none := if_neg (by omega)
  simp only [target, hnone]

/-- A wrong width or alignment gets an error response that says so (R47). -/
theorem target_misshapen {c : Config} {off width : Nat} (h : off < 0x1000) (hbad : width ≠ 4 ∨ off % 4 ≠ 0) :
    target c (c.params.base + off) width = .error .busWidth
      ∨ target c (c.params.base + off) width = .error .busUnaligned := by
  simp only [target, windowOffset_add h]
  by_cases hw : width = 4
  · have halign : off % 4 ≠ 0 := hbad.resolve_left (not_not_intro hw)
    exact .inr (by rw [if_neg (not_not_intro hw), if_pos halign])
  · exact .inl (if_pos hw)

/-- A well-shaped access to an unmapped offset gets an error response (R48). -/
theorem target_unmapped {c : Config} {off : Nat} (h : off < 0x1000) (halign : off % 4 = 0)
    (hmap : regAt c.params.nPorts off = none) : target c (c.params.base + off) 4 = .error .busUnmapped := by
  simp [target, windowOffset_add h, halign, hmap]

/-! ## A cycle by the answer to its access -/

section
variable {s : State} {addr width : Nat} {v : Word}
  (ha : (currentInput s).access = some (.read addr width) ∨ (currentInput s).access = some (.write addr width v))
include ha

theorem serve_error {f : Fault} (ht : target s.cfg addr width = .error f) : serve s = .fault f := by
  rcases ha with ha | ha <;> simp [serve, ha, ht]

theorem serve_notSelected (ht : target s.cfg addr width = .notSelected) :
    serve s = .next { s with rdata := none } := by
  rcases ha with ha | ha <;> simp [serve, ha, ht]

/-- An error response stops the cycle: nothing is read or written (R47). -/
theorem step_error {f : Fault} (hr : (currentInput s).reset = false) (ht : target s.cfg addr width = .error f) :
    step s = .fault f := by
  simp [step, hr, serve_error ha ht]

end

/-- The end of a cycle looks at neither OVR nor the read data, and takes one input. -/
theorem endCycle_withHost (b : Bool) (s : State) (o : Bool) (d : Option Word) (ins : List CycleInput) :
    endCycle b (s.withHost o d ins) = (endCycle b s).withHost o d ins.tail := by
  unfold endCycle countCycle
  have hen : (s.withHost o d ins).cycEn = s.cycEn := rfl
  rw [hen]
  cases b <;> cases s.cycEn <;> rfl

/-- The engine's cycle under another host side with the same ENV, stops included. -/
theorem engineCycle_withHost {s : State} {o : Bool} {d : Option Word} {ins : List CycleInput} (he : SameEnv s ins) :
    engineCycle (s.withHost o d ins) = mapHost o d ins.tail (engineCycle s) := by
  have hcmd : (s.withHost o d ins).cmd = s.cmd := rfl
  unfold engineCycle
  rw [hcmd]
  cases decode s.cmd with
  | error e => exact congrArg Host.Outcome.next (endCycle_withHost false (retire .illegalCmd s) o d ins)
  | ok i =>
    simp only [exec_withHost i he]
    cases exec i s with
    | next t => exact congrArg Host.Outcome.next (endCycle_withHost (performsInit i) t o d ins)
    | fault f => rfl
    | refused r => rfl

/-- A cycle whose access does nothing is the cycle of no access, stops included. -/
theorem step_eq_step_withoutAccess {s : State} (hr : (currentInput s).reset = false)
    (hs : serve s = .next { s with rdata := none }) : step s = step (withoutAccess s) := by
  have hstep : step s = if s.busy then engineCycle (s.withHost s.ovr none s.inputs)
      else .next (endCycle false (s.withHost s.ovr none s.inputs)) := by
    unfold step; rw [hr, hs]; rfl
  rw [hstep, step_without hr, engineCycle_withHost (sameEnv_without s), engineCycle_withHost (s := s) rfl,
    endCycle_withHost, endCycle_withHost]
  rfl

/-! ## The buffers' words (R53) -/

/-- An idle write of a buffer word: its four bytes are stored, lowest bits first, the word reads back, and every other
byte and register stands (R51). -/
theorem HostWrites.step_buffer {s : State} {r : Reg} {v : Word} {a : Nat} (h : HostWrites s r v)
    (hw : writeReg s v r = setBufWord s a v) (hr : r ≠ .status) (hb : s.busy = false) :
    ∃ t, step s = .next t ∧ (∀ i, i < 4 → Memory.read t.mem (a + i) = some (v.extractLsb' (8 * i) 8))
      ∧ SameBytesBut [a, a + 1, a + 2, a + 3] s t ∧ bufWord t a = v ∧ SameRegisters s t ∧ SamePins s t := by
  have hstep := h.step_idle hr hb
  rw [hw] at hstep
  obtain ⟨t, ht⟩ : ∃ t, t = endCycle false { setBufWord s a v with rdata := none } := ⟨_, rfl⟩
  have hmem : t.mem = (setBufWord s a v).mem := by rw [ht, endCycle_mem]
  have hbytes : ∀ i, i < 4 → Memory.read t.mem (a + i) = some (v.extractLsb' (8 * i) 8) := fun i hi => by
    rw [hmem, buf_bytes i hi]
  refine ⟨t, by rw [ht]; exact hstep, hbytes, fun c hc => by rw [hmem, buf_other hc], bufWord_eq t a v hbytes,
    ?_, ?_⟩
  · rw [ht]; exact SameRegisters.idle rfl
  · rw [ht]; exact endCycle_ports _ _

/-- A written byte reads back in its place of the word. -/
theorem bufWord_byte_of_written {s : State} {a i : Nat} {b : Byte} (hi : i < 4)
    (hb : Memory.read s.mem (a + i) = some b) : (bufWord s a).extractLsb' (8 * i) 8 = b := by
  rw [bufWord_byte s a i hi, hostByte, hb, Option.getD_some]

/-! ## The wire of a character (R105, R108) -/

/-- A character on an output pin whose ODR bit is the frame bit due: from the cycle after its entry cycle `a` each bit
of the frame is on the line for BP cycles. -/
theorem line_of_character {s : State} {r : PinRef} {b : Byte} {a : Nat}
    (hmid : ∀ n, 1 ≤ n → n < 10 * bp s → ∃ t, cycles (a + n) s = .next t ∧ pinMode t r = modeOutPp
      ∧ odrBit t r = frameBit b ((n - 1) / bp s))
    (hlast : ∃ t, cycles (a + 10 * bp s) s = .next t ∧ pinMode t r = modeOutPp ∧ odrBit t r = true)
    {m c : Nat} (hm : m < 10) (hc : c < bp s) :
    ∃ t, cycles (a + (m * bp s + c + 1)) s = .next t ∧ line t r = frameBit b m := by
  have hle : (m + 1) * bp s ≤ 10 * bp s := Nat.mul_le_mul_right _ hm
  rw [Nat.succ_mul] at hle
  by_cases hend : m * bp s + c + 1 < 10 * bp s
  · obtain ⟨t, ht, hmode, hodr⟩ := hmid _ (Nat.le_add_left 1 _) hend
    have hbit : (m * bp s + c + 1 - 1) / bp s = m := by
      rw [Nat.add_sub_cancel, Nat.div_eq_of_lt_le]
      · omega
      · rw [Nat.succ_mul]; omega
    exact ⟨t, ht, by rw [line_of_outPp hmode, hodr, hbit]⟩
  · obtain ⟨t, ht, hmode, hodr⟩ := hlast
    have hcount : m * bp s + c + 1 = 10 * bp s := by omega
    have hstop : m = 9 := by
      by_contra hne
      have hle8 : (m + 1) * bp s ≤ 9 * bp s := Nat.mul_le_mul_right _ (by omega)
      rw [Nat.succ_mul] at hle8
      omega
    exact ⟨t, by rw [hcount]; exact ht, by rw [line_of_outPp hmode, hodr, hstop]; rfl⟩

end Sys2Proof.Machine

namespace Sys2Proof

open Machine

/-- Settles O21: the fixed offsets by evaluation, the port blocks by the quotient and the remainder of the offset. -/
theorem registerMapIsTheTable : Obligations.RegisterMapIsTheTable := by
  intro n _
  refine ⟨by and_intros <;> rfl, fun p hp => ⟨?_, ?_, ?_, ?_⟩, fun off hfixed hports => ?_⟩
  · exact regAt_block hp (d := 0x0) (by decide)
  · exact regAt_block hp (d := 0x4) (by decide)
  · exact regAt_block hp (d := 0x8) (by decide)
  · exact regAt_block hp (d := 0xC) (by decide)
  · rw [regAt_eq_portReg hfixed, portReg_eq_none hports]

/-- Settles O22: each bad access has an error target, and an error target stops the cycle. -/
theorem badHostAccessFaults : Obligations.BadHostAccessFaults := by
  rintro s addr width off v hr ha rfl hoff
  refine ⟨fun hbad => ?_, fun hw halign hmap => ?_⟩
  · exact (target_misshapen hoff hbad).imp (step_error ha hr) (step_error ha hr)
  · subst hw
    exact step_error ha hr (target_unmapped hoff halign hmap)

/-- Settles O23: the access is served as none at all. -/
theorem accessOutsideTheWindowDoesNothing : Obligations.AccessOutsideTheWindowDoesNothing :=
  fun _ _ _ _ ha hout hr => step_eq_step_withoutAccess hr (serve_notSelected ha (target_outside hout))

/-- Settles O25: a refused write and a write of STATUS change OVR alone; a read is served as in any cycle. -/
theorem writeWhileBusyChangesOvrAlone : Obligations.WriteWhileBusyChangesOvrAlone := by
  refine ⟨fun s t r v h hb ht => ⟨fun hr => ?_, ?_⟩, fun s t r h _ ht => readHasNoSideEffect.1 s t r h ht⟩
  · exact (h.step_ovr (hostWrite_busy hr hb) ht).1
  · rintro rfl
    obtain ⟨hstep, hovr⟩ := h.step_ovr (o := s.ovr && !v.getLsbD 1) rfl ht
    rw [hstep, hovr]

/-- Settles O29: both buffers by the word at an offset. -/
theorem buffersAreLittleEndian : Obligations.BuffersAreLittleEndian := by
  refine ⟨fun s w v _ h hb => ?txWrite, fun s w v _ h hb => ?rxWrite, fun s w i b _ hi hbyte => ?txRead,
    fun s w i b _ hi hbyte => ?rxRead⟩
  case txWrite =>
    obtain ⟨t, hstep, hbytes, hrest⟩ := h.step_buffer (a := txBase + 4 * w) rfl (by simp) hb
    exact ⟨t, hstep, fun i hi => by rw [txByte, ← Nat.add_assoc]; exact hbytes i hi, hrest⟩
  case rxWrite =>
    obtain ⟨t, hstep, hbytes, hrest⟩ := h.step_buffer (a := rxBase + 4 * w) rfl (by simp) hb
    exact ⟨t, hstep, fun i hi => by rw [rxByte, ← Nat.add_assoc]; exact hbytes i hi, hrest⟩
  case txRead =>
    rw [txByte, ← Nat.add_assoc] at hbyte
    exact bufWord_byte_of_written hi hbyte
  case rxRead =>
    rw [rxByte, ← Nat.add_assoc] at hbyte
    exact bufWord_byte_of_written hi hbyte

/-- Settles O57: SETUP leaves the fixed-up bytes and the line high; the SENDs follow back to back, and each is on the
wire frame bit by frame bit. -/
theorem writeTransactionWire : Obligations.WriteTransactionWire := by
  intro s axis r hs hd hr hc hall hq
  have hlen : 0 < s.cfg.params.writeLen := by have := s.cfg.layout; omega
  obtain ⟨p, u, hp, hu, hmem, -, hcmd, hcycEn, hsub, hk0, hmode, hodr, -, -, -, -, hline⟩ :=
    entry_run (i := .wrtxn axis) (.inl ⟨rfl, rfl⟩) hs hd hr hc hall hq (by omega)
  have hbytes : ∀ k, k < s.cfg.params.writeLen → ∃ b, txByte u k = some b := fun k hk =>
    Option.isSome_iff_exists.mp (fix_all hu k hk)
  have hsends := bytes_run (i := .wrtxn axis) (r := r) (len := s.cfg.params.writeLen) (after := .guardStart) hq
    (by omega) hp (by rw [hcmd]; exact hd) (by simp) hcycEn hsub hk0 hlen hmode hodr
    (fun k hk => by rw [fix_mem_txByte hmem]; exact hbytes k hk)
    (fun x hcfg hx => execWrtxn_sendStart (axisPin_later hr hcfg) hx)
    (fun x hcfg hx => by rw [execWrtxn_sending (axisPin_later hr hcfg) hx, hcfg])
  refine ⟨⟨p, hp, hline⟩, u, hu, fun k hk => ?_⟩
  obtain ⟨b, hb⟩ := hbytes k hk
  refine ⟨b, hb, fun m c hm hcb => ?_⟩
  obtain ⟨-, -, -, -, -, -, -, hsend⟩ := hsends k hk.le
  obtain ⟨hmid, t, ht, -, -, htmode, htodr, -⟩ := hsend hk b (by rw [fix_mem_txByte hmem]; exact hb)
  have hbits : ∀ n, 1 ≤ n → n < 10 * bp s → ∃ t, cycles (1 + 10 * bp s * k + n) s = .next t
      ∧ pinMode t r = modeOutPp ∧ odrBit t r = frameBit b ((n - 1) / bp s) := fun n h1 hn => by
    obtain ⟨x, hx, -, -, hxmode, hxodr⟩ := hmid n h1 hn
    exact ⟨x, hx, hxmode, hxodr⟩
  rw [Nat.mul_succ, ← Nat.add_assoc] at ht
  have hcycle : 2 + 10 * bp s * k + m * bp s + c = 1 + 10 * bp s * k + (m * bp s + c + 1) := by omega
  rw [hcycle]
  exact line_of_character hbits ⟨t, ht, htmode, htodr⟩ hm hcb

end Sys2Proof
end

section
/-! The decoder against the encoder: a word decodes to a command exactly when it fits the command's row of R73 and holds
its fields (30_encoding.md R65, R71-R74, R79). -/

namespace Sys2Proof

/-! ## The fields of a word (R65) -/

/-- A field put back in its place is the word under the field's mask. -/
theorem extractLsb'_placed (w : Word) (start len : Nat) :
    (w.extractLsb' start len).setWidth 32 <<< start = w &&& (BitVec.allOnes len).setWidth 32 <<< start := by
  apply BitVec.eq_of_getLsbD_eq
  intro n hn
  by_cases hlow : n < start
  · simp [hlow]
  · have hplace : start + (n - start) = n := by omega
    by_cases hin : n - start < len
    · simp [hn, hlow, hin, hplace]
    · simp [hn, hlow, hin]

theorem pinBits_fields (w : Word) : pinBits (portField w) (pinField w) = w &&& 0x00007F00 := by
  unfold pinBits portField pinField
  rw [extractLsb'_placed, extractLsb'_placed, ← BitVec.and_or_distrib_left]
  rfl

theorem axisBits_field (w : Word) : axisBits (axisField w) = w &&& 0x000F0000 := extractLsb'_placed w 16 4

theorem modeBits_field (w : Word) : modeBits (modeField w) = w &&& 0x00F00000 := extractLsb'_placed w 20 4

theorem lvlBits_field (w : Word) : lvlBits (lvlField w) = w &&& 0x01000000 := (BitVec.and_twoPow w 24).symm

theorem opcField_and (v w : Word) : opcField (v &&& w) = opcField v &&& opcField w := BitVec.extractLsb'_and

/-- A field reads back what was put in its place. -/
theorem extractLsb'_place_same {len : Nat} (x : BitVec len) (start : Nat) (h : start + len ≤ 32) :
    (x.setWidth 32 <<< start).extractLsb' start len = x := by
  apply BitVec.eq_of_getLsbD_eq
  intro n hn
  have hword : start + n < 32 := by omega
  simp [hn, hword]

/-- A field reads 0 where a value was put in another place. -/
theorem extractLsb'_place_disjoint {len : Nat} (x : BitVec len) (start other width : Nat)
    (h : other + width ≤ start ∨ start + len ≤ other) : (x.setWidth 32 <<< start).extractLsb' other width = 0 := by
  apply BitVec.eq_of_getLsbD_eq
  intro n hn
  rcases h with h | h
  · have hbelow : other + n < start := by omega
    simp [hbelow]
  · have hbeyond : len ≤ other + n - start := by omega
    simp [BitVec.getLsbD_of_ge x _ hbeyond]

/-! ## A command and its row (R73) -/

/-- The command of the same row with the fields of a word (R65, R72). -/
def Instr.withFields (w : Word) : Instr → Instr
  | .nop => .nop
  | .init => .init
  | .now => .now
  | .elapsed => .elapsed
  | .wait => .wait
  | .setmode _ _ _ => .setmode (portField w) (pinField w) (modeField w)
  | .setlvl _ _ _ => .setlvl (portField w) (pinField w) (lvlField w)
  | .getlvl _ _ => .getlvl (portField w) (pinField w)
  | .sendb _ _ => .sendb (portField w) (pinField w)
  | .recvb _ _ => .recvb (portField w) (pinField w)
  | .framew => .framew
  | .framer => .framer
  | .wrtxn _ => .wrtxn (axisField w)
  | .rdtxn _ => .rdtxn (axisField w)

/-- The word fits the command's row: `(w & mask) = match` (R73). -/
def FitsRow (w : Word) (i : Instr) : Prop := w &&& (rowOf i).2 = (rowOf i).1

theorem encode_fitsRow (i : Instr) : FitsRow (encode i) i := by
  cases i with
  | nop => exact Laws.EncodeFitsRow.nop
  | init => exact Laws.EncodeFitsRow.init
  | now => exact Laws.EncodeFitsRow.now
  | elapsed => exact Laws.EncodeFitsRow.elapsed
  | wait => exact Laws.EncodeFitsRow.wait
  | setmode port pin mode => exact Laws.EncodeFitsRow.setmode port pin mode
  | setlvl port pin lvl => exact Laws.EncodeFitsRow.setlvl port pin lvl
  | getlvl port pin => exact Laws.EncodeFitsRow.getlvl port pin
  | sendb port pin => exact Laws.EncodeFitsRow.sendb port pin
  | recvb port pin => exact Laws.EncodeFitsRow.recvb port pin
  | framew => exact Laws.EncodeFitsRow.framew
  | framer => exact Laws.EncodeFitsRow.framer
  | wrtxn axis => exact Laws.EncodeFitsRow.wrtxn axis
  | rdtxn axis => exact Laws.EncodeFitsRow.rdtxn axis

/-- A command reads its own fields from its encoding (R65). -/
theorem withFields_encode (i : Instr) : i.withFields (encode i) = i := by
  cases i with
  | nop | init | now | elapsed | wait | framew | framer => rfl
  | setmode port pin mode =>
    simp (disch := decide) [Instr.withFields, encode, portField, pinField, modeField, pinBits, modeBits,
      BitVec.extractLsb'_or, extractLsb'_place_same, extractLsb'_place_disjoint]
  | setlvl port pin lvl =>
    have hlvl : (lvlBits lvl)[24] = lvl := by cases lvl <;> rfl
    have hport : (lvlBits lvl).extractLsb' 12 3 = 0 := by cases lvl <;> rfl
    have hpin : (lvlBits lvl).extractLsb' 8 4 = 0 := by cases lvl <;> rfl
    simp (disch := decide) [Instr.withFields, encode, portField, pinField, lvlField, pinBits, BitVec.extractLsb'_or,
      extractLsb'_place_same, extractLsb'_place_disjoint, hlvl, hport, hpin]
  | getlvl port pin | sendb port pin | recvb port pin =>
    simp (disch := decide) [Instr.withFields, encode, portField, pinField, pinBits, BitVec.extractLsb'_or,
      extractLsb'_place_same, extractLsb'_place_disjoint]
  | wrtxn axis | rdtxn axis =>
    simp (disch := decide) [Instr.withFields, encode, axisField, axisBits, BitVec.extractLsb'_or,
      extractLsb'_place_same]

/-- The encoding of a row's command with the fields of a word: the match, and the word outside the mask (R73, R79). -/
theorem encode_withFields (i : Instr) (w : Word) :
    encode (i.withFields w) = (rowOf i).1 ||| (w &&& ~~~(rowOf i).2) := by
  have outN : ~~~maskN = 0 := by decide
  have outP : ~~~maskP = 0x00007F00 := by decide
  have outSetmode : ~~~maskSetmode = 0x00007F00 ||| 0x00F00000 := by decide
  have outSetlvl : ~~~maskSetlvl = 0x00007F00 ||| 0x01000000 := by decide
  have outA : ~~~maskA = 0x000F0000 := by decide
  cases i with
  | nop | init | now | elapsed | wait | framew | framer =>
    simp only [Instr.withFields, encode, rowOf, outN]; simp
  | setmode port pin mode =>
    simp only [Instr.withFields, encode, rowOf, pinBits_fields, modeBits_field, outSetmode, BitVec.and_or_distrib_left,
      BitVec.or_assoc]
  | setlvl port pin lvl =>
    simp only [Instr.withFields, encode, rowOf, pinBits_fields, lvlBits_field, outSetlvl, BitVec.and_or_distrib_left,
      BitVec.or_assoc]
  | getlvl port pin | sendb port pin | recvb port pin =>
    simp only [Instr.withFields, encode, rowOf, pinBits_fields, outP]
  | wrtxn axis | rdtxn axis => simp only [Instr.withFields, encode, rowOf, axisBits_field, outA]

/-! ## What fitting a row says of a word -/

section
variable {w : Word} {i : Instr} (h : FitsRow w i)
include h

/-- A word that fits a row is the encoding of the row's command with its fields (R73). -/
theorem FitsRow.encode_withFields : encode (i.withFields w) = w := by
  rw [Sys2Proof.encode_withFields, ← h, ← BitVec.and_or_distrib_left, BitVec.or_not_self, BitVec.and_allOnes]

/-- Every row fixes the whole opcode (R66, R73). -/
theorem FitsRow.opcField_eq : opcField w = opcField (rowOf i).1 := by
  have hmask : opcField (rowOf i).2 = BitVec.allOnes 8 := by cases i <;> (dsimp only [rowOf]; decide)
  rw [← h, opcField_and, hmask, BitVec.and_allOnes]

/-- Every row fixes bits 15 and 31:25 to 0 (R71). -/
theorem FitsRow.reserved_eq_zero : w &&& 0xFE008000 = 0 := by
  have hmask : (rowOf i).2 &&& 0xFE008000 = 0xFE008000 := by cases i <;> (dsimp only [rowOf]; decide)
  have hmatch : (rowOf i).1 &&& 0xFE008000 = 0 := by cases i <;> (dsimp only [rowOf]; decide)
  rw [← hmask, ← BitVec.and_assoc, h, hmatch]

/-- A row with another opcode is not fitted. -/
theorem FitsRow.and_ne {mask mtch : Word} (hmask : opcField mask = BitVec.allOnes 8)
    (hopc : opcField mtch ≠ opcField (rowOf i).1) : w &&& mask ≠ mtch := by
  rintro rfl
  rw [opcField_and, hmask, BitVec.and_allOnes] at hopc
  exact hopc h.opcField_eq

/-- A word that fits a row decodes to the row's command with its fields: the opcode keeps it from every other row. -/
theorem FitsRow.decode_eq : decode w = .ok (i.withFields w) := by
  have others : ∀ {mask mtch : Word}, opcField mask = BitVec.allOnes 8 → opcField mtch ≠ opcField (rowOf i).1 →
      w &&& mask ≠ mtch := FitsRow.and_ne h
  cases i <;> dsimp only [FitsRow, rowOf] at h others <;>
    simp (disch := decide) only [decode, eq_true h, others, if_true, if_false, Instr.withFields]

end

/-- The decoder in one line: the word fits the command's row and holds its fields (R73). -/
theorem decode_eq_ok_iff {w : Word} {i : Instr} : decode w = .ok i ↔ FitsRow w i ∧ i.withFields w = i := by
  constructor
  · intro h
    rcases decode_cases h with ⟨hw, rfl⟩ | ⟨hw, rfl⟩ | ⟨hw, rfl⟩ | ⟨hw, rfl⟩ | ⟨hw, rfl⟩ | ⟨hw, rfl⟩ | ⟨hw, rfl⟩
      | ⟨hw, rfl⟩ | ⟨hw, rfl⟩ | ⟨hw, rfl⟩ | ⟨hw, rfl⟩ | ⟨hw, rfl⟩ | ⟨hw, rfl⟩ | ⟨hw, rfl⟩ <;> exact ⟨hw, rfl⟩
  · rintro ⟨hw, hi⟩
    rw [hw.decode_eq, hi]

theorem fitsRow_of_decode {w : Word} {i : Instr} (h : decode w = .ok i) : FitsRow w i := (decode_eq_ok_iff.mp h).1

/-- Every row's opcode is in the map (R66, R73). -/
theorem knownOpcode_rowOf (i : Instr) : knownOpcode (opcField (rowOf i).1) = true := by
  cases i <;> (dsimp only [rowOf]; decide)

/-- An opcode that is not in the map decodes to nothing, whatever the other bits are (R74). -/
theorem decode_of_unknown_opcode {w : Word} (h : knownOpcode (opcField w) = false) :
    decode w = .error .reservedOpcode := by
  cases hd : decode w with
  | ok i =>
    have hknown := knownOpcode_rowOf i
    rw [← (fitsRow_of_decode hd).opcField_eq, h] at hknown
    cases hknown
  | error e =>
    have he := decode_error hd
    rw [h] at he
    rw [he]; rfl

/-- A 1 in bit 15 or in bits 31:25 keeps a word from every row (R71). -/
theorem decode_ne_ok_of_reserved {w : Word} {n : Nat} (hn : n = 15 ∨ (25 ≤ n ∧ n ≤ 31)) (hbit : w.getLsbD n = true)
    (i : Instr) : decode w ≠ .ok i := by
  intro hd
  have hmask : (0xFE008000 : Word).getLsbD n = true := by
    rcases hn with rfl | ⟨h25, h31⟩
    · rfl
    · interval_cases n <;> rfl
  have hzero : (w &&& 0xFE008000).getLsbD n = false := by rw [(fitsRow_of_decode hd).reserved_eq_zero]; simp
  rw [BitVec.getLsbD_and, hbit, hmask] at hzero
  cases hzero

/-- Settles O1: the encoding fits the command's row and holds its fields. -/
theorem decodeEncodeRoundTrip : Obligations.DecodeEncodeRoundTrip :=
  fun i => decode_eq_ok_iff.mpr ⟨encode_fitsRow i, withFields_encode i⟩

/-- Settles O2: a word that decodes fits the command's row, which fixes every bit outside its fields. -/
theorem decodedWordIsItsEncoding : Obligations.DecodedWordIsItsEncoding := by
  intro w i h
  obtain ⟨hw, hi⟩ := decode_eq_ok_iff.mp h
  rw [← hi]
  exact hw.encode_withFields

/-- Settles O4: the ranges are the opcodes outside the map; a reserved bit keeps a word from every row. -/
theorem reservedEncodingsDecodeToNothing : Obligations.ReservedEncodingsDecodeToNothing := by
  refine ⟨fun w hw => decode_of_unknown_opcode ?opcode, fun w n hn hbit => ?bits⟩
  case opcode =>
    by_contra hknown
    simp only [knownOpcode, Bool.not_eq_false, List.contains_iff_mem, List.mem_cons, List.not_mem_nil, or_false]
      at hknown
    rcases hknown with h | h | h | h | h | h | h | h | h | h | h | h | h | h <;> simp [h] at hw
  case bits =>
    cases hd : decode w with
    | ok i => exact absurd hd (decode_ne_ok_of_reserved hn hbit i)
    | error e => exact ⟨e, rfl⟩

/-- Settles O3: each word is the command's encoding by evaluation, and decodes by the round trip. -/
theorem workedEncodingsDecode : Obligations.WorkedEncodingsDecode := by
  have worked : ∀ {w : Word} {i : Instr}, encode i = w → decode w = .ok i ∧ encode i = w := by
    rintro _ i rfl
    exact ⟨decodeEncodeRoundTrip i, rfl⟩
  exact ⟨worked rfl, worked rfl, worked rfl, worked rfl, worked rfl, worked rfl, worked rfl, worked rfl⟩

end Sys2Proof
end

section
/-! The entry errors of a command, and the cycle of an illegal one (60_exceptions.md R143-R146; 30_encoding.md R74). -/

namespace Sys2Proof.Machine

/-! ## The error an entry cycle ends with, in R145's order -/

section
variable {i : Instr} {s : State}

theorem entryError_of_not_wellFormed (hw : i.wellFormed s.cfg.params.nPorts = false) :
    entryError i s = .illegalCmd := by
  have hform : formError i s = .illegalCmd := by simp [formError, nPorts, hw]
  simp [entryError, firstError, hform]

theorem formError_of_wellFormed (hw : i.wellFormed s.cfg.params.nPorts = true) : formError i s = .ok := by
  simp [formError, nPorts, hw]

/-- A transaction has no value check (R68), so an axis without a pin is its first error (R128). -/
theorem entryError_of_unmapped {axis : BitVec 4} (ha : axisOf i = some axis) (hr : axisPin s axis = none) :
    entryError i s = .unsupportedAxis := by
  have hform : formError i s = .ok := by
    rcases axisOf_eq_some ha with rfl | rfl <;> exact formError_of_wellFormed rfl
  have haxis : axisError i s = .unsupportedAxis := by simp [axisError, ha, hr]
  simp [entryError, firstError, hform, haxis]

/-- A timed command with legal fields and a mapped axis, if it names one, needs CYC_EN (R85). -/
theorem entryError_of_not_init (hw : i.wellFormed s.cfg.params.nPorts = true)
    (ha : ∀ axis, axisOf i = some axis → axisPin s axis ≠ none) (ht : isTimed i = true) (hc : s.cycEn = false) :
    entryError i s = .notInit := by
  have haxis : axisError i s = .ok := by
    unfold axisError
    cases hi : axisOf i with
    | none => rfl
    | some axis => exact if_pos (Option.isSome_iff_ne_none.mpr (ha axis hi))
  have hinit : initError i s = .notInit := by simp [initError, ht, hc]
  simp [entryError, firstError, formError_of_wellFormed hw, haxis, hinit]

theorem entryError_of_long_wait (hc : s.cycEn = true) (harg : 2 ^ 31 ≤ s.arg.toNat) :
    entryError .wait s = .badOperand := by
  have hform : formError .wait s = .ok := rfl
  have haxis : axisError .wait s = .ok := rfl
  have hinit : initError .wait s = .ok := by simp [initError, hc]
  have hoperand : operandError .wait s = .badOperand := if_pos ⟨rfl, harg⟩
  simp [entryError, firstError, hform, haxis, hinit, hoperand]

/-! ## The entry cycle of a command with an error -/

/-- An entry error ends the command in its entry cycle with no other effect (R145, R146). -/
theorem exec_entry_raises (hs : s.sub = .entry) (he : entryError i s ≠ .ok) : exec i s = raise (entryError i s) s := by
  cases i with
  | nop | init | now | elapsed | setmode | setlvl | getlvl | framew | framer => exact entering_err _ he
  | wait => simp only [exec, execWait, hs, entering_err _ he]
  | sendb port pin => simp only [exec, execSendb, hs, entering_err _ he]
  | recvb port pin => simp only [exec, execRecvb, hs, entering_err _ he]
  | wrtxn axis =>
    cases hr : axisPin s axis with
    | none => simp only [exec, execWrtxn, hr, entryError_of_unmapped (i := .wrtxn axis) rfl hr]
    | some r => simp only [exec, execWrtxn, hr, wrtxnCycle, hs, entering_err _ he]
  | rdtxn axis =>
    cases hr : axisPin s axis with
    | none => simp only [exec, execRdtxn, hr, entryError_of_unmapped (i := .rdtxn axis) rfl hr]
    | some r => simp only [exec, execRdtxn, hr, rdtxnCycle, hs, entering_err _ he]

theorem exec_entry_of_error {e : ErrCode} (hs : s.sub = .entry) (h : entryError i s = e) (he : e ≠ .ok) :
    exec i s = .next (retire e s) := by
  subst h
  exact exec_entry_raises hs he

/-! ## An illegal command (R74) -/

/-- INIT has no value check to fail. -/
theorem performsInit_of_not_wellFormed {n : Nat} (hw : i.wellFormed n = false) : performsInit i = false := by
  cases i with
  | init => cases hw
  | _ => rfl

/-- The quiet cycle of an illegal command, of either kind: it retires with ILLEGAL_CMD, and the counter counts. -/
theorem step_illegal (hq : QuietNow s) (hs : s.sub = .entry)
    (hbad : ∀ i, decode s.cmd = .ok i → i.wellFormed s.cfg.params.nPorts = false) :
    step s = .next (endCycle false (retire .illegalCmd { s with rdata := none })) := by
  have hb : s.busy = true := (busy_iff s).mpr (by simp [hs])
  cases hd : decode s.cmd with
  | error e => simp [step, hq.1, serve_none hq.2, hb, engineCycle, hd]
  | ok i =>
    have hw := hbad i hd
    have hexec : exec i { s with rdata := none } = .next (retire .illegalCmd { s with rdata := none }) :=
      exec_entry_of_error hs (entryError_of_not_wellFormed hw) (by decide)
    rw [step_quiet_exec hq hb hd hexec, performsInit_of_not_wellFormed hw]

theorem phase_illegal (hs : s.sub = .entry)
    (hbad : ∀ i, decode s.cmd = .ok i → i.wellFormed s.cfg.params.nPorts = false) : phase s = .exec := by
  obtain ⟨hillegal, hlegal⟩ := phase_entry hs
  cases hd : decode s.cmd with
  | error e => exact hillegal e hd
  | ok i =>
    refine (hlegal i hd).1 fun hpass => ?_
    have hw := hpass.1
    rw [hbad i hd] at hw; cases hw

end

end Sys2Proof.Machine

namespace Sys2Proof

open Machine

/-- Settles O33: each error is the first of its entry cycle, and an entry error changes nothing else. -/
theorem entryErrorsInOrder : Obligations.EntryErrorsInOrder := by
  intro i s hs
  refine ⟨fun hw => ?form, fun axis ha hr => ?axis, fun hw ha ht hc => ?init, ?operand⟩
  case form => exact exec_entry_of_error hs (entryError_of_not_wellFormed hw) (by decide)
  case axis => exact exec_entry_of_error hs (entryError_of_unmapped ha hr) (by decide)
  case init => exact exec_entry_of_error hs (entryError_of_not_init hw ha ht hc) (by decide)
  case operand =>
    rintro rfl hc harg
    exact exec_entry_of_error hs (entryError_of_long_wait hc harg) (by decide)

/-- Settles O7: both kinds of illegal command retire in their one cycle, and the end of the cycle counts. -/
theorem illegalCommandChangesErrAlone : Obligations.IllegalCommandChangesErrAlone := by
  intro s hq hs hbad
  refine ⟨phase_illegal hs hbad, _, step_illegal hq hs hbad, ?retired, ?ovr, ?outputs, ?bytes, ?pins, ?cycEn, ?cmd, ?arg,
    endFalse_cyc _⟩
  all_goals simp [Retired, SameOutputs, SameBytes, SamePins, State.busy]

end Sys2Proof
end

section
/-! The clockwork across a whole step (40_timer.md R84, R90; 42_uart_tx.md R106-R109; 43_uart_rx.md R112, R115;
45_transaction.md R131-R136). -/

namespace Sys2Proof.Machine

/-! ## The clockwork by sub-operation -/

section
variable {s : State} (h : TimingOk s)
include h

theorem TimingOk.of_waiting (hs : s.sub = .waiting) :
    1 ≤ sinceT0 s ∧ sinceT0 s < s.arg.toNat ∧ s.arg.toNat < 2 ^ 31 := by
  obtain ⟨hwait, -⟩ := h
  exact hwait hs

theorem TimingOk.of_sending (hs : s.sub = .sending) :
    1 ≤ sinceT0 s ∧ sinceT0 s < 10 * bp s
      ∧ ∀ i r, decode s.cmd = .ok i → commandPin s i = some r → odrBit s r = frameBit s.txb ((sinceT0 s - 1) / bp s) := by
  obtain ⟨-, hsend, -⟩ := h
  exact hsend hs

theorem TimingOk.of_data (hs : s.sub = .data) : sinceT0 s < 9 * bp s + 2 * half s := by
  obtain ⟨-, -, -, hdata, -⟩ := h
  exact (hdata hs).2

theorem TimingOk.of_guarding (hs : s.sub = .guarding) : sinceT0 s < guardCycles s := by
  obtain ⟨-, -, -, -, hguard, -⟩ := h
  exact (hguard hs).2

/-- Between characters and in the guard the command's pin is high (R109, R132). -/
theorem TimingOk.pin_high {i : Instr} {r : PinRef}
    (hs : s.sub = .sendStart ∨ s.sub = .turn ∨ s.sub = .guardStart ∨ s.sub = .guarding) (hd : decode s.cmd = .ok i)
    (hr : commandPin s i = some r) : odrBit s r = true := by
  obtain ⟨-, -, -, -, -, hhigh⟩ := h
  exact hhigh hs i r hd hr

end

/-! ## The sub-operations of commands outside transactions -/

section
variable {s : State}

/-- A cycle of WAIT is its last exactly if ARG cycles have gone at its end (R84, R90). -/
theorem waitCycle_last (ha : s.arg.toNat < 2 ^ 31) (hx : sinceT0 s + 1 < 2 ^ 31) (hend : s.arg.toNat ≤ sinceT0 s + 1) :
    waitCycle s = retire .ok s :=
  if_pos ((wait_ends ha hx).mpr hend)

theorem waitCycle_not_last (ha : s.arg.toNat < 2 ^ 31) (hx : sinceT0 s + 1 < 2 ^ 31)
    (hgo : sinceT0 s + 1 < s.arg.toNat) : waitCycle s = s :=
  if_neg (mt (wait_ends ha hx).mp (by omega))

/-- The clockwork through a cycle of WAIT (R90). -/
theorem waitCycle_time (hs : s.sub = .waiting) (hc : s.cycEn = true) (ha : s.arg.toNat < 2 ^ 31)
    (hx : sinceT0 s + 1 < 2 ^ 31) : TimingOk (endCycle false (waitCycle s)) := by
  by_cases hend : s.arg.toNat ≤ sinceT0 s + 1
  · rw [waitCycle_last ha hx hend]
    exact TimingOk.retire _ _ _
  · have hgo : sinceT0 s + 1 < s.arg.toNat := by omega
    rw [waitCycle_not_last ha hx hgo]
    have hsince : sinceT0 (endCycle false s) = sinceT0 s + 1 := since_end hc (by omega)
    simpa [TimingOk, hs, hsince] using ⟨hgo, ha⟩

/-- The clockwork through a cycle of SEND that is not its last (R106, R108). -/
theorem sendEdge_time {i : Instr} {r : PinRef} (ht : TimingOk s) (hd : decode s.cmd = .ok i)
    (hr : commandPin s i = some r) (hc : s.cycEn = true) (hs : s.sub = .sending) (hend : sendEnds s = false) :
    TimingOk (endCycle false (sendEdge s r)) := by
  obtain ⟨hpos, hlt, hodr⟩ := ht.of_sending hs
  have hgo : sinceT0 s + 1 < 10 * bp s := by
    by_contra hge
    have hyes := (send_ends hlt).mpr (by omega)
    rw [hend] at hyes; cases hyes
  have hsince : sinceT0 (sendEdge s r) = sinceT0 s := since_congr (by simp) (by simp)
  refine sending_time hd hr (by simpa using hc) ?_ (by simpa using hs) (by simp) (by simp) ?_
  · rw [hsince]; simpa using hgo
  · rw [hsince, edge_odr hpos (hodr i r hd hr)]; simp

variable {deliver : State × RecvOutcome → State} (hrun : ∀ x, deliver (x, .running) = x)
include hrun

/-- The clockwork through a poll: detection starts the data bits, another poll is counted, and the timeout is what the
command makes of it (R111-R113). -/
theorem recvPoll_time (r : PinRef) (hc : s.cycEn = true) (hs : s.sub = .poll)
    (hto : TimingOk (endCycle false (deliver (s, .timeout)))) : TimingOk (endCycle false (deliver (recvPoll s r))) := by
  rcases recvPoll_cases s r with ⟨-, e⟩ | ⟨-, hj, e⟩ | ⟨-, -, e⟩ <;> rw [e]
  case inl =>
    rw [hrun]
    refine data_time hc rfl ?_
    have hbp : 1 ≤ s.cfg.params.bp := s.cfg.bp_pos
    rw [since_zero rfl]
    show 0 + 1 < 9 * s.cfg.params.bp + 2 * s.cfg.params.half
    omega
  case inr.inl => rw [hrun]; exact poll_time hs hj
  case inr.inr => exact hto

/-- The clockwork through a cycle after detection: the last one is what the command makes of the byte (R114-R116). -/
theorem recvData_time (r : PinRef) (hc : s.cycEn = true) (hs : s.sub = .data) (ht : TimingOk s)
    (hbyte : ∀ b, TimingOk (endCycle false (deliver (recvSample s r, .byte b)))) :
    TimingOk (endCycle false (deliver (recvData s r))) := by
  have hlt := ht.of_data hs
  rcases recvData_cases s r with ⟨hend, e⟩ | ⟨-, e⟩ <;> rw [e]
  case inl =>
    have hgo : sinceT0 s + 1 < 9 * bp s + 2 * half s := by
      by_contra hge
      have hyes := (recvEnds_iff hlt).mpr (by omega)
      rw [hend] at hyes; cases hyes
    have hsince : sinceT0 (recvSample s r) = sinceT0 s := since_congr (by simp) (by simp)
    rw [hrun]
    exact data_time (by simpa using hc) (by simpa using hs) (by rw [hsince]; simpa using hgo)
  case inr => exact hbyte _

end

/-! ## The sub-operations of transactions -/

/-- The pin of a transaction is its axis pin (R127). -/
theorem commandPin_of_axis {i : Instr} {axis : BitVec 4} (s : State) (ha : axisOf i = some axis) :
    commandPin s i = axisPin s axis := by
  rcases axisOf_eq_some ha with rfl | rfl <;> rfl

/-- A reply byte is stored: the next RECV polls from J = 0, or RESTORE enters (R134). -/
theorem txnDeliver_byte_time (s : State) (b : Byte) : TimingOk (endCycle false (txnDeliver (s, .byte b))) := by
  by_cases hnext : s.k + 1 < s.cfg.params.replyLen
  · have e : txnDeliver (s, .byte b) = { recvEnter (setRx s s.k b) with k := s.k + 1 } := if_pos hnext
    rw [e]
    exact poll_time rfl s.cfg.rxTimeout_pos
  · have e : txnDeliver (s, .byte b) = { setRx s s.k b with k := s.k + 1, sub := .restore } := if_neg hnext
    rw [e]
    exact TimingOk.quiet (.inr (.inr (by simp)))

section
variable {i : Instr} {axis : BitVec 4} {r : PinRef} {s : State} (w : RunsTxn i axis r s)
include w

theorem RunsTxn.cycEn : s.cycEn = true := timedCyc (axis_timed w.onAxis) w.checks

theorem RunsTxn.commandPin : commandPin s i = some r := (commandPin_of_axis s w.onAxis).trans w.pin

theorem RunsTxn.time_poll (hs : s.sub = .poll) : TimingOk (endCycle false (txnDeliver (recvPoll s r))) :=
  recvPoll_time (fun _ => rfl) r w.cycEn hs (TimingOk.quiet (.inr (.inr (by simp [txnDeliver]))))

theorem RunsTxn.time_data (ht : TimingOk s) (hs : s.sub = .data) :
    TimingOk (endCycle false (txnDeliver (recvData s r))) :=
  recvData_time (fun _ => rfl) r w.cycEn hs ht (txnDeliver_byte_time _)

/-- RESTORE leaves the pin high for the guard (R136). -/
theorem RunsTxn.time_restore : TimingOk (endCycle false (txnRestore s r)) :=
  high_time (i := i) (r := r) (.inr (.inr rfl)) w.dec w.commandPin ((odrBit_makeOutHigh s r r).trans (if_pos rfl))

theorem RunsTxn.time_guardStart (e : ErrCode) (ht : TimingOk s) (hs : s.sub = .guardStart) :
    TimingOk (endCycle false (txnGuardStart s e)) := by
  have hodr := ht.pin_high (.inr (.inr (.inl hs))) w.dec w.commandPin
  refine guard_time (i := i) (r := r) rfl w.dec w.cycEn w.commandPin hodr ?_
  rw [since_zero rfl]
  exact s.cfg.guard_pos

theorem RunsTxn.time_guarding (e : ErrCode) (ht : TimingOk s) (hs : s.sub = .guarding) :
    TimingOk (endCycle false (txnGuard s e)) :=
  guard_time hs w.dec w.cycEn w.commandPin (ht.pin_high (.inr (.inr (.inr hs))) w.dec w.commandPin) (ht.of_guarding hs)

end

/-- SETUP leaves the pin high for the first character (R109, R130). -/
theorem setup_time {i : Instr} {axis : BitVec 4} {r : PinRef} {s u : State} {len : Nat} (hd : decode s.cmd = .ok i)
    (ha : axisOf i = some axis) (hr : axisPin s axis = some r) (b : Bool)
    (hu : fix { s with tout := b } len = some u) :
    TimingOk (endCycle false { makeOutHigh u r with irqSuppress := true, k := 0, sub := .sendStart }) := by
  obtain ⟨hcfg, hcmd, -⟩ := fix_hostSide hu
  refine high_time (i := i) (r := r) (.inl rfl) ?_ ?_ ((odrBit_makeOutHigh u r r).trans (if_pos rfl))
  · exact (congrArg decode hcmd).trans hd
  · exact (commandPin_of_axis _ ha).trans ((axisPin_congr hcfg axis).trans hr)

/-! ## Every command, the host access and the whole step -/

section
variable {s t : State}

theorem time_exec_wait (hi : Inv s) (ht : TimingOk s) (hb : s.busy = true) (hd : decode s.cmd = .ok .wait)
    (h : exec .wait s = .next t) : TimingOk (endCycle false t) := by
  rcases execWait_cases h with ⟨hs, rfl⟩ | ⟨-, hok, rfl⟩ | ⟨-, -, rfl⟩
  · have hok := hi.engineOk.checks_of_mem hb hd (by simp [hs, subOps])
    obtain ⟨-, hlt, harg⟩ := ht.of_waiting hs
    exact waitCycle_time hs (timedCyc rfl hok) harg (by omega)
  · obtain ⟨-, -, hcyc, harg⟩ := entryError_eq_ok.mp hok
    exact waitCycle_time rfl (hcyc rfl) (harg rfl) (by rw [since_zero rfl]; decide)
  · exact TimingOk.retire _ _ _

theorem time_exec_sendb {port : BitVec 3} {pin : BitVec 4} (hi : Inv s) (ht : TimingOk s) (hb : s.busy = true)
    (hd : decode s.cmd = .ok (.sendb port pin)) (h : exec (.sendb port pin) s = .next t) :
    TimingOk (endCycle false t) := by
  rcases execSendb_cases h with ⟨-, -, rfl⟩ | ⟨hs, hend, rfl⟩ | ⟨-, hok, rfl⟩ | ⟨-, -, rfl⟩
  · exact TimingOk.retire _ _ _
  · have hok := hi.engineOk.checks_of_mem hb hd (by simp [hs, subOps])
    exact sendEdge_time ht hd rfl (timedCyc rfl hok) hs hend
  · exact sendEnter_time hd rfl (timedCyc rfl hok)
  · exact TimingOk.retire _ _ _

theorem time_exec_recvb {port : BitVec 3} {pin : BitVec 4} (hi : Inv s) (ht : TimingOk s) (hb : s.busy = true)
    (hd : decode s.cmd = .ok (.recvb port pin)) (h : exec (.recvb port pin) s = .next t) :
    TimingOk (endCycle false t) := by
  rcases execRecvb_cases h with ⟨hs, rfl⟩ | ⟨hs, rfl⟩ | ⟨-, -, hok, rfl⟩ | ⟨-, -, -, rfl⟩
  · have hok := hi.engineOk.checks_of_mem hb hd (by simp [hs, subOps])
    exact recvPoll_time (fun _ => rfl) _ (timedCyc rfl hok) hs (TimingOk.retire _ _ _)
  · have hok := hi.engineOk.checks_of_mem hb hd (by simp [hs, subOps])
    exact recvData_time (fun _ => rfl) _ (timedCyc rfl hok) hs ht fun _ => TimingOk.retire _ _ _
  · have hcyc : (recvEnter s).cycEn = true := timedCyc (i := .recvb port pin) rfl hok
    exact recvPoll_time (fun _ => rfl) _ hcyc rfl (TimingOk.retire _ _ _)
  · exact TimingOk.retire _ _ _

theorem time_exec_wrtxn {axis : BitVec 4} (hi : Inv s) (ht : TimingOk s) (hb : s.busy = true)
    (hd : decode s.cmd = .ok (.wrtxn axis)) (h : exec (.wrtxn axis) s = .next t) : TimingOk (endCycle false t) := by
  rcases execWrtxn_cases h with ⟨-, rfl⟩ | ⟨r, hr, hc⟩
  · exact TimingOk.retire _ _ _
  have runs : s.sub ∈ subOps (.wrtxn axis) → RunsTxn (.wrtxn axis) axis r s := RunsTxn.of_mem hi hb hd rfl hr
  cases hc with
  | sendStart hs _ => exact sendEnter_time hd hr (runs (by simp [hs, subOps])).cycEn
  | sending hs => exact txnSend_time ht hd hr (runs (by simp [hs, subOps])).cycEn hs (.inr rfl)
  | guardStart hs => exact (runs (by simp [hs, subOps])).time_guardStart _ ht hs
  | guarding hs => exact (runs (by simp [hs, subOps])).time_guarding _ ht hs
  | setup _ _ hu => exact setup_time hd rfl hr s.tout hu
  | raised _ _ => exact TimingOk.retire _ _ _

theorem time_exec_rdtxn {axis : BitVec 4} (hi : Inv s) (ht : TimingOk s) (hb : s.busy = true)
    (hd : decode s.cmd = .ok (.rdtxn axis)) (h : exec (.rdtxn axis) s = .next t) : TimingOk (endCycle false t) := by
  rcases execRdtxn_cases h with ⟨-, rfl⟩ | ⟨r, hr, hc⟩
  · exact TimingOk.retire _ _ _
  have runs : s.sub ∈ subOps (.rdtxn axis) → RunsTxn (.rdtxn axis) axis r s := RunsTxn.of_mem hi hb hd rfl hr
  cases hc with
  | sendStart hs _ => exact sendEnter_time hd hr (runs (by simp [hs, subOps])).cycEn
  | sending hs => exact txnSend_time ht hd hr (runs (by simp [hs, subOps])).cycEn hs (.inl rfl)
  | turn _ => exact poll_time rfl s.cfg.rxTimeout_pos
  | poll hs => exact (runs (by simp [hs, subOps])).time_poll hs
  | data hs => exact (runs (by simp [hs, subOps])).time_data ht hs
  | restore hs => exact (runs (by simp [hs, subOps])).time_restore
  | guardStart hs => exact (runs (by simp [hs, subOps])).time_guardStart _ ht hs
  | guarding hs => exact (runs (by simp [hs, subOps])).time_guarding _ ht hs
  | setup _ _ hu => exact setup_time hd rfl hr false hu
  | raised _ _ => exact TimingOk.retire _ _ _

/-- A command without later sub-operations retires in its one cycle (R86-R89, R96-R98, R124, R125). -/
theorem exec_retires {i : Instr} (hi : subOps i = []) (h : exec i s = .next t) : ∃ e u, t = retire e u := by
  cases i with
  | nop => rw [execNop_eq] at h; cases h; exact ⟨_, _, rfl⟩
  | init => rw [execInit_eq] at h; cases h; exact ⟨_, _, rfl⟩
  | now => rcases execNow_cases h with ⟨-, rfl⟩ | ⟨-, rfl⟩ <;> exact ⟨_, _, rfl⟩
  | elapsed => rcases execElapsed_cases h with ⟨-, rfl⟩ | ⟨-, rfl⟩ <;> exact ⟨_, _, rfl⟩
  | setmode _ _ _ => rcases execSetmode_cases h with ⟨-, -, rfl⟩ | ⟨-, -, rfl⟩ | ⟨-, rfl⟩ <;> exact ⟨_, _, rfl⟩
  | setlvl _ _ _ => rcases execSetlvl_cases h with ⟨-, rfl⟩ | ⟨-, rfl⟩ <;> exact ⟨_, _, rfl⟩
  | getlvl _ _ => rcases execGetlvl_cases h with ⟨-, rfl⟩ | ⟨-, rfl⟩ <;> exact ⟨_, _, rfl⟩
  | framew => obtain ⟨u, -, rfl⟩ := execFramew_cases h; exact ⟨_, _, rfl⟩
  | framer => obtain ⟨u, -, rfl⟩ := execFramer_cases h; exact ⟨_, _, rfl⟩
  | wait | sendb | recvb | wrtxn | rdtxn => cases hi

/-- Every cycle of every command, with the counter's update behind it, keeps the clockwork. -/
theorem time_exec {i : Instr} (hi : Inv s) (ht : TimingOk s) (hb : s.busy = true) (hd : decode s.cmd = .ok i)
    (h : exec i s = .next t) : TimingOk (endCycle (performsInit i) t) := by
  cases i with
  | wait => exact time_exec_wait hi ht hb hd h
  | sendb port pin => exact time_exec_sendb hi ht hb hd h
  | recvb port pin => exact time_exec_recvb hi ht hb hd h
  | wrtxn axis => exact time_exec_wrtxn hi ht hb hd h
  | rdtxn axis => exact time_exec_rdtxn hi ht hb hd h
  | _ => obtain ⟨e, u, rfl⟩ := exec_retires rfl h; exact TimingOk.retire _ _ _

/-- While no command runs, the host access leaves the engine idle or starts an entry cycle (R51, R83). -/
theorem serve_idle_sub (hb : s.busy = false) (h : serve s = .next t) : t.sub = .idle ∨ t.sub = .entry := by
  have hidle : s.sub = .idle := by simpa [State.busy] using hb
  rcases serve_cases h with rfl | ⟨r, rfl⟩ | ⟨-, r, v, -, -, rfl⟩
  · exact .inl hidle
  · exact .inl hidle
  by_cases hst : r = .status
  · rw [hst]; exact .inl hidle
  · rw [hostWrite_idle hst hb]
    cases r with
    | cmd => exact .inr rfl
    | _ => exact .inl hidle

end

end Sys2Proof.Machine

namespace Sys2Proof

open Machine

/-- Settles O15: reset and an idle engine have no clock running, the host access leaves a running one alone, and each
command keeps its own. -/
theorem everyStepKeepsTheClockwork : Obligations.EveryStepKeepsTheClockwork := by
  intro s t hi ht h
  rcases step_cases h with ⟨-, rfl⟩ | ⟨-, u, hu, ⟨hb, rfl⟩ | ⟨-, -, rfl⟩ | ⟨hb, i, v, hd, hv, rfl⟩⟩
  case inl => exact TimingOk.quiet (.inl rfl)
  case inr.inl =>
    rcases serve_idle_sub hb hu with hs | hs
    · exact TimingOk.quiet (.inl (by simpa using hs))
    · exact TimingOk.quiet (.inr (.inl (by simpa using hs)))
  case inr.inr.inl => exact TimingOk.retire _ _ _
  case inr.inr.inr =>
    have htu : TimingOk u := by obtain ⟨o, d, rfl⟩ := serve_busy hb hu; exact ht
    exact time_exec (serve_inv hi hu) htu (serve_keeps_busy hb hu) hd hv

end Sys2Proof
end

section
/-! The commands of the timer and SENDB: the counter's update, the cycles and the duration of WAIT, the cycles of SENDB,
and the one-cycle commands (30_encoding.md R83; 40_timer.md R80-R90; 42_uart_tx.md R106). -/

namespace Sys2Proof.Machine

/-! ## The counter's update (R80) -/

section
variable {s t : State}

/-- A command's cycle with the counter's update behind it: 0 after INIT, else one more while CYC_EN is 1. -/
theorem endCycle_exec_cyccnt {i : Instr} (h : exec i s = .next t) :
    (endCycle (performsInit i) t).cyccnt = if i = .init then 0 else if s.cycEn then s.cyccnt + 1 else s.cyccnt := by
  by_cases hi : i = .init
  · subst hi
    rw [execInit_eq] at h; cases h
    rfl
  · obtain ⟨hcnt, hen⟩ := exec_timer h hi
    rw [performsInit_eq hi, endFalse_cyc, hcnt, hen, if_neg hi]

/-- CYCCNT after a cycle without RESET (R80). -/
theorem step_cyccnt (hr : (currentInput s).reset = false) (h : step s = .next t) :
    t.cyccnt = if s.busy = true ∧ decode s.cmd = .ok .init then 0
      else if s.cycEn then s.cyccnt + 1 else s.cyccnt := by
  rcases step_cases h with ⟨hreset, -⟩ | ⟨-, u, hu, hcase⟩
  · rw [hr] at hreset; cases hreset
  obtain ⟨-, -, hcnt, hen, -⟩ := serve_frame hu
  rcases hcase with ⟨hb, rfl⟩ | ⟨hb, ⟨e, he⟩, rfl⟩ | ⟨hb, i, v, hd, hv, rfl⟩
  case inl => rw [endFalse_cyc, hcnt, hen]; simp [hb]
  case inr.inl =>
    rw [busy_cmd hb hu] at he
    rw [endFalse_cyc, retire_cyccnt, retire_cycEn, hcnt, hen]
    simp [he]
  case inr.inr =>
    rw [busy_cmd hb hu] at hd
    rw [endCycle_exec_cyccnt hv, hcnt, hen]
    simp [hb, hd]

end

/-! ## Retirement with no other effect -/

theorem Retired.retire (e : ErrCode) (s : State) : Retired e (retire e s) := ⟨rfl, rfl⟩

/-- The counter's update does not look at what a retirement writes. -/
theorem endCycle_retire (b : Bool) (e : ErrCode) (s : State) : endCycle b (retire e s) = retire e (endCycle b s) := by
  cases b <;> cases hc : s.cycEn <;> simp [endCycle, countCycle, retire, hc]

/-! ## WAIT (R90) -/

theorem waitCycle_pins (s : State) : SamePins s (waitCycle s) := by
  unfold waitCycle; split <;> rfl

theorem waitCycle_bytes (s : State) : SameBytes s (waitCycle s) := by
  unfold waitCycle; split <;> exact fun _ => rfl

theorem waitCycle_t0 (s : State) : (waitCycle s).t0 = s.t0 := by
  unfold waitCycle; split <;> rfl

section
variable {s : State}

/-- The cycle of WAIT that captures T0 is its last if ARG ≤ 1 (R84, R90). -/
theorem waitCycle_of_captured (ha : s.arg.toNat < 2 ^ 31) (h0 : s.t0 = s.cyccnt) :
    (s.arg.toNat ≤ 1 → waitCycle s = retire .ok s) ∧ (1 < s.arg.toNat → waitCycle s = s) := by
  have hsince : sinceT0 s = 0 := since_zero h0
  exact ⟨fun hend => waitCycle_last ha (by omega) (by omega), fun hgo => waitCycle_not_last ha (by omega) (by omega)⟩

/-- The state of a WAIT whose entry cycle was that of `s`, `n` quiet cycles after it. -/
def waitAfter (s : State) (n : Nat) : State :=
  { s with
    sub := .waiting
    t0 := s.cyccnt
    cyccnt := s.cyccnt + BitVec.ofNat 32 n
    rdata := none
    inputs := s.inputs.drop n
    cycle := s.cycle + n }

theorem waitAfter_zero (s : State) :
    waitAfter s 0 = { s with rdata := none, t0 := s.cyccnt, sub := .waiting } := by
  simp [waitAfter]

theorem sinceT0_waitAfter {n : Nat} (hn : n < 2 ^ 32) : sinceT0 (waitAfter s n) = n :=
  sinceT0_of_eq rfl hn

theorem endCycle_waitAfter (hc : s.cycEn = true) (n : Nat) : endCycle false (waitAfter s n) = waitAfter s (n + 1) := by
  simp [endCycle, countCycle, waitAfter, hc, ← cyc_succ, Nat.add_assoc]

/-- A WAIT before its last cycle goes on. -/
theorem waitCycle_waitAfter {n : Nat} (ha : s.arg.toNat < 2 ^ 31) (hn : n + 1 < s.arg.toNat) :
    waitCycle (waitAfter s n) = waitAfter s n := by
  have hsince : sinceT0 (waitAfter s n) = n := sinceT0_waitAfter (by omega)
  exact waitCycle_not_last ha (by omega) (by rw [hsince]; exact hn)

/-- The cycles of WAIT: in each of them it is busy in phase WAIT, and does what its cycle does `n` cycles after T0. -/
theorem wait_run (hs : s.sub = .entry) (hd : decode s.cmd = .ok .wait) (hc : s.cycEn = true)
    (ha : s.arg.toNat < 2 ^ 31) (hq : QuietFor (max s.arg.toNat 1) s) (n : Nat) (hn : n < max s.arg.toNat 1) :
    ∃ t, cycles n s = .next t ∧ t.busy = true ∧ phase t = .wait
      ∧ cycles (n + 1) s = .next (endCycle false (waitCycle (waitAfter s n))) := by
  induction n with
  | zero =>
    have hb : s.busy = true := (busy_iff s).mpr (by simp [hs])
    have hphase : phase s = .wait :=
      ((phase_entry hs).2 .wait hd).2 ⟨rfl, nofun, fun _ => hc, fun _ => ha⟩
    have hexec : exec .wait { s with rdata := none } = .next (waitCycle (waitAfter s 0)) := by
      rw [waitAfter_zero]; exact execWait_entry (s := { s with rdata := none }) hs hc ha
    exact ⟨s, rfl, hb, hphase, run_succ hq hn rfl hb hd nofun hexec⟩
  | succ n ih =>
    obtain ⟨-, -, -, -, hrun⟩ := ih (by omega)
    rw [waitCycle_waitAfter ha (by omega), endCycle_waitAfter hc] at hrun
    have hexec : exec .wait { waitAfter s (n + 1) with rdata := none } = .next (waitCycle (waitAfter s (n + 1))) :=
      execWait_waiting rfl
    exact ⟨_, hrun, rfl, rfl, run_succ hq hn hrun rfl hd nofun hexec⟩

/-- WAIT retires in its cycle number max(ARG, 1). -/
theorem cycles_wait (hs : s.sub = .entry) (hd : decode s.cmd = .ok .wait) (hc : s.cycEn = true)
    (ha : s.arg.toNat < 2 ^ 31) (hq : QuietFor (max s.arg.toNat 1) s) :
    cycles (max s.arg.toNat 1) s = .next (retire .ok (waitAfter s (max s.arg.toNat 1))) := by
  obtain ⟨n, hn⟩ : ∃ n, max s.arg.toNat 1 = n + 1 := ⟨max s.arg.toNat 1 - 1, by omega⟩
  obtain ⟨-, -, -, -, hrun⟩ := wait_run hs hd hc ha hq n (by omega)
  have hsince : sinceT0 (waitAfter s n) = n := sinceT0_waitAfter (by omega)
  have hend : waitCycle (waitAfter s n) = retire .ok (waitAfter s n) :=
    waitCycle_last ha (by omega) (by rw [hsince]; show s.arg.toNat ≤ n + 1; omega)
  rw [hend, endCycle_retire, endCycle_waitAfter hc] at hrun
  rw [hn]; exact hrun

end

/-! ## SENDB (R106) -/

/-- SEND's entry cycle writes the start bit and leaves every mode and every other pin (R106, R107). -/
theorem odrBit_sendEnter (s : State) (r : PinRef) (b : Byte) : odrBit (sendEnter s r b) r = false :=
  (odrBit_drive _ r r false).trans (if_pos rfl)

theorem pinMode_sendEnter (s : State) (r q : PinRef) (b : Byte) : pinMode (sendEnter s r b) q = pinMode s q :=
  pinMode_drive _ r q false

theorem pins_sendEnter (s : State) (r : PinRef) (b : Byte) : SamePinsBut r s (sendEnter s r b) :=
  fun q hq => pins_drive { s with t0 := s.cyccnt, txb := b, sub := .sending } r q false hq

/-- A later cycle of SEND before its end writes the frame bit of the deadline it is at, else nothing (R106). -/
theorem odrBit_sendEdge {s : State} {r : PinRef} (hx : sinceT0 s < 10 * bp s) :
    (∀ m, m < 10 → sinceT0 s = m * bp s → odrBit (sendEdge s r) r = frameBit s.txb m)
      ∧ ((∀ m, m < 10 → sinceT0 s ≠ m * bp s) → odrBit (sendEdge s r) r = odrBit s r) :=
  ⟨fun _ _ hm => edge_at hm, fun hno => by rw [edge_not hx hno]⟩

theorem sendEdge_timer (s : State) (r : PinRef) : SameTimer s (sendEdge s r) := ⟨by simp, by simp⟩

theorem sendEdge_bytes (s : State) (r : PinRef) : SameBytes s (sendEdge s r) := fun a => by rw [sendEdge_mem]

end Sys2Proof.Machine

namespace Sys2Proof

open Machine

/-- Settles O8: the three branches of the update, for every kind of cycle. -/
theorem counterUpdate : Obligations.CounterUpdate := by
  intro s t hr h
  have hcnt := step_cyccnt hr h
  refine ⟨fun hinit => ?_, fun hno hen => ?_, fun hno hen => ?_⟩
  · rw [hcnt, if_pos hinit]
  · rw [hcnt, if_neg hno, if_pos hen]
  · rw [hcnt, if_neg hno, if_neg (by simp [hen])]

/-- Settles O37: with ARG below 2^31 the deadline test is the comparison of the cycles gone with ARG. -/
theorem waitCycles : Obligations.WaitCycles := by
  refine ⟨fun s hs hc ha => ?entry, fun s hs ha hx => ?later⟩
  case entry =>
    obtain ⟨hlast, hgo⟩ := waitCycle_of_captured (s := { s with t0 := s.cyccnt, sub := .waiting }) ha rfl
    refine ⟨_, execWait_entry hs hc ha, waitCycle_t0 _, fun hend => ?_, fun hlong => ?_, waitCycle_hostSide _,
      waitCycle_timer _, waitCycle_outputs _, waitCycle_pins _, waitCycle_bytes _⟩
    · rw [hlast hend]; exact Retired.retire .ok _
    · rw [hgo hlong]; exact ⟨rfl, rfl, rfl⟩
  case later =>
    refine ⟨_, execWait_waiting hs, fun hend => ?_, waitCycle_not_last ha hx, waitCycle_hostSide s, waitCycle_timer s,
      waitCycle_outputs s, waitCycle_pins s, waitCycle_bytes s⟩
    rw [waitCycle_last ha hx hend]
    exact Retired.retire .ok s

/-- Settles O38: the run of its cycles, and the retirement in the last of them. -/
theorem waitOccupiesMaxArgOneCycles : Obligations.WaitOccupiesMaxArgOneCycles := by
  intro s hs hd hc ha hq
  refine ⟨fun n hn => ?busy, _, cycles_wait hs hd hc ha hq, Retired.retire .ok _, ⟨rfl, rfl⟩, rfl, fun _ => rfl, rfl, rfl,
    rfl, rfl, rfl⟩
  case busy =>
    obtain ⟨t, hrun, hb, hphase, -⟩ := wait_run hs hd hc ha hq n hn
    exact ⟨t, hrun, hb, hphase⟩

/-- Settles O41: the entry cycle is SEND's, a later cycle is its edge, behind which the last one retires. -/
theorem sendbCycles : Obligations.SendbCycles := by
  intro s port pin
  refine ⟨fun hs hc hp => ?entry, fun hs hx => ?later⟩
  case entry =>
    exact ⟨_, execSendb_entry hs hc hp, rfl, rfl, rfl, rfl, rfl, odrBit_sendEnter s _ _,
      fun q => pinMode_sendEnter s _ q _, pins_sendEnter s _ _, ⟨rfl, rfl, rfl, rfl, rfl, rfl, rfl⟩, ⟨rfl, rfl⟩,
      ⟨rfl, rfl⟩, fun _ => rfl⟩
  case later =>
    obtain ⟨hedge, hnone⟩ := odrBit_sendEdge (r := ⟨port, pin⟩) hx
    have hmode := pinMode_sendEdge s ⟨port, pin⟩
    have hpins := pins_edge s ⟨port, pin⟩
    have hhost := edge_SameHost s ⟨port, pin⟩
    have htimer := sendEdge_timer s ⟨port, pin⟩
    have hout := sendEdge_outputs s ⟨port, pin⟩
    have hbytes := sendEdge_bytes s ⟨port, pin⟩
    have hexec := execSendb_sending (port := port) (pin := pin) hs
    by_cases hend : 10 * bp s ≤ sinceT0 s + 1
    · rw [if_pos ((send_ends hx).mpr hend)] at hexec
      exact ⟨_, hexec, hedge, hnone, fun _ => Retired.retire .ok _, fun hgo => absurd hend (by omega), hmode, hpins, hhost,
        htimer, hout, hbytes⟩
    · rw [if_neg (mt (send_ends hx).mp hend)] at hexec
      have hsub : (sendEdge s ⟨port, pin⟩).sub = .sending := (sendEdge_sub s _).trans hs
      exact ⟨_, hexec, hedge, hnone, fun hyes => absurd hyes hend,
        fun _ => ⟨hsub, (busy_iff _).mpr (by simp [hs]), sendEdge_err s _⟩, hmode, hpins, hhost, htimer, hout, hbytes⟩

/-- Settles O6: the placed word decodes to its command, and its cycle is quiet. -/
theorem placedCommandRunsNext : Obligations.PlacedCommandRunsNext := by
  intro s t w i hw
  have hd : decode (BitVec.ofNat 32 (w % 2 ^ 32)) = .ok i := by
    unfold decodeTableWord at hw
    split at hw
    · rename_i hok; cases hw; exact hok
    · cases hw
  have hq : QuietNow (s.withFetchWord 32 w) := ⟨rfl, rfl⟩
  exact ⟨rfl, rfl, step_quiet_exec hq rfl hd⟩

/-- Settles O34: NOP has no entry check that fails (R86). -/
theorem nopCompletes : Obligations.NopCompletes := by
  intro s
  refine ⟨_, execNop_eq s, Retired.retire .ok s, ?_⟩
  simp [SameHostSide, SameTimer, SameOutputs, SamePins, SameBytes]

/-- Settles O35: INIT's own write of CYCCNT stands in its cycle, and the next cycle counts (R80, R87). -/
theorem initCompletes : Obligations.InitCompletes := by
  refine ⟨fun s => ⟨_, execInit_eq s, Retired.retire .ok _, rfl, rfl, ?frame⟩, fun s hb hd hq => ?run⟩
  case frame => simp [SameHostSide, SameOutputs, SamePins, SameBytes]
  case run =>
    have hstep := step_quiet_exec hq.now hb hd (execInit_eq { s with rdata := none })
    have hnext : QuietFor 1 _ := hq.tail (step_clock hstep).1
    exact ⟨_, _, hstep, rfl, rfl, rfl, step_quiet_idle hnext.now rfl, rfl⟩

/-- Settles O36: with CYC_EN 1 both pass their entry checks and write RESULT alone (R82, R88, R89). -/
theorem nowAndElapsedComplete : Obligations.NowAndElapsedComplete := by
  intro s hc
  refine ⟨⟨_, execNow_eq hc, Retired.retire .ok _, rfl, rfl, ?now⟩,
    ⟨_, execElapsed_eq hc, Retired.retire .ok _, rfl, rfl, ?elapsed⟩⟩
  all_goals simp [SameHostSide, SameTimer, SamePins, SameBytes]

end Sys2Proof
end

section
/-! The pins (41_pin.md): what a cycle of a command does to the port registers, said once (R96-R99, R102), and the pin
commands SETMODE, SETLVL and GETLVL. -/

namespace Sys2Proof.Machine

/-! ## What a cycle of a command does to the pins -/

/-- What a cycle from `s` to `t` does to the port registers, for a command on the pin `o`: nothing, or one action on
that pin. A level is driven in either mode; only with the ODR bit set does the pin become an output (R96, R97, R99). -/
inductive PinCycle (s t : State) (o : Option PinRef) : Prop
  | keeps (h : t.ports = s.ports)
  | drives (r : PinRef) (b : Bool) (hr : o = some r) (h : t.ports = (drive s r b).ports)
  | outHigh (r : PinRef) (hr : o = some r) (h : t.ports = (makeOutHigh s r).ports)
  | floats (r : PinRef) (hr : o = some r) (h : t.ports = (makeInFloat s r).ports)

section
variable {s t : State} {r : PinRef} {o : Option PinRef}

theorem PinCycle.of_sendEdge (h : t.ports = (sendEdge s r).ports) : PinCycle s t (some r) := by
  unfold sendEdge at h
  split at h
  · exact .drives r _ rfl h
  · exact .keeps h

theorem PinCycle.of_txnSend (len : Nat) (after : SubOp) : PinCycle s (txnSend s r len after) (some r) :=
  .of_sendEdge (by unfold txnSend; split <;> rfl)

theorem fix_ports {u v : State} {len : Nat} (h : fix v len = some u) : u.ports = v.ports := by rw [fix_frame h]

/-- SETUP makes the pin an output; the FIX before it touches the buffers alone (R130). -/
theorem PinCycle.of_setup {u v : State} {len : Nat} (hv : v.ports = s.ports) (hu : fix v len = some u)
    (ht : t.ports = (makeOutHigh u r).ports) : PinCycle s t (some r) := by
  have hports : u.ports = s.ports := (fix_ports hu).trans hv
  refine .outHigh r rfl (ht.trans ?_)
  simp only [makeOutHigh, setMode, drive, State.setPort, State.port, hports]

/-- A pin the command does not act on keeps its ODR bit and its mode (R102). -/
theorem PinCycle.other_pin (h : PinCycle s t o) {q : PinRef} (hq : o ≠ some q) :
    odrBit t q = odrBit s q ∧ pinMode t q = pinMode s q := by
  have ne_pin : ∀ {r}, o = some r → q ≠ r := fun hr e => hq (hr.trans (congrArg some e.symm))
  cases h with
  | keeps h => exact pins_eq h q
  | drives r b hr h => simpa only [pins_eq h q] using pins_drive s r q b (ne_pin hr)
  | outHigh r hr h => simpa only [pins_eq h q] using pins_out s r q (ne_pin hr)
  | floats r hr h => simpa only [pins_eq h q] using pins_in s r q (ne_pin hr)

/-- A pin that has become an output has its ODR bit set (R99). -/
theorem PinCycle.odrBit_of_new_output (h : PinCycle s t o) {q : PinRef} (hs : pinMode s q ≠ modeOutPp)
    (ht : pinMode t q = modeOutPp) : odrBit t q = true := by
  cases h with
  | keeps h => exact absurd ((pinMode_congr h q).symm.trans ht) hs
  | drives r b _ h =>
    rw [pinMode_congr h, pinMode_drive] at ht
    exact absurd ht hs
  | outHigh r _ h =>
    rw [pinMode_congr h, pinMode_makeOutHigh] at ht
    rw [odrBit_congr h, odrBit_makeOutHigh]
    split
    · rfl
    · next hne => exact absurd ((if_neg hne).symm.trans ht) hs
  | floats r _ h =>
    rw [pinMode_congr h, pinMode_makeInFloat] at ht
    split at ht
    · exact absurd ht (by decide)
    · exact absurd ht hs

end

theorem waitCycle_ports (s : State) : (waitCycle s).ports = s.ports := by
  unfold waitCycle; split <;> rfl

theorem txnGuard_ports (s : State) (e : ErrCode) : (txnGuard s e).ports = s.ports := by
  unfold txnGuard; split <;> rfl

/-- Every cycle of every command does one of the four things of `PinCycle`, on the pin the command names (R96-R99, R102,
R107, R130, R133, R136). -/
theorem exec_pinCycle {i : Instr} {s t : State} (h : exec i s = .next t) : PinCycle s t (commandPin s i) := by
  cases i with
  | nop => rw [execNop_eq] at h; cases h; exact .keeps rfl
  | init => rw [execInit_eq] at h; cases h; exact .keeps rfl
  | now => rcases execNow_cases h with ⟨-, rfl⟩ | ⟨-, rfl⟩ <;> exact .keeps rfl
  | elapsed => rcases execElapsed_cases h with ⟨-, rfl⟩ | ⟨-, rfl⟩ <;> exact .keeps rfl
  | wait =>
    rcases execWait_cases h with ⟨-, rfl⟩ | ⟨-, -, rfl⟩ | ⟨-, -, rfl⟩
    · exact .keeps (waitCycle_ports s)
    · exact .keeps (waitCycle_ports _)
    · exact .keeps rfl
  | setmode port pin mode =>
    rcases execSetmode_cases h with ⟨-, -, rfl⟩ | ⟨-, -, rfl⟩ | ⟨-, rfl⟩
    · exact .outHigh _ rfl rfl
    · exact .floats _ rfl rfl
    · exact .keeps rfl
  | setlvl port pin lvl =>
    rcases execSetlvl_cases h with ⟨-, rfl⟩ | ⟨-, rfl⟩
    · exact .drives _ lvl rfl rfl
    · exact .keeps rfl
  | getlvl port pin => rcases execGetlvl_cases h with ⟨-, rfl⟩ | ⟨-, rfl⟩ <;> exact .keeps rfl
  | sendb port pin =>
    rcases execSendb_cases h with ⟨-, -, rfl⟩ | ⟨-, -, rfl⟩ | ⟨-, -, rfl⟩ | ⟨-, -, rfl⟩
    · exact .of_sendEdge rfl
    · exact .of_sendEdge rfl
    · exact .drives _ false rfl rfl
    · exact .keeps rfl
  | recvb port pin =>
    rcases execRecvb_cases h with ⟨-, rfl⟩ | ⟨-, rfl⟩ | ⟨-, -, -, rfl⟩ | ⟨-, -, -, rfl⟩
    · exact .keeps ((recvbDeliver_ports _).trans (recvPoll_ports s _))
    · exact .keeps ((recvbDeliver_ports _).trans (recvData_ports s _))
    · exact .keeps ((recvbDeliver_ports _).trans (recvPoll_ports (recvEnter s) _))
    · exact .keeps rfl
  | framew =>
    obtain ⟨u, hu, rfl⟩ := execFramew_cases h
    exact .keeps ((retire_ports u _).trans (fix_ports hu))
  | framer =>
    obtain ⟨u, hu, rfl⟩ := execFramer_cases h
    exact .keeps ((retire_ports u _).trans (fix_ports hu))
  | wrtxn axis =>
    rcases execWrtxn_cases h with ⟨-, rfl⟩ | ⟨r, hr, hc⟩
    · exact .keeps rfl
    rw [show commandPin s (.wrtxn axis) = some r from hr]
    cases hc with
    | sendStart => exact .drives r false rfl rfl
    | sending => exact .of_txnSend _ _
    | guardStart => exact .keeps (txnGuard_ports _ _)
    | guarding => exact .keeps (txnGuard_ports _ _)
    | setup _ _ hu => exact .of_setup rfl hu rfl
    | raised => exact .keeps rfl
  | rdtxn axis =>
    rcases execRdtxn_cases h with ⟨-, rfl⟩ | ⟨r, hr, hc⟩
    · exact .keeps rfl
    rw [show commandPin s (.rdtxn axis) = some r from hr]
    cases hc with
    | sendStart => exact .drives r false rfl rfl
    | sending => exact .of_txnSend _ _
    | turn => exact .floats r rfl rfl
    | poll => exact .keeps ((txnDeliver_ports _).trans (recvPoll_ports s r))
    | data => exact .keeps ((txnDeliver_ports _).trans (recvData_ports s r))
    | restore => exact .outHigh r rfl rfl
    | guardStart => exact .keeps (txnGuard_ports _ _)
    | guarding => exact .keeps (txnGuard_ports _ _)
    | setup _ _ hu => exact .of_setup (v := { s with tout := false }) rfl hu rfl
    | raised => exact .keeps rfl

/-! ## SETMODE, SETLVL and GETLVL on an existing port (R96-R98) -/

section
variable {s : State} {port : BitVec 3} (pin : BitVec 4)

theorem execSetmode_outPp (hp : port.toNat < s.cfg.params.nPorts) :
    exec (.setmode port pin modeOutPp) s = .next (retire .ok (makeOutHigh s ⟨port, pin⟩)) := by
  have hw : (Instr.setmode port pin modeOutPp).wellFormed s.cfg.params.nPorts = true := by
    simp [Instr.wellFormed, legalP hp, legalMode]
  exact entering_ok _ (entryError_pin s rfl rfl hw)

theorem execSetmode_inFloat (hp : port.toNat < s.cfg.params.nPorts) :
    exec (.setmode port pin modeInFloat) s = .next (retire .ok (makeInFloat s ⟨port, pin⟩)) := by
  have hw : (Instr.setmode port pin modeInFloat).wellFormed s.cfg.params.nPorts = true := by
    simp [Instr.wellFormed, legalP hp, legalMode]
  exact entering_ok _ (entryError_pin s rfl rfl hw)

theorem execSetlvl_eq (lvl : Bool) (hp : port.toNat < s.cfg.params.nPorts) :
    exec (.setlvl port pin lvl) s = .next (retire .ok (drive s ⟨port, pin⟩ lvl)) :=
  entering_ok _ (entryError_pin s rfl rfl (legalP hp))

theorem execGetlvl_eq (hp : port.toNat < s.cfg.params.nPorts) :
    exec (.getlvl port pin) s = .next (retire .ok { s with result := bitWord (line s ⟨port, pin⟩) }) :=
  entering_ok _ (entryError_pin s rfl rfl (legalP hp))

end

end Sys2Proof.Machine

namespace Sys2Proof

open Machine

/-- Settles O17: the one action that makes a pin an output sets its ODR bit, and an output is at its ODR bit (R99,
R100). -/
theorem changeToOutputIsHigh : Obligations.ChangeToOutputIsHigh := by
  intro i s t q h hs ht
  have hodr : odrBit t q = true := (exec_pinCycle h).odrBit_of_new_output hs ht
  exact ⟨hodr, (line_of_outPp ht).trans hodr⟩

/-- Settles O18: every action of a command is on the pin it names (R102). -/
theorem commandTouchesItsPinAlone : Obligations.CommandTouchesItsPinAlone :=
  fun _ _ _ _ h hq => (exec_pinCycle h).other_pin hq

/-- Settles O39: both modes pass the entry checks on an existing port, whatever CYC_EN is (R96). -/
theorem setmodeCompletes : Obligations.SetmodeCompletes := by
  intro s port pin hp
  constructor
  case left =>
    have h := execSetmode_outPp pin hp
    have hmode : pinMode (makeOutHigh s ⟨port, pin⟩) ⟨port, pin⟩ = modeOutPp :=
      (pinMode_makeOutHigh s _ _).trans (if_pos rfl)
    have hodr : odrBit (makeOutHigh s ⟨port, pin⟩) ⟨port, pin⟩ = true :=
      (odrBit_makeOutHigh s _ _).trans (if_pos rfl)
    exact ⟨_, h, Retired.retire .ok _, hmode, hodr, (line_of_outPp hmode).trans hodr, pins_out s _,
      exec_hostSide h, exec_timer h nofun, ⟨rfl, rfl⟩, fun _ => rfl⟩
  case right =>
    have h := execSetmode_inFloat pin hp
    have hmode : pinMode (makeInFloat s ⟨port, pin⟩) ⟨port, pin⟩ = modeInFloat :=
      (pinMode_makeInFloat s _ _).trans (if_pos rfl)
    exact ⟨_, h, Retired.retire .ok _, hmode, odrBit_makeInFloat s _ _, pins_in s _,
      exec_hostSide h, exec_timer h nofun, ⟨rfl, rfl⟩, fun _ => rfl⟩

/-- Settles O40: SETLVL drives its pin in either mode, GETLVL writes RESULT alone, whatever CYC_EN is (R97, R98). -/
theorem setlvlAndGetlvlComplete : Obligations.SetlvlAndGetlvlComplete := by
  constructor
  case left =>
    intro s port pin lvl hp
    have h := execSetlvl_eq pin lvl hp
    have hodr : odrBit (drive s ⟨port, pin⟩ lvl) ⟨port, pin⟩ = lvl := (odrBit_drive s _ _ lvl).trans (if_pos rfl)
    exact ⟨_, h, Retired.retire .ok _, hodr, fun q => pinMode_drive s _ q lvl, fun q => pins_drive s _ q lvl,
      exec_hostSide h, exec_timer h nofun, ⟨rfl, rfl⟩, fun _ => rfl⟩
  case right =>
    intro s port pin hp
    have h := execGetlvl_eq pin hp
    exact ⟨_, h, Retired.retire .ok _, rfl, rfl, exec_hostSide h, exec_timer h nofun, rfl, fun _ => rfl⟩

end Sys2Proof
end

section
/-! Characters on the wire (42_uart_tx.md R105-R110; 45_transaction.md R131): SENDB from its entry cycle to its
retirement, and the cycles of a transaction's SEND. -/

namespace Sys2Proof.Machine

/-! ## The whole of SENDB (R105-R110) -/

/-- SEND's entry cycle leaves what a cycle inside a character leaves. -/
theorem CharKeeps.enter (s : State) (r : PinRef) (b : Byte) (d : Option Word) :
    CharKeeps s (sendEnter { s with rdata := d } r b) := by
  constructor <;> rfl

/-- The end of SEND's entry cycle is one cycle after T0 (R84). -/
theorem sinceT0_sendEnter_end {s : State} (r : PinRef) (b : Byte) (hc : s.cycEn = true) :
    sinceT0 (endCycle false (sendEnter s r b)) = 1 := by
  have hzero : sinceT0 (sendEnter s r b) = 0 := since_zero rfl
  rw [since_end (v := sendEnter s r b) hc (by omega), hzero]

theorem pinMode_end (b : Bool) (s : State) (r : PinRef) : pinMode (endCycle b s) r = pinMode s r :=
  pinMode_congr (endCycle_ports b s) r

/-- The last cycle of a character is in its bit 9, the stop bit (R105, R108). -/
theorem lastBit_eq_nine (s : State) : (10 * bp s - 1) / bp s = 9 := by
  have hbp : 1 ≤ bp s := s.cfg.bp_pos
  exact Nat.div_eq_of_lt_le (by omega) (by omega)

/-- What the state `n` cycles after the entry cycle `s` of a SENDB on the pin `r` holds, `n` from 1 to 10*BP. -/
structure SendbAfter (s : State) (r : PinRef) (n : Nat) (t : State) : Prop where
  odr : odrBit t r = frameBit (argByte s) ((n - 1) / bp s)
  mode : pinMode t r = pinMode s r
  irq : t.irqSuppress = s.irqSuppress
  sending : n < 10 * bp s → t.sub = .sending
  retired : n = 10 * bp s → Retired .ok t

section
variable {s : State} {port : BitVec 3} {pin : BitVec 4}
    (hs : s.sub = .entry) (hd : decode s.cmd = .ok (.sendb port pin))
    (hp : port.toNat < s.cfg.params.nPorts) (hc : s.cycEn = true) (hq : QuietFor (10 * bp s) s)
include hs hd hp hc hq

/-- SENDB's entry cycle is SEND's. -/
theorem sendb_entry_run :
    cycles 1 s = .next (endCycle false (sendEnter { s with rdata := none } ⟨port, pin⟩ (argByte s))) := by
  have hbp : 1 ≤ bp s := s.cfg.bp_pos
  exact run_succ (n := 0) hq (by omega) rfl ((busy_iff s).mpr (by simp [hs])) hd nofun
    (execSendb_entry (s := { s with rdata := none }) hs hc hp)

/-- SENDB, cycle by cycle: the entry cycle, then SEND's run, behind which it retires (R106-R110). -/
theorem sendb_run {n : Nat} (h1 : 1 ≤ n) (hn : n ≤ 10 * bp s) :
    ∃ t, cycles n s = .next t ∧ SendbAfter s ⟨port, pin⟩ n t := by
  have hbp : 1 ≤ bp s := s.cfg.bp_pos
  have hkeep := (CharKeeps.enter s ⟨port, pin⟩ (argByte s) none).fin
  have hmode : pinMode (endCycle false (sendEnter { s with rdata := none } ⟨port, pin⟩ (argByte s))) ⟨port, pin⟩
      = pinMode s ⟨port, pin⟩ := by
    rw [pinMode_end, pinMode_sendEnter]; rfl
  obtain ⟨hmid, u, hu, -, -, hstop, humode, -, hlast⟩ := send_run (i := .sendb port pin) (a := 0) (b := argByte s)
    (last := fun u => retire .ok (sendEdge u ⟨port, pin⟩)) hq (by omega) (sendb_entry_run hs hd hp hc hq)
    (by rw [hkeep.cmd]; exact hd) nofun (by simp)
    (sinceT0_sendEnter_end (s := { s with rdata := none }) ⟨port, pin⟩ (argByte s) hc) (by simp)
    (by rw [odr_end, odrBit_sendEnter]) (by rw [hkeep.cycEn]; exact hc) (fun _ _ hu => execSendb_sending hu)
  rcases hn.lt_or_eq with hlt | rfl
  · obtain ⟨t, ht, hkt, hsub, -, -, hodr, htmode, -⟩ := hmid n h1 hlt
    rw [Nat.zero_add] at ht
    exact ⟨t, ht, hodr, (htmode _).trans hmode, hkt.irq.trans hkeep.irq, fun _ => hsub, fun h => absurd h hlt.ne⟩
  · rw [Nat.zero_add] at hlast
    refine ⟨_, hlast, ?odr, ?mode, ?irq, fun h => absurd h (lt_irrefl _), fun _ => ?retired⟩
    case odr => rw [odr_end, lastBit_eq_nine]; exact hstop
    case mode =>
      rw [pinMode_end, ← hmode, ← humode]
      exact pinMode_sendEdge u _ _
    case irq => simpa using hu.irq.trans hkeep.irq
    case retired => rw [endCycle_retire]; exact Retired.retire .ok _

/-- While SENDB runs, its entry cycle included, BUSY is 1 and the phase is TX (R40, R108). -/
theorem sendb_busy {n : Nat} (hn : n < 10 * bp s) :
    ∃ t, cycles n s = .next t ∧ t.busy = true ∧ phase t = .tx := by
  cases n with
  | zero =>
    have hchecks : PassesChecks (.sendb port pin) s :=
      ⟨legalP hp, nofun, fun _ => hc, nofun⟩
    exact ⟨s, rfl, (busy_iff s).mpr (by simp [hs]), ((phase_entry hs).2 _ hd).2 hchecks⟩
  | succ n =>
    obtain ⟨t, ht, h⟩ := sendb_run hs hd hp hc hq (Nat.le_add_left 1 n) hn.le
    have hsub : t.sub = .sending := h.sending hn
    exact ⟨t, ht, (busy_iff t).mpr (by simp [hsub]), by simp [phase, hsub]⟩

end

/-! ## A transaction's SEND (R106, R131) -/

/-- `i` is a transaction on `axis` that sends `len` bytes and then enters `after` (R137, R138). -/
def SendsThen (s : State) (axis : BitVec 4) (i : Instr) (len : Nat) (after : SubOp) : Prop :=
  (i = .wrtxn axis ∧ len = s.cfg.params.writeLen ∧ after = .guardStart)
    ∨ (i = .rdtxn axis ∧ len = s.cfg.params.reqLen ∧ after = .turn)

section
variable {s : State} {axis : BitVec 4} {r : PinRef} {i : Instr} {len : Nat} {after : SubOp}

theorem SendsThen.exec_sendStart (h : SendsThen s axis i len after) (hr : axisPin s axis = some r)
    (hs : s.sub = .sendStart) : exec i s = txnSendStart s r := by
  rcases h with ⟨rfl, -, -⟩ | ⟨rfl, -, -⟩
  · exact execWrtxn_sendStart hr hs
  · exact execRdtxn_sendStart hr hs

theorem SendsThen.exec_sending (h : SendsThen s axis i len after) (hr : axisPin s axis = some r)
    (hs : s.sub = .sending) : exec i s = .next (txnSend s r len after) := by
  rcases h with ⟨rfl, rfl, rfl⟩ | ⟨rfl, rfl, rfl⟩
  · exact execWrtxn_sending hr hs
  · exact execRdtxn_sending hr hs

end

/-- SEND's entry cycle over a written byte is that of the character TX[K]. -/
theorem txnSendStart_of_written {s : State} (r : PinRef) {b : Byte} (hb : txByte s s.k = some b) :
    txnSendStart s r = .next (sendEnter s r b) := by
  simp [txnSendStart, hb]

section
variable (s : State) (r : PinRef) (len : Nat) (after : SubOp)

/-- The hand-over to the next byte or to `after` acts on K and the sub-operation alone. -/
theorem txnSend_ports : (txnSend s r len after).ports = (sendEdge s r).ports := by
  unfold txnSend; split <;> rfl

@[simp] theorem txnSend_err : (txnSend s r len after).err = s.err := by
  unfold txnSend; split <;> simp

theorem txnSend_bytes : SameBytes s (txnSend s r len after) := by
  unfold txnSend; split <;> exact sendEdge_bytes s r

theorem odrBit_txnSend (q : PinRef) : odrBit (txnSend s r len after) q = odrBit (sendEdge s r) q :=
  odrBit_congr (txnSend_ports s r len after) q

theorem pinMode_txnSend (q : PinRef) : pinMode (txnSend s r len after) q = pinMode s q :=
  (pinMode_congr (txnSend_ports s r len after) q).trans (pinMode_sendEdge s r q)

theorem pins_txnSend : SamePinsBut r s (txnSend s r len after) :=
  fun q hq => ⟨(odrBit_txnSend s r len after q).trans (pins_edge s r q hq).1, pinMode_txnSend s r len after q⟩

end

section
variable {s : State} (r : PinRef) (len : Nat) (after : SubOp)

/-- The last cycle of a character hands over (R131). -/
theorem txnSend_last (hx : sinceT0 s < 10 * bp s) (hend : 10 * bp s ≤ sinceT0 s + 1) :
    (txnSend s r len after).k = s.k + 1
      ∧ (txnSend s r len after).sub = if s.k + 1 < len then .sendStart else after := by
  rw [txnSend, if_pos ((send_ends hx).mpr hend)]
  exact ⟨rfl, rfl⟩

/-- A character before its last cycle goes on (R106). -/
theorem txnSend_not_last (hs : s.sub = .sending) (hgo : sinceT0 s + 1 < 10 * bp s) :
    (txnSend s r len after).sub = .sending ∧ (txnSend s r len after).k = s.k := by
  have hno : ¬ sendEnds s = true := fun h => by have := (send_ends (by omega)).mp h; omega
  rw [txnSend, if_neg hno]
  exact ⟨(sendEdge_sub s r).trans hs, sendEdge_k s r⟩

end

end Sys2Proof.Machine

namespace Sys2Proof

open Machine

/-- Settles O42: the ODR bit after SENDB's cycle `m*BP + c` is frame bit `m`, and an output pin is at its ODR bit. -/
theorem sendbWaveform : Obligations.SendbWaveform := by
  intro s port pin hs hd hp hc hq
  refine ⟨fun m c hm hcb => ?wave, fun n hn => sendb_busy hs hd hp hc hq hn, ?last⟩
  case wave =>
    have hle : (m + 1) * bp s ≤ 10 * bp s := Nat.mul_le_mul_right _ hm
    rw [Nat.succ_mul] at hle
    obtain ⟨t, ht, h⟩ := sendb_run hs hd hp hc hq (n := 1 + m * bp s + c) (by omega) (by omega)
    have hbit : (1 + m * bp s + c - 1) / bp s = m :=
      Nat.div_eq_of_lt_le (by omega) (by rw [Nat.succ_mul]; omega)
    have hodr : odrBit t ⟨port, pin⟩ = frameBit (s.arg.extractLsb' 0 8) m := by rw [h.odr, hbit]; rfl
    exact ⟨t, ht, hodr, h.mode, fun hout => (line_of_outPp (h.mode.trans hout)).trans hodr, h.irq⟩
  case last =>
    have hbp : 1 ≤ bp s := s.cfg.bp_pos
    obtain ⟨t, ht, h⟩ := sendb_run hs hd hp hc hq (n := 10 * bp s) (by omega) le_rfl
    exact ⟨t, ht, h.retired rfl, by rw [h.odr, lastBit_eq_nine]; rfl⟩

/-- Settles O51: both transactions run the same SEND, whose entry cycle reads TX[K] and whose last cycle hands over. -/
theorem transactionSendCycles : Obligations.TransactionSendCycles := by
  intro s axis r i len after hi hr
  have htxn : SendsThen s axis i len after := hi
  have hinit : i ≠ .init := by rintro rfl; simp at hi
  refine ⟨fun b hs hb => ?entry, fun hs hx => ?later⟩
  case entry =>
    have h : exec i s = .next (sendEnter s r b) :=
      (htxn.exec_sendStart hr hs).trans (txnSendStart_of_written r hb)
    exact ⟨_, h, rfl, rfl, rfl, rfl, odrBit_sendEnter s r b, rfl, fun q => pinMode_sendEnter s r q b,
      pins_sendEnter s r b, exec_hostSide h, exec_timer h hinit, ⟨rfl, rfl⟩, fun _ => rfl⟩
  case later =>
    have h := htxn.exec_sending hr hs
    obtain ⟨hedge, hnone⟩ := odrBit_sendEdge (r := r) hx
    rw [← odrBit_txnSend s r len after] at hnone
    exact ⟨_, h, fun m hm hdue => (odrBit_txnSend s r len after r).trans (hedge m hm hdue), hnone,
      txnSend_not_last r len after hs, txnSend_last r len after hx, txnSend_err s r len after,
      pinMode_txnSend s r len after, pins_txnSend s r len after, exec_hostSide h, exec_timer h hinit,
      txnSend_outputs s r len after, txnSend_bytes s r len after⟩

end Sys2Proof
end

section
/-! Reception (43_uart_rx.md R111-R119; 45_transaction.md R134, R135): the cycles of RECV, what RECVB and a reply byte
of a transaction make of them, the whole of RECVB, and a read transaction whose reply arrives. -/

namespace Sys2Proof.Machine

/-! ## The cycles of RECV (R111-R116) -/

section
variable {s : State} {r : PinRef}

/-- The level 0 is the start bit (R111, R113). -/
theorem recvPoll_of_start (hl : line s r = false) :
    recvPoll s r = ({ s with t0 := s.cyccnt, sub := .data }, .running) :=
  if_pos hl

/-- The level 1 before the last poll (R112). -/
theorem recvPoll_of_idle (hl : line s r = true) (hj : s.j + 1 < s.cfg.params.rxTimeout) :
    recvPoll s r = ({ s with j := s.j + 1 }, .running) := by
  simp [recvPoll, hl, hj]

/-- The level 1 at the last poll (R112). -/
theorem recvPoll_of_last (hl : line s r = true) (hj : s.cfg.params.rxTimeout ≤ s.j + 1) :
    recvPoll s r = (s, .timeout) := by
  simp [recvPoll, hl, hj]

/-- A cycle after detection that is not the last (R115). -/
theorem recvData_not_last (hx : sinceT0 s + 1 < 2 ^ 31) (hgo : sinceT0 s + 1 < 9 * bp s + 2 * half s) :
    recvData s r = (recvSample s r, .running) :=
  if_neg fun hend => by have := (recv_ends hx).mp hend; omega

/-- The last cycle after detection (R115, R116). -/
theorem recvData_last (hx : sinceT0 s + 1 < 2 ^ 31) (hend : 9 * bp s + 2 * half s ≤ sinceT0 s + 1) :
    recvData s r = (recvSample s r, .byte (recvSample s r).sh) :=
  if_pos ((recv_ends hx).mpr hend)

end

section
variable (s : State) (r : PinRef)

@[simp] theorem recvPoll_sh : (recvPoll s r).1.sh = s.sh := by
  rcases recvPoll_cases s r with ⟨-, e⟩ | ⟨-, -, e⟩ | ⟨-, -, e⟩ <;> rw [e]

@[simp] theorem recvPoll_mem : (recvPoll s r).1.mem = s.mem := by
  rcases recvPoll_cases s r with ⟨-, e⟩ | ⟨-, -, e⟩ | ⟨-, -, e⟩ <;> rw [e]

@[simp] theorem recvPoll_k : (recvPoll s r).1.k = s.k := by
  rcases recvPoll_cases s r with ⟨-, e⟩ | ⟨-, -, e⟩ | ⟨-, -, e⟩ <;> rw [e]

@[simp] theorem recvPoll_err : (recvPoll s r).1.err = s.err := by
  rcases recvPoll_cases s r with ⟨-, e⟩ | ⟨-, -, e⟩ | ⟨-, -, e⟩ <;> rw [e]

/-- A poll delivers no byte (R117). -/
theorem recvPoll_ne_byte (b : Byte) : (recvPoll s r).2 ≠ .byte b := by
  rcases recvPoll_cases s r with ⟨-, e⟩ | ⟨-, -, e⟩ | ⟨-, -, e⟩ <;> rw [e] <;> nofun

/-- A cycle after detection delivers no timeout (R117). -/
theorem recvData_ne_timeout : (recvData s r).2 ≠ .timeout := by
  rcases recvData_cases s r with ⟨-, e⟩ | ⟨-, e⟩ <;> rw [e] <;> nofun

/-- A cycle after detection writes what its sample writes, in the last one too (R114, R116). -/
@[simp] theorem recvData_fst : (recvData s r).1 = recvSample s r := by
  rcases recvData_cases s r with ⟨-, e⟩ | ⟨-, e⟩ <;> rw [e]

end

/-- The state in poll `n` of a RECV (R112). -/
def atPoll (s : State) (n : Nat) : State := { s with j := n, sub := .poll }

/-! ## What RECVB makes of them (R117) -/

@[simp] theorem recvbDeliver_sh (p : State × RecvOutcome) : (recvbDeliver p).sh = p.1.sh := by
  obtain ⟨s, o⟩ := p; cases o <;> rfl

@[simp] theorem recvbDeliver_mem (p : State × RecvOutcome) : (recvbDeliver p).mem = p.1.mem := by
  obtain ⟨s, o⟩ := p; cases o <;> rfl

/-- RECVB's entry cycle is its poll 0; a later poll is poll J (R112, R117). -/
theorem execRecvb_polls {s : State} {port : BitVec 3} {pin : BitVec 4} {jj : Nat}
    (h : (s.sub = .entry ∧ s.cycEn = true ∧ port.toNat < s.cfg.params.nPorts ∧ jj = 0) ∨ (s.sub = .poll ∧ jj = s.j)) :
    exec (.recvb port pin) s
      = .next (recvbDeliver (recvPoll (atPoll s jj) ⟨port, pin⟩)) := by
  rcases h with ⟨hs, hc, hp, rfl⟩ | ⟨hs, rfl⟩
  case inl => exact execRecvb_entry hs hc hp
  case inr =>
    have hself : atPoll s s.j = s := by rw [atPoll, ← hs]
    rw [hself]; exact execRecvb_poll hs

/-! ## What a transaction makes of them (R134, R135) -/

@[simp] theorem txnDeliver_sh (p : State × RecvOutcome) : (txnDeliver p).sh = p.1.sh := by
  obtain ⟨s, o⟩ := p
  cases o with
  | running => rfl
  | byte b => simp only [txnDeliver]; split <;> rfl
  | timeout => simp [txnDeliver]

@[simp] theorem txnDeliver_err (p : State × RecvOutcome) : (txnDeliver p).err = p.1.err := by
  obtain ⟨s, o⟩ := p
  cases o with
  | running => rfl
  | byte b => simp only [txnDeliver]; split <;> rfl
  | timeout => simp [txnDeliver]

/-- K goes up with a byte alone (R134). -/
theorem txnDeliver_k {p : State × RecvOutcome} (h : ∀ b, p.2 ≠ .byte b) : (txnDeliver p).k = p.1.k := by
  obtain ⟨s, o⟩ := p
  cases o with
  | running => rfl
  | byte b => exact absurd rfl (h b)
  | timeout => simp [txnDeliver]

/-- TOUT is set by a timeout alone (R135). -/
theorem txnDeliver_tout {p : State × RecvOutcome} (h : p.2 ≠ .timeout) : (txnDeliver p).tout = p.1.tout := by
  obtain ⟨s, o⟩ := p
  cases o with
  | running => rfl
  | byte b => simp only [txnDeliver]; split <;> rfl
  | timeout => exact absurd rfl h

/-- A reply byte goes to RX[K] and K goes up; what enters next depends on K (R134). -/
theorem txnDeliver_byte (s : State) (b : Byte) :
    (txnDeliver (s, .byte b)).mem = Memory.write s.mem (rxBase + s.k) b ∧ (txnDeliver (s, .byte b)).k = s.k + 1
      ∧ (s.k + 1 < s.cfg.params.replyLen →
          (txnDeliver (s, .byte b)).sub = .poll ∧ (txnDeliver (s, .byte b)).j = 0)
      ∧ (s.cfg.params.replyLen ≤ s.k + 1 → (txnDeliver (s, .byte b)).sub = .restore) := by
  unfold txnDeliver
  by_cases hnext : s.k + 1 < s.cfg.params.replyLen
  · simp [hnext]
  · simp [hnext]

/-! ## The whole of RECVB (R111-R119) -/

/-- The retirement is seen after the end of the cycle (R25, R27). -/
theorem retired_endCycle_retire (b : Bool) (e : ErrCode) (s : State) : Retired e (endCycle b (retire e s)) := by
  rw [endCycle_retire]; exact Retired.retire e _

/-- A capture of T0 is one cycle old at the end of its cycle (R84). -/
theorem sinceT0_end_of_captured {s : State} (hc : s.cycEn = true) (h0 : s.t0 = s.cyccnt) :
    sinceT0 (endCycle false s) = 1 := by
  have hzero : sinceT0 s = 0 := since_zero h0
  rw [since_end hc (by omega), hzero]

/-- Samples taken HALF into each of the eight data bits of a frame make up its byte (R105, R114). -/
theorem byte_of_samples {s : State} {r : PinRef} {b x : Byte} {u : Nat}
    (hframe : ∀ m c, m < 9 → c < bp s → envLater s (u + m * bp s + c) r = frameBit b m)
    (hx : ∀ q, q < 8 → x.getLsbD q = envLater s (u + (bp s + half s + q * bp s)) r) : x = b := by
  apply BitVec.eq_of_getLsbD_eq
  intro q hq
  have hplace : u + (bp s + half s + q * bp s) = u + (q + 1) * bp s + half s := by rw [Nat.add_mul]; omega
  have hbit : frameBit b (q + 1) = b.getLsbD q := by simp [frameBit, show q + 1 ≤ 8 by omega]
  rw [hx q hq, hplace, hframe (q + 1) (half s) (by omega) s.cfg.half_lt, hbit]

/-- What the state in which a RECVB begun in `s` makes a poll has kept, and what the host reads in it. -/
structure RecvbPolling (s t : State) : Prop where
  keeps : CharKeeps s t
  ports : t.ports = s.ports
  sh : t.sh = s.sh
  busy : t.busy = true
  phase : phase t = .rx

section
variable {s : State} {port : BitVec 3} {pin : BitVec 4} {N : Nat}
    (hs : s.sub = .entry) (hd : decode s.cmd = .ok (.recvb port pin))
    (hp : port.toNat < s.cfg.params.nPorts) (hc : s.cycEn = true) (hq : QuietFor N s)
include hs hd hp hc hq

/-- RECVB makes poll `n` in its cycle `n`, if the line reads 1 at the polls before (R112). -/
theorem recvb_poll {n : Nat} (hn : n < s.cfg.params.rxTimeout) (hN : n < N)
    (hline : ∀ m t, m < n → cycles m s = .next t → t.ports = s.ports → line t ⟨port, pin⟩ = true) :
    ∃ t, cycles n s = .next t ∧ RecvbPolling s t
      ∧ cycles (n + 1) s = .next (endCycle false
          (recvbDeliver (recvPoll (atPoll { t with rdata := none } n) ⟨port, pin⟩))) := by
  have hb : s.busy = true := (busy_iff s).mpr (by rw [hs]; nofun)
  obtain ⟨t, ht, hkeep, hports, htb, hlater, hfirst, hsh, hexec⟩ := poll_run (a := 0) (u := n)
    (deliver := recvbDeliver) (fun _ => rfl) hq (by omega) hn rfl hb hd nofun
    (fun d => execRecvb_polls (s := { s with rdata := d }) (.inl ⟨hs, hc, hp, rfl⟩))
    (fun _ _ hu => execRecvb_poll hu) (fun m t hm ht => hline m t hm (by rwa [Nat.zero_add] at ht)) n le_rfl
  rw [Nat.zero_add] at ht
  have hrun := run_succ (i := .recvb port pin) hq hN ht htb (by rw [hkeep.cmd]; exact hd) nofun hexec
  refine ⟨t, ht, ⟨hkeep, hports, hsh, htb, ?phase⟩, hrun⟩
  rcases Nat.eq_zero_or_pos n with hzero | hpos
  · rw [hfirst hzero]
    exact ((phase_entry hs).2 _ hd).2 ⟨legalP hp, nofun, fun _ => hc, nofun⟩
  · simp [phase, hlater hpos]

/-- The poll that reads 0 is the detection: T0 is its cycle, and sampling follows (R111, R113). -/
theorem recvb_detects {n : Nat} (hn : n < s.cfg.params.rxTimeout) (hN : n < N)
    (hline : ∀ m t, m < n → cycles m s = .next t → t.ports = s.ports → line t ⟨port, pin⟩ = true)
    (hstart : ∀ t, cycles n s = .next t → t.ports = s.ports → line t ⟨port, pin⟩ = false) :
    ∃ t, cycles (n + 1) s = .next t ∧ CharKeeps s t ∧ t.ports = s.ports ∧ t.sub = .data ∧ sinceT0 t = 1 := by
  obtain ⟨t, ht, hpoll, hrun⟩ := recvb_poll hs hd hp hc hq hn hN hline
  have hl : line (atPoll { t with rdata := none } n) ⟨port, pin⟩ = false := hstart t ht hpoll.ports
  rw [recvPoll_of_start hl] at hrun
  refine ⟨_, hrun, (hpoll.keeps.trans ?keeps).fin, ?ports, ?sub, ?since⟩
  case keeps => constructor <;> rfl
  case ports => exact (endCycle_ports _ _).trans hpoll.ports
  case sub => exact endCycle_sub _ _
  case since => exact sinceT0_end_of_captured (hpoll.keeps.cycEn.trans hc) rfl

end

end Sys2Proof.Machine

namespace Sys2Proof

open Machine

/-- Settles O43: the entry cycle and a later poll are the same poll, with its three outcomes. -/
theorem recvbPolls : Obligations.RecvbPolls := by
  intro s port pin jj hpoll
  have h := execRecvb_polls (pin := pin) hpoll
  refine ⟨_, h, fun hl => ?start, fun hl hj => ?idle, fun hl hj => ?timeout, ?sh, ?irq, exec_hostSide h,
    exec_timer h nofun, ?pins, fun a => ?bytes⟩
  case start => rw [recvPoll_of_start (s := atPoll s jj) hl]; exact ⟨rfl, rfl, rfl, rfl, rfl⟩
  case idle => rw [recvPoll_of_idle (s := atPoll s jj) hl hj]; exact ⟨rfl, rfl, rfl, rfl, rfl⟩
  case timeout => rw [recvPoll_of_last (s := atPoll s jj) hl hj]; exact ⟨Retired.retire .rxTimeout _, rfl⟩
  case sh => exact (recvbDeliver_sh _).trans (recvPoll_sh _ _)
  case irq => exact (recvbDeliver_irqSuppress _).trans (recvPoll_outputs _ _).2
  case pins => exact (recvbDeliver_ports _).trans (recvPoll_ports _ _)
  case bytes => exact congrArg (Memory.read · a) ((recvbDeliver_mem _).trans (recvPoll_mem _ _))

/-- Settles O44: the cycle takes the sample due, and in the last one SH goes to RESULT with that sample. -/
theorem recvbSamplesAndDelivers : Obligations.RecvbSamplesAndDelivers := by
  intro s port pin hs hx
  have h := execRecvb_data (port := port) (pin := pin) hs
  refine ⟨_, h, fun q hq => ?sample, fun hgo => ?goesOn, fun hend => ?last, ?irq, exec_hostSide h,
    exec_timer h nofun, ?pins, fun a => ?bytes⟩
  case sample => rw [recvbDeliver_sh, recvData_fst, sample_bits s _ q hq]
  case goesOn =>
    rw [recvData_not_last hx hgo]
    exact ⟨(recvSample_sub s _).trans hs, recvSample_result s _, recvSample_err s _⟩
  case last =>
    rw [recvData_last hx hend]
    exact ⟨Retired.retire .ok _, rfl⟩
  case irq => exact (recvbDeliver_irqSuppress _).trans (recvData_outputs s _).2
  case pins => exact (recvbDeliver_ports _).trans (recvData_ports s _)
  case bytes => rw [recvbDeliver_mem, recvData_fst, recvSample_mem]

/-- Settles O45: every poll reads 1, on a floating pin from ENV and on an output pin from its ODR bit, which RECVB
leaves as it was; the last of them is the timeout. -/
theorem recvbTimesOut : Obligations.RecvbTimesOut := by
  intro s port pin hs hd hp hc hhigh hq
  have hline : ∀ m t, m < s.cfg.params.rxTimeout → cycles m s = .next t → t.ports = s.ports →
      line t ⟨port, pin⟩ = true := by
    intro m t hm ht hports
    rcases hhigh with ⟨hfloat, henv⟩ | ⟨hout, hodr⟩
    · exact (line_floats hfloat ht hports).trans (henv m hm)
    · exact (line_of_outPp ((pinMode_congr hports _).trans hout)).trans ((odrBit_congr hports _).trans hodr)
  have hpoll := fun n (hn : n < s.cfg.params.rxTimeout) =>
    recvb_poll hs hd hp hc hq hn hn fun m t hm => hline m t (hm.trans hn)
  refine ⟨fun n hn => ?busy, ?last⟩
  case busy =>
    obtain ⟨t, ht, hat, -⟩ := hpoll n hn
    exact ⟨t, ht, hat.busy, hat.phase⟩
  case last =>
    obtain ⟨n, hn⟩ : ∃ n, s.cfg.params.rxTimeout = n + 1 := Nat.exists_eq_add_one.mpr s.cfg.rxTimeout_pos
    obtain ⟨t, ht, hat, hrun⟩ := hpoll n (by omega)
    have hl : line (atPoll { t with rdata := none } n) ⟨port, pin⟩ = true := hline n t (by omega) ht hat.ports
    have hj : t.cfg.params.rxTimeout ≤ n + 1 := by rw [hat.keeps.cfg, hn]
    rw [recvPoll_of_last hl hj] at hrun
    rw [hn]
    exact ⟨_, hrun, retired_endCycle_retire _ _ _, endCycle_result _ _, (endCycle_sh _ _).trans hat.sh,
      (endCycle_ports _ _).trans hat.ports, fun a => by rw [endCycle_mem, ← hat.keeps.mem]; rfl⟩

/-- Settles O46: the polls before `u` read 1, poll `u` is the detection, and each data bit is sampled HALF into its
time; the stop bit is not looked at (R118). -/
theorem recvbReadsAFrame : Obligations.RecvbReadsAFrame := by
  intro s port pin b u hs hd hp hc hfloat hu hq hidle hframe
  have hbp : 1 ≤ bp s := s.cfg.bp_pos
  have hline : ∀ m t, m < u → cycles m s = .next t → t.ports = s.ports → line t ⟨port, pin⟩ = true :=
    fun m _ hm ht hports => (line_floats hfloat ht hports).trans (hidle m hm)
  have hstart : ∀ t, cycles u s = .next t → t.ports = s.ports → line t ⟨port, pin⟩ = false :=
    fun _ ht hports => (line_floats hfloat ht hports).trans (by simpa [frameBit] using hframe 0 0 (by omega) hbp)
  obtain ⟨d, hrun, hkeep, hports, hsub, hsince⟩ := recvb_detects hs hd hp hc hq hu (by omega) hline hstart
  obtain ⟨hdata, t, htkeep, htports, hbits, hlast⟩ := data_run (i := .recvb port pin) (deliver := recvbDeliver)
    (fun _ => rfl) hq le_rfl hrun (by rw [hkeep.cmd]; exact hd) nofun hsub hsince
    ((pinMode_congr hports _).trans hfloat) (hkeep.cycEn.trans hc) (fun _ _ => execRecvb_data)
  have hsh : t.sh = b := byte_of_samples (fun m c hm => hframe m c (by omega)) hbits
  rw [hsh] at hlast
  refine ⟨fun n hn => ?busy, _, hlast, retired_endCycle_retire _ _ _, endCycle_result _ _, ?pins, fun a => ?bytes⟩
  case busy =>
    rcases Nat.lt_or_ge u n with hafter | hpolls
    · obtain ⟨v, hv, -, -, hvsub, -⟩ := hdata (n - u) (by omega) (by omega)
      rw [Nat.add_sub_cancel' hafter.le] at hv
      exact ⟨v, hv, (busy_iff v).mpr (by rw [hvsub]; nofun), by simp [phase, hvsub]⟩
    · obtain ⟨v, hv, hat, -⟩ := recvb_poll hs hd hp hc hq (n := n) (by omega) (by omega)
        fun m w hm => hline m w (by omega)
      exact ⟨v, hv, hat.busy, hat.phase⟩
  case pins => exact (endCycle_ports _ _).trans (htports.trans hports)
  case bytes => rw [endCycle_mem, ← hkeep.mem, ← htkeep.mem]; rfl

/-- Settles O54: the cycle takes the sample due, and in the last one SH goes to RX[K] with that sample. -/
theorem replyByteIsStored : Obligations.ReplyByteIsStored := by
  intro s axis r hs hr hx
  have h := execRdtxn_data hr hs
  refine ⟨_, h, fun q hq => ?sample, fun hgo => ?goesOn, fun hend => ?last, ?tout, ?err, ?pins, exec_hostSide h,
    exec_timer h nofun, (recvData_outputs s r).trans (txnDeliver_outputs _)⟩
  case sample => rw [txnDeliver_sh, recvData_fst, sample_bits s r q hq]
  case goesOn =>
    rw [recvData_not_last hx hgo]
    have hsub : (recvSample s r).sub = .data := (recvSample_sub s r).trans hs
    exact ⟨hsub, (busy_iff (recvSample s r)).mpr (by rw [hsub]; nofun), recvSample_k s r, recvSample_t0 s r,
      fun a => congrArg (Memory.read · a) (recvSample_mem s r)⟩
  case last =>
    rw [recvData_last hx hend]
    obtain ⟨hmem, hk, hnext, hrestore⟩ := txnDeliver_byte (recvSample s r) (recvSample s r).sh
    rw [recvSample_k, recvSample_cfg] at hnext hrestore
    rw [recvSample_mem, recvSample_k] at hmem
    rw [recvSample_k] at hk
    refine ⟨?stored, fun a ha => ?others, hk, hnext, hrestore⟩
    case stored => rw [rxByte, hmem, Memory.read_write_same, txnDeliver_sh]
    case others => rw [hmem, Memory.read_write_ne _ _ _ _ (by simpa using ha)]
  case tout => rw [txnDeliver_tout (recvData_ne_timeout s r), recvData_fst, recvSample_tout]
  case err => rw [txnDeliver_err, recvData_fst, recvSample_err]
  case pins => exact (txnDeliver_ports _).trans (recvData_ports s r)

/-- Settles O55: the three outcomes of a poll; the timeout writes the failure field, whatever its bytes held. -/
theorem replyTimeoutSetsTheFailureField : Obligations.ReplyTimeoutSetsTheFailureField := by
  intro s axis r hs hr
  have h := execRdtxn_poll hr hs
  refine ⟨_, h, fun hl => ?start, fun hl hj => ?idle, fun hl hj => ?timeout, ?k, ?sh, ?err, ?pins, exec_hostSide h,
    exec_timer h nofun, (recvPoll_outputs s r).trans (txnDeliver_outputs _)⟩
  case start => rw [recvPoll_of_start hl]; exact ⟨rfl, rfl, rfl, rfl, fun _ => rfl⟩
  case idle =>
    rw [recvPoll_of_idle hl hj]
    exact ⟨hs, (busy_iff _).mpr (by rw [txnDeliver, hs]; nofun), rfl, rfl, fun _ => rfl⟩
  case timeout =>
    rw [recvPoll_of_last hl hj]
    exact ⟨rfl, rfl, fun f hf => (failField_read s _).trans (if_pos (by omega)),
      fun a ha => (failField_read s a).trans (if_neg ha)⟩
  case k => rw [txnDeliver_k (recvPoll_ne_byte s r), recvPoll_k]
  case sh => rw [txnDeliver_sh, recvPoll_sh]
  case err => rw [txnDeliver_err, recvPoll_err]
  case pins => exact (txnDeliver_ports _).trans (recvPoll_ports s r)

/-- Settles O59: the request and the reply run to the entry of RESTORE, which has stored every byte and left TOUT 0; the
restore and the guard run from there. -/
theorem readTransactionDeliversTheReply : Obligations.ReadTransactionDeliversTheReply := by
  intro s axis r gap b hs hd hr hc hall hq harrives
  obtain ⟨hreply, x, hx, hat⟩ := replies_run hs hd hr hc hall hq s.cfg.params.replyLen le_rfl (by omega) harrives
  have hsub : x.sub = .restore := hat.sub.trans (if_neg (lt_irrefl _))
  obtain ⟨hguard, z, hz, hret, hirq, hmode, hodr, hresult, hmem⟩ :=
    restore_run hr hd hq le_rfl hx hsub hat.cycEn hat.cmd
  have hcode : readCode x = .ok := by simp [readCode, hat.tout]
  refine ⟨fun n h1 hn => ?busy, z, hz, hcode ▸ hret, hirq, hmode, hodr, hresult.trans hat.result, fun k hk => ?bytes⟩
  case busy =>
    rcases Nat.lt_or_ge n (replyEntry s gap s.cfg.params.replyLen) with hlt | hge
    · exact hreply n h1 hlt
    · obtain ⟨t, ht, hbusy, htirq⟩ := hguard (n - replyEntry s gap s.cfg.params.replyLen) (by omega)
      rw [Nat.add_sub_cancel' hge] at ht
      exact ⟨t, ht, hbusy, htirq.trans hat.irq⟩
  case bytes =>
    have hrx : rxByte z k = rxByte x k := by rw [rxByte, rxByte, hmem]
    exact hrx.trans (hat.rx k hk)

end Sys2Proof
end

section
/-! Framing (44_framer.md R121-R126): what FRAMEW and FRAMER do to the buffers, and FIX over a datagram that is fixed up
already. -/

namespace Sys2Proof.Machine

section
variable {s t u : State} {len : Nat}

/-- A framed datagram, of either length, has its slave byte before its check byte and fits TXBUF (R9). -/
theorem datagram_layout (hlen : len = s.cfg.params.writeLen ∨ len = s.cfg.params.reqLen) :
    s.cfg.params.slaveIdx + 2 ≤ len ∧ len ≤ 8 := by
  have := s.cfg.layout
  omega

/-- FRAMEW and FRAMER are FIX of their datagram's length, and retire with OK (R124, R125). -/
theorem exec_framing {i : Instr}
    (hi : (i = .framew ∧ len = s.cfg.params.writeLen) ∨ (i = .framer ∧ len = s.cfg.params.reqLen))
    (hu : fix s len = some u) : exec i s = .next (retire .ok u) := by
  rcases hi with ⟨rfl, rfl⟩ | ⟨rfl, rfl⟩
  · exact execFramew_eq hu
  · exact execFramer_eq hu

/-- The two bytes FIX writes are apart, so both stand in its result (R121-R123). -/
theorem fix_slave_and_check {l : List Byte} (hlay : s.cfg.params.slaveIdx + 2 ≤ len) (hu : fix s len = some u)
    (hl : fixedBytes s (len - 1) = some l) :
    txByte u s.cfg.params.slaveIdx = some s.cfg.params.slaveAddr ∧ txByte u (len - 1) = some (checkByte s l) := by
  obtain ⟨l', hl', hbyte⟩ := fix_txByte hu
  obtain rfl : l' = l := Option.some.inj (hl'.symm.trans hl)
  have hapart : s.cfg.params.slaveIdx ≠ len - 1 := by omega
  exact ⟨by rw [hbyte, if_neg hapart, if_pos rfl], by rw [hbyte, if_pos rfl]⟩

/-- FIX changes no parameter (R44). -/
theorem fix_cfg (ht : fix s len = some t) : t.cfg = s.cfg := (fix_hostSide ht).1

/-- The check function is a parameter (R11). -/
theorem checkByte_congr (h : t.cfg = s.cfg) (l : List Byte) : checkByte t l = checkByte s l := by
  rw [checkByte, checkByte, h]

/-- What CHECK runs over is the same before and behind FIX: the slave byte is replaced in either case, and the check
byte lies behind the list (R121, R126). -/
theorem fixedBytes_fix {l m : List Byte} (ht : fix s len = some t) (hl : fixedBytes s (len - 1) = some l)
    (hm : fixedBytes t (len - 1) = some m) : m = l := by
  obtain ⟨_, _, hbyte⟩ := fix_txByte ht
  have hllen := (fixedBytes_get hl).1
  have hmlen := (fixedBytes_get hm).1
  refine List.ext_getElem?' fun k hk => ?_
  have hlt : k < len - 1 := by omega
  rw [fixedBytes_byte hm hlt, fixedBytes_byte hl hlt, fix_cfg ht, hbyte, if_neg hlt.ne]
  split <;> rfl

/-- The second FIX writes the bytes the first one wrote (R126). -/
theorem fix_fix_txByte (ht : fix s len = some t) (hu : fix t len = some u) (k : Nat) : txByte u k = txByte t k := by
  obtain ⟨l, hl, htbyte⟩ := fix_txByte ht
  obtain ⟨m, hm, hubyte⟩ := fix_txByte hu
  obtain rfl := fixedBytes_fix ht hl hm
  rw [hubyte, htbyte, fix_cfg ht, checkByte_congr (fix_cfg ht)]
  by_cases hcheck : k = len - 1
  · rw [if_pos hcheck, if_pos hcheck]
  · rw [if_neg hcheck, if_neg hcheck]
    split <;> rfl

/-- Below TXBUF FIX writes nothing, so the second FIX leaves every offset (R126). -/
theorem fix_fix_bytes (ht : fix s len = some t) (hu : fix t len = some u) : SameBytes t u := by
  intro a
  rcases Nat.lt_or_ge a txBase with hbelow | htx
  · exact fix_read_ne hu (by omega) (by omega)
  · obtain ⟨k, rfl⟩ := Nat.exists_eq_add_of_le htx
    exact fix_fix_txByte ht hu k

/-- Two memories in canonical form with the same bytes are one (R43). -/
theorem mem_eq_of_sameBytes (ht : Memory.wf t.mem = true) (hu : Memory.wf u.mem = true) (h : SameBytes t u) :
    u.mem = t.mem := by
  rw [Memory.wf, Bool.and_eq_true] at ht hu
  exact Memory.eq_of_read_eq hu.1 ht.1 h

end

end Sys2Proof.Machine

namespace Sys2Proof

open Machine

/-- Settles O47: over written bytes FIX has a result, and the framing command retires with it. -/
theorem framingCompletes : Obligations.FramingCompletes := by
  intro s len i hi hall
  obtain ⟨u, hu⟩ := Option.isSome_iff_exists.mp (fix_isSome.mpr hall)
  obtain ⟨l, hl, -⟩ := fix_txByte hu
  obtain ⟨hlay, -⟩ := datagram_layout (hi.imp And.right And.right)
  obtain ⟨hslave, hcheck⟩ := fix_slave_and_check hlay hu hl
  have h := exec_framing hi hu
  have hinit : i ≠ .init := by rcases hi with ⟨rfl, -⟩ | ⟨rfl, -⟩ <;> nofun
  refine ⟨retire .ok u, l, h, ⟨rfl, rfl⟩, (fixedBytes_get hl).1, fun k hk => fixedBytes_byte hl hk, hslave, hcheck,
    fun a ha => ?others, exec_hostSide h, exec_timer h hinit, (fix_outputs hu).trans ⟨rfl, rfl⟩,
    (retire_ports u .ok).trans (fix_ports hu)⟩
  case others =>
    simp only [List.mem_cons, List.not_mem_nil, or_false, not_or] at ha
    rw [retire_mem]
    exact fix_read_ne hu ha.1 ha.2

/-- Settles O49: the second FIX writes the two bytes the first one wrote, and the canonical form of the memory fixes it
by its bytes. -/
theorem framingIsIdempotent : Obligations.FramingIsIdempotent := by
  intro s t u len hlen ht hu
  have hsame := fix_fix_bytes ht hu
  refine ⟨hsame, fun hs => ?_⟩
  obtain ⟨hlay, hle⟩ := datagram_layout hlen
  have htwf : Memory.wf t.mem = true := fix_wf ht (by omega) hle hs
  have huwf : Memory.wf u.mem = true := fix_wf hu (by rw [fix_cfg ht]; omega) hle htwf
  exact mem_eq_of_sameBytes htwf huwf hsame

end Sys2Proof
end

section
/-! Transactions (45_transaction.md R129-R140): SETUP, TURN, RESTORE and GUARD_HOLD cycle by cycle, a write transaction
from its entry to its retirement, and a read transaction whose reply stops. -/

namespace Sys2Proof.Machine

/-! ## SETUP, TURN and RESTORE (R130, R133, R136) -/

section
variable {s : State} {axis : BitVec 4} {r : PinRef} {i : Instr} {len : Nat}

/-- The command of a transaction is on the pin of its axis (R127). -/
theorem commandPin_of_txn (hi : (i = .wrtxn axis ∧ len = s.cfg.params.writeLen)
    ∨ (i = .rdtxn axis ∧ len = s.cfg.params.reqLen)) (hr : axisPin s axis = some r) : commandPin s i = some r := by
  rcases hi with ⟨rfl, -⟩ | ⟨rfl, -⟩ <;> exact hr

/-- What a command on pin `r` does in a cycle leaves the other pins (R102). -/
theorem exec_other_pins {t : State} (h : exec i s = .next t) (hr : commandPin s i = some r) : SamePinsBut r s t :=
  fun q hq => (exec_pinCycle h).other_pin (by rw [hr]; simpa using hq.symm)

/-- Behind `makeOutHigh` the pin is an output at 1, and so is the line (R99, R100). -/
theorem outHigh_of_ports {t u : State} (h : t.ports = (makeOutHigh u r).ports) :
    pinMode t r = modeOutPp ∧ odrBit t r = true ∧ line t r = true := by
  have hmode : pinMode t r = modeOutPp := by rw [pinMode_congr h, pinMode_makeOutHigh, if_pos rfl]
  have hodr : odrBit t r = true := by rw [odrBit_congr h, odrBit_makeOutHigh, if_pos rfl]
  exact ⟨hmode, hodr, (line_of_outPp hmode).trans hodr⟩

end

/-! ## GUARD_HOLD (R132) -/

section
variable {s : State} (e : ErrCode)

/-- The last cycle of the guard releases IRQ_SUPPRESS and retires. -/
theorem txnGuard_last (hx : sinceT0 s + 1 < 2 ^ 31) (hend : guardCycles s ≤ sinceT0 s + 1) :
    txnGuard s e = retire e { s with irqSuppress := false } :=
  if_pos ((guard_ends hx).mpr hend)

theorem txnGuard_not_last (hx : sinceT0 s + 1 < 2 ^ 31) (hgo : sinceT0 s + 1 < guardCycles s) : txnGuard s e = s :=
  if_neg (mt (guard_ends hx).mp (by omega))

theorem txnGuard_result : (txnGuard s e).result = s.result := by
  unfold txnGuard; split <;> rfl

theorem txnGuard_t0 : (txnGuard s e).t0 = s.t0 := by
  unfold txnGuard; split <;> rfl

theorem txnGuard_bytes : SameBytes s (txnGuard s e) := by
  unfold txnGuard; split <;> exact fun _ => rfl

end

/-- `s` in a cycle of GUARD_HOLD that began at `t0`. -/
def atGuard (s : State) (t0 : Word) : State := { s with t0 := t0, sub := .guarding }

/-- `i` is a transaction on `axis` that retires with `code` behind its guard (R137, R138). -/
def RetiresWith (s : State) (axis : BitVec 4) (i : Instr) (code : ErrCode) : Prop :=
  (i = .wrtxn axis ∧ code = .ok)
    ∨ (i = .rdtxn axis ∧ s.tout = false ∧ code = .ok) ∨ (i = .rdtxn axis ∧ s.tout = true ∧ code = .rxTimeout)

section
variable {s : State} {axis : BitVec 4} {r : PinRef} {i : Instr} {code : ErrCode}

theorem RetiresWith.ne_init (h : RetiresWith s axis i code) : i ≠ .init := by
  rcases h with ⟨rfl, -⟩ | ⟨rfl, -⟩ | ⟨rfl, -⟩ <;> nofun

/-- A read transaction's code is TOUT's (R138). -/
theorem RetiresWith.transaction (h : RetiresWith s axis i code) :
    (i = .wrtxn axis ∧ code = .ok) ∨ (i = .rdtxn axis ∧ code = readCode s) := by
  rcases h with h | ⟨rfl, htout, rfl⟩ | ⟨rfl, htout, rfl⟩
  · exact .inl h
  · exact .inr ⟨rfl, by simp [readCode, htout]⟩
  · exact .inr ⟨rfl, by simp [readCode, htout]⟩

theorem RetiresWith.exec_guardStart (h : RetiresWith s axis i code) (hr : axisPin s axis = some r)
    (hs : s.sub = .guardStart) : exec i s = .next (txnGuard (atGuard s s.cyccnt) code) := by
  rcases h.transaction with ⟨rfl, rfl⟩ | ⟨rfl, rfl⟩
  · exact execWrtxn_guardStart hr hs
  · exact execRdtxn_guardStart hr hs

theorem RetiresWith.exec_guarding (h : RetiresWith s axis i code) (hr : axisPin s axis = some r)
    (hs : s.sub = .guarding) : exec i s = .next (txnGuard (atGuard s s.t0) code) := by
  have hself : atGuard s s.t0 = s := by rw [atGuard, ← hs]
  rw [hself]
  rcases h.transaction with ⟨rfl, rfl⟩ | ⟨rfl, rfl⟩
  · exact execWrtxn_guarding hr hs
  · exact execRdtxn_guarding hr hs

/-- The entry cycle of GUARD_HOLD and a later one are the same cycle, `x` cycles after T0 (R84, R132). -/
theorem RetiresWith.exec_guard {x : Nat} (h : RetiresWith s axis i code) (hr : axisPin s axis = some r)
    (hx : (s.sub = .guardStart ∧ x = 0) ∨ (s.sub = .guarding ∧ x = sinceT0 s)) :
    ∃ t0, exec i s = .next (txnGuard (atGuard s t0) code) ∧ sinceT0 (atGuard s t0) = x
      ∧ (s.sub = .guardStart → t0 = s.cyccnt) := by
  rcases hx with ⟨hs, rfl⟩ | ⟨hs, rfl⟩
  · exact ⟨s.cyccnt, h.exec_guardStart hr hs, since_zero rfl, fun _ => rfl⟩
  · exact ⟨s.t0, h.exec_guarding hr hs, rfl, fun hstart => absurd (hs.symm.trans hstart) nofun⟩

end

/-! ## Cycles with the host's interrupts suppressed (R129) -/

/-- `n` cycles after `s` a command is running and IRQ_SUPPRESS is 1. -/
def SuppressedAt (s : State) (n : Nat) : Prop := ∃ t, cycles n s = .next t ∧ t.busy = true ∧ t.irqSuppress = true

section
variable {s : State}

/-- One part of a transaction behind another. -/
theorem suppressed_append {a b : Nat} (hfirst : ∀ n, 1 ≤ n → n < a → SuppressedAt s n)
    (hnext : ∀ n, n < b → SuppressedAt s (a + n)) : ∀ n, 1 ≤ n → n < a + b → SuppressedAt s n := by
  intro n h1 hn
  rcases Nat.lt_or_ge n a with hlt | hge
  · exact hfirst n h1 hlt
  · rw [← Nat.add_sub_cancel' hge]
    exact hnext (n - a) (by omega)

/-- `len` characters of `d` cycles each, back to back. -/
theorem suppressed_characters {a d len : Nat} (hd : 0 < d)
    (h : ∀ k, k < len → ∀ m, m < d → SuppressedAt s (a + d * k + m)) : ∀ n, n < d * len → SuppressedAt s (a + n) := by
  intro n hn
  have hk : n / d < len := Nat.div_lt_of_lt_mul hn
  rw [← Nat.div_add_mod n d, ← Nat.add_assoc]
  exact h _ hk _ (Nat.mod_lt n hd)

end

/-! ## The characters of a write transaction (R131, R137) -/

/-- The entry of the guard of a write transaction begun in `s`: the datagram is fixed up and sent, and the pin is an
output at 1. -/
structure AtWriteGuard (s t : State) (r : PinRef) : Prop where
  sub : t.sub = .guardStart
  cmd : t.cmd = s.cmd
  cycEn : t.cycEn = true
  irq : t.irqSuppress = true
  result : t.result = s.result
  mode : pinMode t r = modeOutPp
  odr : odrBit t r = true
  mem : ∃ u, fix s s.cfg.params.writeLen = some u ∧ t.mem = u.mem

section
variable {s : State} {axis : BitVec 4} {r : PinRef} {N : Nat}
    (hs : s.sub = .entry) (hd : decode s.cmd = .ok (.wrtxn axis)) (hr : axisPin s axis = some r) (hc : s.cycEn = true)
    (hall : ∀ k, k < s.cfg.params.writeLen - 1 → (txByte s k).isSome = true) (hq : QuietFor N s)
include hs hd hr hc hall hq

/-- From the entry cycle to the entry of the guard: SETUP, and WRITE_LEN characters with IRQ_SUPPRESS at 1 (R129). -/
theorem write_characters_run (hN : 1 + 10 * bp s * s.cfg.params.writeLen ≤ N) :
    (∀ n, n < 10 * bp s * s.cfg.params.writeLen → SuppressedAt s (1 + n))
      ∧ ∃ g, cycles (1 + 10 * bp s * s.cfg.params.writeLen) s = .next g ∧ AtWriteGuard s g r := by
  have hlen : 0 < s.cfg.params.writeLen := by have := s.cfg.layout; omega
  have hbp : 0 < 10 * bp s := Nat.mul_pos (by decide) s.cfg.bp_pos
  obtain ⟨p, u, hp, hu, hmem, -, hcmd, hcycEn, hsub, hk0, hmode, hodr, hirq, -, hresult, -, -⟩ :=
    entry_run (i := .wrtxn axis) (.inl ⟨rfl, rfl⟩) hs hd hr hc hall hq (by omega)
  have hbytes : ∀ k, k < s.cfg.params.writeLen → ∃ b, txByte p k = some b := fun k hk => by
    rw [fix_mem_txByte hmem]; exact Option.isSome_iff_exists.mp (fix_all hu k hk)
  have hsends := bytes_run (i := .wrtxn axis) (r := r) (len := s.cfg.params.writeLen) (after := .guardStart) hq hN hp
    (by rw [hcmd]; exact hd) nofun hcycEn hsub hk0 hlen hmode hodr hbytes
    (fun x hcfg hx => execWrtxn_sendStart (axisPin_later hr hcfg) hx)
    (fun x hcfg hx => by rw [execWrtxn_sending (axisPin_later hr hcfg) hx, hcfg])
  refine ⟨suppressed_characters hbp fun k hk m hm => ?character, ?guard⟩
  case character =>
    obtain ⟨t, ht, hkeep, -, -, -, htsub, hsend⟩ := hsends k hk.le
    rw [if_pos hk] at htsub
    rcases Nat.eq_zero_or_pos m with rfl | hpos
    · exact ⟨t, ht, (busy_iff t).mpr (by rw [htsub]; nofun), hkeep.irq.trans hirq⟩
    · obtain ⟨b, hb⟩ := hbytes k hk
      obtain ⟨hmid, -⟩ := hsend hk b hb
      obtain ⟨v, hv, hvkeep, hvsub, -⟩ := hmid m hpos hm
      exact ⟨v, hv, (busy_iff v).mpr (by rw [hvsub]; nofun), hvkeep.irq.trans hirq⟩
  case guard =>
    obtain ⟨g, hg, hkeep, -, hgmode, hgodr, hgsub, -⟩ := hsends _ le_rfl
    rw [if_neg (lt_irrefl _)] at hgsub
    exact ⟨g, hg, hgsub, hkeep.cmd.trans hcmd, hkeep.cycEn.trans hcycEn, hkeep.irq.trans hirq,
      hkeep.result.trans hresult, hgmode, hgodr, u, hu, hkeep.mem.trans hmem⟩

end

end Sys2Proof.Machine

namespace Sys2Proof

open Machine

/-- Settles O50: SETUP is FIX, then the pin to output idle-high, whichever transaction enters. -/
theorem setupCompletes : Obligations.SetupCompletes := by
  intro s axis r i len hi hs hr hc hall
  obtain ⟨u, hu⟩ := Option.isSome_iff_exists.mp (fix_isSome.mpr hall)
  obtain ⟨tout, h⟩ := setup_exec hi hs hr hc hu
  obtain ⟨hmode, hodr, hline⟩ := outHigh_of_ports (r := r)
    (t := { makeOutHigh { u with tout := tout } r with irqSuppress := true, k := 0, sub := .sendStart }) rfl
  have hinit : i ≠ .init := by rcases hi with ⟨rfl, -⟩ | ⟨rfl, -⟩ <;> nofun
  have herr : u.err = s.err := by rw [fix_frame hu]
  exact ⟨_, u, h, hu, fun _ => rfl, rfl, hmode, hodr, hline, rfl, rfl, herr, (fix_outputs hu).1,
    exec_other_pins h (commandPin_of_txn hi hr), exec_hostSide h, exec_timer h hinit⟩

/-- Settles O53: TURN is the change to floating with RECV's entry, RESTORE the change to output. -/
theorem turnAndRestoreComplete : Obligations.TurnAndRestoreComplete := by
  intro s axis r hr
  refine ⟨fun hs => ?turn, fun hs => ?restore⟩
  case turn =>
    have h := execRdtxn_turn hr hs
    have hmode : pinMode (txnTurn s r) r = modeInFloat := (pinMode_makeInFloat s r r).trans (if_pos rfl)
    exact ⟨_, h, hmode, odrBit_makeInFloat s r r, rfl, rfl, rfl, rfl, exec_other_pins h hr, exec_hostSide h,
      exec_timer h nofun, ⟨rfl, rfl⟩, fun _ => rfl⟩
  case restore =>
    have h := execRdtxn_restore hr hs
    obtain ⟨hmode, hodr, hline⟩ := outHigh_of_ports (t := txnRestore s r) (u := s) (r := r) rfl
    exact ⟨_, h, hmode, hodr, hline, rfl, rfl, exec_other_pins h hr, exec_hostSide h, exec_timer h nofun, ⟨rfl, rfl⟩,
      fun _ => rfl⟩

/-- Settles O52: the entry cycle and a later one are the same cycle of the guard, which is its last or changes
nothing. -/
theorem guardHoldCycles : Obligations.GuardHoldCycles := by
  intro s axis r i code x hi hr hsub hx
  have htxn : RetiresWith s axis i code := hi
  obtain ⟨t0, h, hsince, hstart⟩ := htxn.exec_guard hr hsub
  rw [← hsince] at hx ⊢
  refine ⟨_, h, fun hend => ?last, fun hgo => ?goesOn, fun hs => (txnGuard_t0 code).trans (hstart hs),
    txnGuard_result code, txnGuard_ports _ code, txnGuard_bytes code, exec_hostSide h, exec_timer h htxn.ne_init⟩
  case last =>
    rw [txnGuard_last (s := atGuard s t0) code hx hend]
    exact ⟨Retired.retire code _, rfl⟩
  case goesOn =>
    rw [txnGuard_not_last (s := atGuard s t0) code hx hgo]
    exact ⟨rfl, rfl, rfl, rfl⟩

/-- Settles O56: SETUP and the characters run to the entry of the guard, and the guard from there to the retirement. -/
theorem writeTransactionRuns : Obligations.WriteTransactionRuns := by
  intro s axis r hs hd hr hc hall hq
  obtain ⟨hsends, g, hg, hat⟩ := write_characters_run hs hd hr hc hall hq (by omega)
  obtain ⟨hguard, t, ht, hretired, hirq, hports, hmem, hresult⟩ := guard_run (i := .wrtxn axis) (code := .ok) hq
    le_rfl hg
    (by rw [hat.cmd]; exact hd) nofun hat.cycEn hat.sub
    (fun _ hcfg _ => execWrtxn_guardStart (axisPin_later hr hcfg))
    (fun _ hcfg _ => execWrtxn_guarding (axisPin_later hr hcfg))
  obtain ⟨u, hu, humem⟩ := hat.mem
  refine ⟨suppressed_append (fun n h1 hn => ?characters) fun n hn => ?guard, t, u, ht, hretired, hirq,
    (pinMode_congr hports r).trans hat.mode, (odrBit_congr hports r).trans hat.odr, hu,
    fun a => by rw [hmem, humem], hresult.trans hat.result⟩
  case characters =>
    rw [← Nat.add_sub_cancel' h1]
    exact hsends (n - 1) (by omega)
  case guard =>
    obtain ⟨v, hv, hkeep, -, hbusy⟩ := hguard n hn
    exact ⟨v, hv, hbusy, hkeep.irq.trans hat.irq⟩

/-- Settles O58: the request and the first `n` bytes run to the entry of the RECV that times out, its polls to the entry
of RESTORE with the failure field set, and the restore and the guard from there. -/
theorem readTransactionTimesOut : Obligations.ReadTransactionTimesOut := by
  intro s axis r gap b n hs hd hr hc hall hn hq harrives hhigh
  obtain ⟨hreply, q, hrecv, hat⟩ := replies_run hs hd hr hc hall hq n hn.le (by omega) harrives
  obtain ⟨hpolls, x, hx, hxsub, hxtout, hxcycEn, hxcmd, hxirq, hxresult, hxbytes⟩ :=
    reply_timeout hr hd hq (by omega) hrecv (hat.sub.trans (if_pos hn)) (hat.j hn) hat.mode hat.cycEn hat.cmd hhigh
  obtain ⟨hguard, z, hz, hretired, hirq, hmode, hodr, hresult, hmem⟩ :=
    restore_run hr hd hq le_rfl hx hxsub hxcycEn hxcmd
  have hcode : readCode x = .rxTimeout := by simp [readCode, hxtout]
  have hsuppressed : ∀ c, 1 ≤ c → c < replyEntry s gap n + s.cfg.params.rxTimeout + (1 + guardCycles s) →
      SuppressedAt s c := by
    refine suppressed_append (suppressed_append hreply fun c hlt => ?polls) fun c hlt => ?guard
    case polls =>
      obtain ⟨t, ht, hbusy, htirq⟩ := hpolls c hlt
      exact ⟨t, ht, hbusy, htirq.trans hat.irq⟩
    case guard =>
      obtain ⟨t, ht, hbusy, htirq⟩ := hguard c hlt
      exact ⟨t, ht, hbusy, htirq.trans (hxirq.trans hat.irq)⟩
  refine ⟨fun c h1 hlt => hsuppressed c h1 (by omega), z, hz, hcode ▸ hretired, hirq, hmode, hodr,
    hresult.trans (hxresult.trans hat.result), fun k hk => ?bytes⟩
  case bytes =>
    rw [rxByte, hmem, hxbytes]
    exact if_congr (by omega) rfl (hat.rx k hk)

end Sys2Proof
end

section
/-! A cycle with RESET (70_reset_and_hazards.md R160-R162): it is `resetCycle`, whatever ran and whatever the host did. -/

namespace Sys2Proof.Machine

/-- RESET comes before the host access and the engine (R160), so no fault of either reaches the step. -/
theorem step_of_reset {s : State} (hr : (currentInput s).reset = true) : step s = .next (resetCycle s) :=
  if_pos hr

end Sys2Proof.Machine

namespace Sys2Proof

open Machine

/-- Settles O20: the next state is `resetCycle`, which is the reset state but for the fields the statement lists. -/
theorem resetOverridesTheCycle : Obligations.ResetOverridesTheCycle := by
  intro s hr
  exact ⟨resetCycle s, step_of_reset hr, rfl⟩

end Sys2Proof
end
